-- ==== Sys2Proof/Word.lean ====
section
/-!
DEFINITION. Sys2Proof/Word.lean: the widths of the VCPU-32 data types (spec 00_scope.md R7, 20_memory.md R100, R133).
-/

namespace Sys2Proof

/-- The machine word: 32 bits (R7, R100). -/
abbrev Word := BitVec 32

/-- A byte: 8 bits (R100). -/
abbrev Byte := BitVec 8

/-- A segment identifier: 16 bits (R35). -/
abbrev SegId := BitVec 16

/-- The number of a general register GR0 to GR15 (R205). -/
abbrev GReg := BitVec 4

/-- A physical address as a translation forms it: a 20-bit page number and a 14-bit page offset (R133). -/
abbrev PAddr := BitVec 34

/-- A privilege level: 0 is privileged, 1 is user (R45, R590). -/
abbrev Level := BitVec 1

end Sys2Proof
end

