-- ==== Sys2Proof/Syntax.lean ====
section
/-!
DEFINITION. Sys2Proof/Syntax.lean: the abstract syntax of the 43 VCPU-32 instructions, one constructor per row of
spec/opcode_table.json. Field names are the manual's (30_encoding.md R192, R200, R220 to R228). A field whose bits the
manual leaves ignored in one form (the position field of EXTR.A, the shift amount of DSR.A) is kept, so that no bit of a
word is lost.
-/

namespace Sys2Proof

/-- The operand field of ADD to CMPU, bits 12..31 of the word: the four operand modes (R202, R210). -/
inductive Operand where
  /-- Mode 0: an 18-bit signed immediate. -/
  | imm (val : BitVec 18)
  /-- Mode 1: two registers; GR[r] is target only. -/
  | reg (a b : GReg)
  /-- Mode 2: a memory operand at GR[b] + GR[a], of the width that dw gives. -/
  | indexed (dw : BitVec 2) (a b : GReg)
  /-- Mode 3: a memory operand at GR[b] + sext(ofs), of the width that dw gives. -/
  | offset (dw : BitVec 2) (ofs : BitVec 12) (b : GReg)
deriving DecidableEq, Repr

/-- The displacement of LD, ST, LDA, STA: offset form (bit 10 = 0) or index register form (bit 10 = 1) (R225, R261). -/
inductive Disp where
  | ofs (ofs : BitVec 12)
  | index (a : GReg)
deriving DecidableEq, Repr

/-- The 2-bit condition of CMP, CMPU, CBR and CBRU (R255). -/
inductive Cond where
  | eq | lt | ne | le
deriving DecidableEq, Repr

/-- The source of DEP: general register b, or with the I option a 4-bit immediate (R420). -/
inductive DepSrc where
  | reg (b : GReg)
  | imm (val : BitVec 4)
deriving DecidableEq, Repr

/-- The register that MR names in its field s: a segment register (M = 0) or a control register (M = 1) (R227, R451). -/
inductive SysReg where
  | sr (n : BitVec 3)
  | cr (n : BitVec 5)
deriving DecidableEq, Repr

/-- The argument of MST by its mode field: 0 register, 1 set mask, 2 clear mask, 3 undefined (traps) (R455). -/
inductive MstArg where
  | reg (b : GReg)
  | set (mask : BitVec 4)
  | clear (mask : BitVec 4)
  | undefined (b : BitVec 4)
deriving DecidableEq, Repr

/-- The VCPU-32 instructions (R230). -/
inductive Instr where
  | brk (info1 : BitVec 4) (info2 : BitVec 16)
  | ldil (r : GReg) (val : BitVec 22)
  | addil (r : GReg) (val : BitVec 22)
  | ldo (r : GReg) (ofs : BitVec 18) (b : GReg)
  | lsid (r b : GReg)
  | extr (r : GReg) (sx useShamt : Bool) (len pos : BitVec 5) (b : GReg)
  | dep (r : GReg) (z useShamt : Bool) (len pos : BitVec 5) (src : DepSrc)
  | dsr (r : GReg) (useShamt : Bool) (shamt : BitVec 5) (a b : GReg)
  | shla (r : GReg) (l o : Bool) (sa : BitVec 2) (a b : GReg)
  | cmr (r : GReg) (cond : BitVec 4) (a b : GReg)
  | mr (r : GReg) (d : Bool) (reg : SysReg)
  | mst (r : GReg) (arg : MstArg)
  | ds (r a b : GReg)
  | add (r : GReg) (l o : Bool) (opd : Operand)
  | adc (r : GReg) (l o : Bool) (opd : Operand)
  | sub (r : GReg) (l o : Bool) (opd : Operand)
  | sbc (r : GReg) (l o : Bool) (opd : Operand)
  | and (r : GReg) (n c : Bool) (opd : Operand)
  | or (r : GReg) (n c : Bool) (opd : Operand)
  | xor (r : GReg) (n : Bool) (opd : Operand)
  | cmp (r : GReg) (cond : Cond) (opd : Operand)
  | cmpu (r : GReg) (cond : Cond) (opd : Operand)
  | b (r : GReg) (ofs : BitVec 22)
  | gate (r : GReg) (ofs : BitVec 22)
  | br (r b : GReg)
  | bv (r b : GReg)
  | be (r : GReg) (ofs : BitVec 14) (a : BitVec 4) (b : GReg)
  | bve (r a b : GReg)
  | cbr (cond : Cond) (ofs : BitVec 16) (a b : GReg)
  | cbru (cond : Cond) (ofs : BitVec 16) (a b : GReg)
  | ld (r : GReg) (m : Bool) (seg dw : BitVec 2) (disp : Disp) (b : GReg)
  | st (r : GReg) (m : Bool) (seg dw : BitVec 2) (disp : Disp) (b : GReg)
  | lda (r : GReg) (m : Bool) (disp : Disp) (b : GReg)
  | sta (r : GReg) (m : Bool) (disp : Disp) (b : GReg)
  | ldr (r : GReg) (seg : BitVec 2) (ofs : BitVec 12) (b : GReg)
  | stc (r : GReg) (seg : BitVec 2) (ofs : BitVec 12) (b : GReg)
  | ldpa (r : GReg) (seg : BitVec 2) (a b : GReg)
  | prb (r : GReg) (w i : Bool) (seg : BitVec 2) (a b : GReg)
  | itlb (r : GReg) (t : Bool) (a : BitVec 3) (b : GReg)
  | ptlb (t m : Bool) (seg : BitVec 2) (a b : GReg)
  | pca (t m : Bool) (seg : BitVec 2) (f : Bool) (a b : GReg)
  | diag (r : GReg) (info : BitVec 4) (a b : GReg)
  | rfi
deriving DecidableEq, Repr

end Sys2Proof
end

