-- ==== Sys2Proof/WellFormed.lean ====
section
/-!
DEFINITION. Sys2Proof/WellFormed.lean: which instruction terms have a specified operation, as far as the word alone tells
(30_encoding.md R243, 44_computational_register.md R413). Reserved fields and register numbers out of range cannot be
written as terms at all; what is left are the combinations that the manual calls an undefined operation.
-/

namespace Sys2Proof

/-- The bit-field geometry of EXTR and DEP that the word itself decides: the length is not 0, and with the position in
the word the field does not extend beyond the leftmost bit (R413). With the A option the position is in CR2 and that
part is checked when the instruction runs. -/
def wfBitField (useShamt : Bool) (len pos : BitVec 5) : Bool :=
  len != 0 && (useShamt || decide (len.toNat ≤ pos.toNat + 1))

/-- An instruction term whose word is no undefined operation (R243). -/
def Instr.wellFormed : Instr → Bool
  | .and _ n c _ => !(n && c)
  | .or _ n c _ => !(n && c)
  | .extr _ _ useShamt len pos _ => wfBitField useShamt len pos
  | .dep _ _ useShamt len pos _ => wfBitField useShamt len pos
  | .brk _ _ | .ldil _ _ | .addil _ _ | .ldo _ _ _ | .lsid _ _ | .dsr _ _ _ _ _ | .shla _ _ _ _ _ _
  | .cmr _ _ _ _ | .mr _ _ _ | .mst _ _ | .ds _ _ _ | .add _ _ _ _ | .adc _ _ _ _ | .sub _ _ _ _
  | .sbc _ _ _ _ | .xor _ _ _ | .cmp _ _ _ | .cmpu _ _ _ | .b _ _ | .gate _ _ | .br _ _ | .bv _ _
  | .be _ _ _ _ | .bve _ _ _ | .cbr _ _ _ _ | .cbru _ _ _ _ | .ld _ _ _ _ _ _ | .st _ _ _ _ _ _
  | .lda _ _ _ _ | .sta _ _ _ _ | .ldr _ _ _ _ | .stc _ _ _ _ | .ldpa _ _ _ _ | .prb _ _ _ _ _ _
  | .itlb _ _ _ _ | .ptlb _ _ _ _ _ | .pca _ _ _ _ _ _ | .diag _ _ _ _ | .rfi => true

end Sys2Proof
end

