-- ==== Sys2Proof/Decode.lean ====
section
/-!
DEFINITION. Sys2Proof/Decode.lean: the decoder, the encoder, and the reading of an instruction from its bytes
(30_encoding.md R190 to R246). A field `<a..b>` of the manual is written here by its weights (R11): `bits w lo n` is the
n-bit field whose lowest bit has weight 2^lo.
-/

namespace Sys2Proof

/-- What decoding a word (or a part of one) gives. -/
inductive Decoded (α : Type) where
  /-- The word is this instruction. -/
  | ok (i : α)
  /-- Unassigned opcode or trapping sub-encoding: the machine raises trap 5 (R240, R242). -/
  | illegal
  /-- A reserved field that does not hold its drawn value, or a register number out of range: undefined behaviour
  (R241, R244). -/
  | undefined
deriving DecidableEq, Repr

/-- Apply a function to a decoded part. -/
def Decoded.map {α β : Type} (f : α → β) : Decoded α → Decoded β
  | .ok a => .ok (f a)
  | .illegal => .illegal
  | .undefined => .undefined

/-- The n-bit field of w whose lowest bit has weight 2^lo (R11). -/
def bits (w : Word) (lo n : Nat) : BitVec n := w.extractLsb' lo n

/-- The bit of w of weight 2^i (R11). -/
def bitAt (w : Word) (i : Nat) : Bool := w.getLsbD i

/-- Accept a decoded part only if every reserved field holds its drawn value (R241). -/
def reservedOk {α : Type} (ok : Bool) (a : α) : Decoded α := if ok then .ok a else .undefined

/-- As reservedOk, where the trapping sub-encoding test comes first (R246: trap 5 before the reserved-field check). -/
def trapElseReservedOk {α : Type} (traps ok : Bool) (a : α) : Decoded α :=
  if ok then .ok a else if traps then .illegal else .undefined

/-- The 2-bit condition field: 0 EQ, 1 LT, 2 NE, 3 LE (R255). -/
def Cond.ofBits (c : BitVec 2) : Cond :=
  if c = 0#2 then .eq else if c = 1#2 then .lt else if c = 2#2 then .ne else .le

/-- The field of a condition (R255). -/
def Cond.toBits : Cond → BitVec 2
  | .eq => 0#2
  | .lt => 1#2
  | .ne => 2#2
  | .le => 3#2

/-- The register fields of a word: r<6..9>, a<24..27>, b<28..31> (R192). -/
def rOf (w : Word) : GReg := bits w 22 4
/-- The field a<24..27> (R192). -/
def aOf (w : Word) : GReg := bits w 4 4
/-- The field b<28..31> (R192). -/
def bOf (w : Word) : GReg := bits w 0 4
/-- The field seg<12..13> (R204). -/
def segOfWord (w : Word) : BitVec 2 := bits w 18 2
/-- The field dw<14..15> (R203). -/
def dwOf (w : Word) : BitVec 2 := bits w 16 2

/-- The operand field <12..31> by its mode <12..13> (R202, R210). -/
def decodeOperand (w : Word) : Decoded Operand :=
  if bits w 18 2 = 0#2 then .ok (.imm (bits w 0 18))
  else if bits w 18 2 = 1#2 then reservedOk (bits w 8 10 == 0#10) (.reg (aOf w) (bOf w))
  else if bits w 18 2 = 2#2 then
    trapElseReservedOk (dwOf w == 3#2) (bits w 8 8 == 0#8) (.indexed (dwOf w) (aOf w) (bOf w))
  else .ok (.offset (dwOf w) (bits w 4 12) (bOf w))

/-- The displacement of LD, ST, LDA, STA by bit <10> (R225); the reserved bits of the index form are <16..23>. -/
def decodeDisp (w : Word) : Disp := if bitAt w 21 then .index (aOf w) else .ofs (bits w 4 12)

/-- The index register form draws bits <16..23> as zero (R225). -/
def dispReservedOk (w : Word) : Bool := !bitAt w 21 || bits w 8 8 == 0#8

/-- The register named by the field s<26..31> of MR: M = 1 a control register, M = 0 a segment register (R227). -/
def decodeSysReg (w : Word) : SysReg := if bitAt w 20 then .cr (bits w 0 5) else .sr (bits w 0 3)

/-- The unused bits of s are zero: <26> for a control register, <26..28> for a segment register (R227, R244). -/
def sysRegReservedOk (w : Word) : Bool := if bitAt w 20 then bits w 5 1 == 0#1 else bits w 3 3 == 0#3

/-- The argument of MST by its mode <10..11> (R455). -/
def decodeMstArg (w : Word) : MstArg :=
  if bits w 20 2 = 0#2 then .reg (bOf w)
  else if bits w 20 2 = 1#2 then .set (bOf w)
  else if bits w 20 2 = 2#2 then .clear (bOf w)
  else .undefined (bOf w)

/-- The instruction of a word whose opcode is op: the opcode map of R235 and the field layouts of R220 to R228. -/
def decodeOp (op : BitVec 6) (w : Word) : Decoded Instr :=
  match op with
  | 0x00#6 => reservedOk (bits w 16 6 == 0#6) (.brk (bits w 22 4) (bits w 0 16))
  | 0x01#6 => .ok (.ldil (rOf w) (bits w 0 22))
  | 0x02#6 => .ok (.addil (rOf w) (bits w 0 22))
  | 0x03#6 => .ok (.ldo (rOf w) (bits w 4 18) (bOf w))
  | 0x04#6 => reservedOk (bits w 4 18 == 0#18) (.lsid (rOf w) (bOf w))
  | 0x05#6 => reservedOk (bits w 15 5 == 0#5 && bits w 9 1 == 0#1)
      (.extr (rOf w) (bitAt w 21) (bitAt w 20) (bits w 10 5) (bits w 4 5) (bOf w))
  | 0x06#6 => reservedOk (bits w 15 4 == 0#4 && bits w 9 1 == 0#1)
      (.dep (rOf w) (bitAt w 21) (bitAt w 20) (bits w 10 5) (bits w 4 5)
        (if bitAt w 19 then .imm (bOf w) else .reg (bOf w)))
  | 0x07#6 => reservedOk (bits w 15 6 == 0#6 && bits w 8 2 == 0#2)
      (.dsr (rOf w) (bitAt w 21) (bits w 10 5) (aOf w) (bOf w))
  | 0x08#6 => reservedOk (bits w 12 8 == 0#8 && bits w 8 2 == 0#2)
      (.shla (rOf w) (bitAt w 21) (bitAt w 20) (bits w 10 2) (aOf w) (bOf w))
  | 0x09#6 => trapElseReservedOk (bitAt w 21) (bits w 8 10 == 0#10) (.cmr (rOf w) (bits w 18 4) (aOf w) (bOf w))
  | 0x0A#6 => reservedOk (bits w 6 14 == 0#14 && sysRegReservedOk w) (.mr (rOf w) (bitAt w 21) (decodeSysReg w))
  | 0x0B#6 => trapElseReservedOk (bits w 20 2 == 3#2) (bits w 4 16 == 0#16) (.mst (rOf w) (decodeMstArg w))
  | 0x0C#6 => reservedOk (bits w 8 14 == 0#14) (.ds (rOf w) (aOf w) (bOf w))
  | 0x10#6 => (decodeOperand w).map (.add (rOf w) (bitAt w 21) (bitAt w 20))
  | 0x11#6 => (decodeOperand w).map (.adc (rOf w) (bitAt w 21) (bitAt w 20))
  | 0x12#6 => (decodeOperand w).map (.sub (rOf w) (bitAt w 21) (bitAt w 20))
  | 0x13#6 => (decodeOperand w).map (.sbc (rOf w) (bitAt w 21) (bitAt w 20))
  | 0x14#6 => (decodeOperand w).map (.and (rOf w) (bitAt w 21) (bitAt w 20))
  | 0x15#6 => (decodeOperand w).map (.or (rOf w) (bitAt w 21) (bitAt w 20))
  | 0x16#6 =>
      if bitAt w 20 then (if bitAt w 19 && dwOf w == 3#2 then .illegal else .undefined)
      else (decodeOperand w).map (.xor (rOf w) (bitAt w 21))
  | 0x17#6 => (decodeOperand w).map (.cmp (rOf w) (Cond.ofBits (bits w 20 2)))
  | 0x18#6 => (decodeOperand w).map (.cmpu (rOf w) (Cond.ofBits (bits w 20 2)))
  | 0x20#6 => .ok (.b (rOf w) (bits w 0 22))
  | 0x21#6 => .ok (.gate (rOf w) (bits w 0 22))
  | 0x22#6 => reservedOk (bits w 4 18 == 0#18) (.br (rOf w) (bOf w))
  | 0x23#6 => reservedOk (bits w 4 18 == 0#18) (.bv (rOf w) (bOf w))
  | 0x24#6 => .ok (.be (rOf w) (bits w 8 14) (aOf w) (bOf w))
  | 0x25#6 => reservedOk (bits w 8 14 == 0#14) (.bve (rOf w) (aOf w) (bOf w))
  | 0x26#6 => .ok (.cbr (Cond.ofBits (bits w 24 2)) (bits w 8 16) (aOf w) (bOf w))
  | 0x27#6 => .ok (.cbru (Cond.ofBits (bits w 24 2)) (bits w 8 16) (aOf w) (bOf w))
  | 0x30#6 => trapElseReservedOk (dwOf w == 3#2) (dispReservedOk w)
      (.ld (rOf w) (bitAt w 20) (segOfWord w) (dwOf w) (decodeDisp w) (bOf w))
  | 0x31#6 => trapElseReservedOk (dwOf w == 3#2) (dispReservedOk w)
      (.st (rOf w) (bitAt w 20) (segOfWord w) (dwOf w) (decodeDisp w) (bOf w))
  | 0x32#6 => reservedOk (bits w 16 4 == 2#4 && dispReservedOk w) (.lda (rOf w) (bitAt w 20) (decodeDisp w) (bOf w))
  | 0x33#6 => reservedOk (bits w 16 4 == 2#4 && dispReservedOk w) (.sta (rOf w) (bitAt w 20) (decodeDisp w) (bOf w))
  | 0x34#6 => reservedOk (bits w 20 2 == 0#2 && dwOf w == 2#2) (.ldr (rOf w) (segOfWord w) (bits w 4 12) (bOf w))
  | 0x35#6 => reservedOk (bits w 20 2 == 0#2 && dwOf w == 2#2) (.stc (rOf w) (segOfWord w) (bits w 4 12) (bOf w))
  | 0x39#6 => reservedOk (bits w 20 2 == 0#2 && bits w 8 10 == 0#10) (.ldpa (rOf w) (segOfWord w) (aOf w) (bOf w))
  | 0x3A#6 => reservedOk (bits w 8 10 == 0#10)
      (.prb (rOf w) (bitAt w 21) (bitAt w 20) (segOfWord w) (aOf w) (bOf w))
  | 0x3B#6 => reservedOk (bits w 8 13 == 0#13 && !bitAt w 7) (.itlb (rOf w) (bitAt w 21) (bits w 4 3) (bOf w))
  | 0x3C#6 => reservedOk (bits w 22 4 == 0#4 && bits w 8 10 == 0#10)
      (.ptlb (bitAt w 21) (bitAt w 20) (segOfWord w) (aOf w) (bOf w))
  | 0x3D#6 => reservedOk (bits w 22 4 == 0#4 && bits w 8 9 == 0#9)
      (.pca (bitAt w 21) (bitAt w 20) (segOfWord w) (bitAt w 17) (aOf w) (bOf w))
  | 0x3E#6 => reservedOk (bits w 8 10 == 0#10) (.diag (rOf w) (bits w 18 4) (aOf w) (bOf w))
  | 0x3F#6 => reservedOk (bits w 0 26 == 0#26) .rfi
  | _ => .illegal

/-- Decode an instruction word: the opcode is the field <0..5> (R192, R246). -/
def decode (w : Word) : Decoded Instr := decodeOp (bits w 26 6) w

/-! ## The encoder -/

/-- The word whose field with lowest bit of weight 2^lo holds v, and every other bit 0 (R11). -/
def put {n : Nat} (lo : Nat) (v : BitVec n) : Word := v.setWidth 32 <<< lo

/-- One bit as a field. -/
def bit (c : Bool) : BitVec 1 := BitVec.ofBool c

/-- The bits <12..31> of an operand: mode <12..13> and the fields of the mode (R210). -/
def encodeOperand : Operand → Word
  | .imm val => put 0 val
  | .reg a b => put 18 1#2 ||| put 4 a ||| put 0 b
  | .indexed dw a b => put 18 2#2 ||| put 16 dw ||| put 4 a ||| put 0 b
  | .offset dw ofs b => put 18 3#2 ||| put 16 dw ||| put 4 ofs ||| put 0 b

/-- The form bit <10> and the fields <16..27> of a displacement (R225). -/
def encodeDisp : Disp → Word
  | .ofs o => put 4 o
  | .index a => put 21 1#1 ||| put 4 a

/-- The bit M<11> and the field s<26..31> of MR (R227). -/
def encodeSysReg : SysReg → Word
  | .sr n => put 0 n
  | .cr n => put 20 1#1 ||| put 0 n

/-- The mode <10..11> and the field <28..31> of MST (R455). -/
def encodeMstArg : MstArg → Word
  | .reg b => put 0 b
  | .set k => put 20 1#2 ||| put 0 k
  | .clear k => put 20 2#2 ||| put 0 k
  | .undefined k => put 20 3#2 ||| put 0 k

/-- The bit I<12> and the field <28..31> of DEP (R220). -/
def encodeDepSrc : DepSrc → Word
  | .reg b => put 0 b
  | .imm v => put 19 1#1 ||| put 0 v

/-- The opcode <0..5> (R192). -/
def opc (v : BitVec 6) : Word := put 26 v

/-- The instruction word of an instruction, written from the field layouts of R220 to R228. A field drawn as zero is the
absence of a `put`. -/
def encode : Instr → Word
  | .brk info1 info2 => opc 0x00 ||| put 22 info1 ||| put 0 info2
  | .ldil r val => opc 0x01 ||| put 22 r ||| put 0 val
  | .addil r val => opc 0x02 ||| put 22 r ||| put 0 val
  | .ldo r ofs b => opc 0x03 ||| put 22 r ||| put 4 ofs ||| put 0 b
  | .lsid r b => opc 0x04 ||| put 22 r ||| put 0 b
  | .extr r sx u len pos b =>
      opc 0x05 ||| put 22 r ||| put 21 (bit sx) ||| put 20 (bit u) ||| put 10 len ||| put 4 pos ||| put 0 b
  | .dep r z u len pos src =>
      opc 0x06 ||| put 22 r ||| put 21 (bit z) ||| put 20 (bit u) ||| put 10 len ||| put 4 pos ||| encodeDepSrc src
  | .dsr r u shamt a b => opc 0x07 ||| put 22 r ||| put 21 (bit u) ||| put 10 shamt ||| put 4 a ||| put 0 b
  | .shla r l o sa a b =>
      opc 0x08 ||| put 22 r ||| put 21 (bit l) ||| put 20 (bit o) ||| put 10 sa ||| put 4 a ||| put 0 b
  | .cmr r cond a b => opc 0x09 ||| put 22 r ||| put 18 cond ||| put 4 a ||| put 0 b
  | .mr r d s => opc 0x0A ||| put 22 r ||| put 21 (bit d) ||| encodeSysReg s
  | .mst r arg => opc 0x0B ||| put 22 r ||| encodeMstArg arg
  | .ds r a b => opc 0x0C ||| put 22 r ||| put 4 a ||| put 0 b
  | .add r l o opd => opc 0x10 ||| put 22 r ||| put 21 (bit l) ||| put 20 (bit o) ||| encodeOperand opd
  | .adc r l o opd => opc 0x11 ||| put 22 r ||| put 21 (bit l) ||| put 20 (bit o) ||| encodeOperand opd
  | .sub r l o opd => opc 0x12 ||| put 22 r ||| put 21 (bit l) ||| put 20 (bit o) ||| encodeOperand opd
  | .sbc r l o opd => opc 0x13 ||| put 22 r ||| put 21 (bit l) ||| put 20 (bit o) ||| encodeOperand opd
  | .and r n c opd => opc 0x14 ||| put 22 r ||| put 21 (bit n) ||| put 20 (bit c) ||| encodeOperand opd
  | .or r n c opd => opc 0x15 ||| put 22 r ||| put 21 (bit n) ||| put 20 (bit c) ||| encodeOperand opd
  | .xor r n opd => opc 0x16 ||| put 22 r ||| put 21 (bit n) ||| encodeOperand opd
  | .cmp r cond opd => opc 0x17 ||| put 22 r ||| put 20 cond.toBits ||| encodeOperand opd
  | .cmpu r cond opd => opc 0x18 ||| put 22 r ||| put 20 cond.toBits ||| encodeOperand opd
  | .b r ofs => opc 0x20 ||| put 22 r ||| put 0 ofs
  | .gate r ofs => opc 0x21 ||| put 22 r ||| put 0 ofs
  | .br r b => opc 0x22 ||| put 22 r ||| put 0 b
  | .bv r b => opc 0x23 ||| put 22 r ||| put 0 b
  | .be r ofs a b => opc 0x24 ||| put 22 r ||| put 8 ofs ||| put 4 a ||| put 0 b
  | .bve r a b => opc 0x25 ||| put 22 r ||| put 4 a ||| put 0 b
  | .cbr cond ofs a b => opc 0x26 ||| put 24 cond.toBits ||| put 8 ofs ||| put 4 a ||| put 0 b
  | .cbru cond ofs a b => opc 0x27 ||| put 24 cond.toBits ||| put 8 ofs ||| put 4 a ||| put 0 b
  | .ld r m seg dw disp b =>
      opc 0x30 ||| put 22 r ||| put 20 (bit m) ||| put 18 seg ||| put 16 dw ||| encodeDisp disp ||| put 0 b
  | .st r m seg dw disp b =>
      opc 0x31 ||| put 22 r ||| put 20 (bit m) ||| put 18 seg ||| put 16 dw ||| encodeDisp disp ||| put 0 b
  | .lda r m disp b => opc 0x32 ||| put 22 r ||| put 20 (bit m) ||| put 16 2#4 ||| encodeDisp disp ||| put 0 b
  | .sta r m disp b => opc 0x33 ||| put 22 r ||| put 20 (bit m) ||| put 16 2#4 ||| encodeDisp disp ||| put 0 b
  | .ldr r seg ofs b => opc 0x34 ||| put 22 r ||| put 18 seg ||| put 16 2#2 ||| put 4 ofs ||| put 0 b
  | .stc r seg ofs b => opc 0x35 ||| put 22 r ||| put 18 seg ||| put 16 2#2 ||| put 4 ofs ||| put 0 b
  | .ldpa r seg a b => opc 0x39 ||| put 22 r ||| put 18 seg ||| put 4 a ||| put 0 b
  | .prb r w i seg a b =>
      opc 0x3A ||| put 22 r ||| put 21 (bit w) ||| put 20 (bit i) ||| put 18 seg ||| put 4 a ||| put 0 b
  | .itlb r t a b => opc 0x3B ||| put 22 r ||| put 21 (bit t) ||| put 4 a ||| put 0 b
  | .ptlb t m seg a b => opc 0x3C ||| put 21 (bit t) ||| put 20 (bit m) ||| put 18 seg ||| put 4 a ||| put 0 b
  | .pca t m seg f a b =>
      opc 0x3D ||| put 21 (bit t) ||| put 20 (bit m) ||| put 18 seg ||| put 17 (bit f) ||| put 4 a ||| put 0 b
  | .diag r info a b => opc 0x3E ||| put 22 r ||| put 18 info ||| put 4 a ||| put 0 b
  | .rfi => opc 0x3F

/-! ## Instructions as bytes -/

/-- The four bytes of a word in memory order, most significant first (R100, R102). -/
def wordBytes (w : Word) : List Byte :=
  [w.extractLsb' 24 8, w.extractLsb' 16 8, w.extractLsb' 8 8, w.extractLsb' 0 8]

/-- The word that four bytes at rising addresses hold, the first most significant (R101, R102). -/
def wordOfBytes (b0 b1 b2 b3 : Byte) : Word := b0 ++ b1 ++ b2 ++ b3

/-- Decode the instruction at the head of a list of bytes; fewer than four bytes hold no instruction (R190). -/
def decodeBytes : List Byte → Decoded Instr
  | b0 :: b1 :: b2 :: b3 :: _ => decode (wordOfBytes b0 b1 b2 b3)
  | _ => .undefined

/-- The instruction the decoder reads from an instruction word given as a number, bit 0 least significant (the numbering
of spec/opcode_table.json): its bytes are laid out as memory holds them and given to the decoder. Bits above nbits are 0. -/
def decodeTableWord (nbits w : Nat) : Option Instr :=
  match decodeBytes (wordBytes (BitVec.ofNat 32 (w % 2 ^ nbits))) with
  | .ok i => some i
  | .illegal => none
  | .undefined => none

end Sys2Proof
end

