-- ==== Sys2Proof/Config.lean ====
section
/-!
DEFINITION. Sys2Proof/Config.lean: what an implementation or a platform fixes. The fixed numbers of the physical map are
definitions; the values that the spec leaves unspecified (93_implementation_defined.md) are constants with no body, so
that no proof can lean on one. The named parameters of 00_scope.md R8 that are plain data stand in
Sys2Proof/Machine/State.lean as Params.
-/

namespace Sys2Proof.Config

/-- First address of the processor dependent code region (R115). -/
def pdcBase : Nat := 0xF0000000

/-- First address of the I/O modules (R115). -/
def ioBase : Nat := 0xF1000000

/-- First physical address that 32 bits cannot name (R133). -/
def wordSpace : Nat := 0x100000000

/-- A 32-bit value the spec calls unspecified: `slot` tells the uses inside one step apart, `tick` is the step number
(U9 the result of DS, U14 the register of GATE, U15 the trap parameters shown as "-"). FREE VALUE (notes/assumptions/1.md). -/
opaque freeWord (slot tick : Nat) : Word

/-- A one-bit value the spec calls unspecified (U9: PSW.CB and PSW.V after DS). FREE VALUE (notes/assumptions/1.md). -/
opaque freeBit (slot tick : Nat) : Bool

/-- What a read or a fetch of `bytes` bytes at physical address `pa` in I/O space returns, after `n` earlier accesses to
I/O space (U19, D26). FREE VALUE (notes/assumptions/1.md). -/
opaque ioRead (n pa bytes : Nat) : Word

/-- EXT_INT (R8, R580): whether an enabled external interrupt is pending, given the step number and CR22. FREE VALUE
(notes/assumptions/1.md). -/
opaque extInt (tick : Nat) (eim : Word) : Bool

/-- Which TLB entries of the lossy TLB_MODEL (R140, U41) vanish before step `tick`: `instr` names the instruction TLB,
`vpn` the entry. FREE VALUE (notes/assumptions/1.md). -/
opaque tlbLoses (tick : Nat) (instr : Bool) (vpn : Nat) : Bool

/-- Whether an implementation drops the reservation before step `tick` (R283, U17). FREE VALUE (notes/assumptions/1.md). -/
opaque reservationLost (tick : Nat) : Bool

/-- The bytes that I/O agents write to memory before step `tick` (R175, R24). FREE VALUE (notes/assumptions/1.md). -/
opaque ioAgentWrites (tick : Nat) : List (Nat × Byte)

/-- One action of the cache hardware on the line that holds a physical address (R164). -/
inductive CacheAction where
  /-- Copy the line from memory into the instruction cache if it is absent there. -/
  | fillInstr (pa : Nat)
  /-- Copy the line from memory into the data cache, clean, if it is absent there. -/
  | fillData (pa : Nat)
  /-- Write a dirty data cache line to memory and mark it clean. -/
  | writeBack (pa : Nat)
  /-- Remove a clean line from the data cache. -/
  | dropData (pa : Nat)
  /-- Remove a line from the instruction cache. -/
  | dropInstr (pa : Nat)
deriving DecidableEq, Repr

/-- What the cache hardware does of its own accord before step `tick` (R164). FREE VALUE (notes/assumptions/1.md). -/
opaque cacheActions (tick : Nat) : List CacheAction

/-- One effect of a DIAG command besides its result in GR[r] (R480: "other effects", and flags that are implementation
dependent). The list of kinds covers every part of the state that an instruction can reach, but not the parameters and not
the instruction address, which R480 advances (notes/assumptions/11.md). -/
inductive DiagEffect where
  /-- Write a general register. -/
  | gr (r : GReg) (v : Word)
  /-- Write a segment register. -/
  | sr (n : BitVec 3) (v : SegId)
  /-- Write a control register. -/
  | cr (n : BitVec 5) (v : Word)
  /-- Write the sixteen status bits PSW-0<0..15>. -/
  | status (v : BitVec 16)
  /-- Write a byte of memory at a physical address, as a data write does. -/
  | mem (pa : Nat) (v : Byte)
  /-- Insert into the data (or instruction) TLB the translation of an ITLB argument word. -/
  | insertTlb (data : Bool) (seg : SegId) (ofs arg : Word)
  /-- Purge a translation from the data (or instruction) TLB. -/
  | purgeTlb (data : Bool) (seg : SegId) (ofs : Word)
  /-- Move a cache line, as the cache hardware does. -/
  | cache (act : CacheAction)
  /-- Purge a data cache line without writing it back. -/
  | purgeData (pa : Nat)
  /-- End the reservation. -/
  | endReservation
  /-- Write a word to a device in I/O space. -/
  | device (pa : Nat) (v : Word)
deriving DecidableEq, Repr

/-- DIAG_FN (R8, R480): the result in GR[r] of the DIAG command `info` on two arguments, and its other effects in order.
FREE VALUE (notes/assumptions/1.md). -/
opaque diagFn (info : BitVec 4) (a b : Word) : Word × List DiagEffect

/-- With visible caches, the step number up to which a data access before step `tick` sees the stores made through other
virtual addresses of the physical page it reads (R161, U37). FREE VALUE (notes/assumptions/1.md). -/
opaque aliasTime (tick : Nat) : Nat

end Sys2Proof.Config
end

