-- ==== Sys2Proof/Machine/State.lean ====
section
/-!
DEFINITION. Sys2Proof/Machine/State.lean: the state of one VCPU-32 processor and its memory as plain data
(10_state.md R30, R80; 20_memory.md R115), the reasons a step can stop, and the state after reset
(70_reset_and_hazards.md R620 to R623).
-/

namespace Sys2Proof.Machine

/-- The processor status word, both words, field by field in the order of the figure (R40). -/
structure Psw where
  /-- M, machine check, PSW-0<0> (R50). -/
  m : Bool
  /-- X, execution level, PSW-0<1>: the privilege level, 0 privileged, 1 user (R45). -/
  x : Level
  /-- C, code translation, PSW-0<2> (R46). -/
  c : Bool
  /-- N, nullify, PSW-0<3> (R47). -/
  n : Bool
  /-- V, divide step, PSW-0<4> (R48). -/
  v : Bool
  /-- CB, carry/borrow, PSW-0<5> (R49). -/
  cb : Bool
  /-- Reserved bits PSW-0<6..10> (R55). -/
  reserved : BitVec 5
  /-- R, recovery counter enable, PSW-0<11> (R51). -/
  r : Bool
  /-- Z, single step, PSW-0<12> (R52). -/
  z : Bool
  /-- D, data translation, PSW-0<13> (R46). -/
  d : Bool
  /-- P, protection check, PSW-0<14> (R53). -/
  p : Bool
  /-- E, external interrupt enable, PSW-0<15> (R54). -/
  e : Bool
  /-- The segment of the current instruction, PSW-0<16..31> (R40). -/
  seg : SegId
  /-- The offset of the current instruction, PSW-1, a multiple of 4 unless a trap was taken with a CR16 that is none (R40, R42;
  notes/assumptions/5.md). -/
  ofs : Word
deriving DecidableEq, Repr

/-- The page type of an access rights field (R145). -/
inductive PageType where
  | readOnly | readWrite | execute | gateway
deriving DecidableEq, Repr

/-- A translation (R142). The virtual page number is the key under which a TLB holds it. -/
structure TlbEntry where
  /-- V, the entry is valid. -/
  v : Bool
  /-- T, page reference trap. -/
  t : Bool
  /-- D, dirty trap. -/
  d : Bool
  /-- B, data reference trap. -/
  b : Bool
  /-- P, protection identifier check. -/
  p : Bool
  /-- AR<0..1>, the page type. -/
  ptype : PageType
  /-- AR<2>. -/
  pl1 : Level
  /-- AR<3>. -/
  pl2 : Level
  /-- The physical page number. -/
  ppn : BitVec 20
deriving DecidableEq, Repr

/-- A line of the data cache: its bytes from the line's base address on, and whether it is dirty (R161). -/
structure DataLine where
  data : List Byte
  dirty : Bool
deriving DecidableEq, Repr

/-- The width of a memory access (R105). -/
inductive Width where
  | byte | half | word
deriving DecidableEq, Repr

/-- A byte stored to memory through a virtual page while the caches are visible: what a later data read of the byte through
another virtual page of the same physical page needs (R161; 93_implementation_defined.md U37). The model's own record. -/
structure StoreRecord where
  /-- The physical address of the byte. -/
  pa : Nat
  /-- The virtual page number of the store. -/
  page : Nat
  /-- The step number of the store. -/
  time : Nat
  /-- The byte that the store replaced. -/
  old : Byte
deriving DecidableEq, Repr

/-- An access to I/O space, an external event (R109, R152). -/
inductive IoEvent where
  /-- A data read of a width at a physical address. -/
  | read (pa : Nat) (n : Width)
  /-- A data write of a value of a width at a physical address. -/
  | write (pa : Nat) (n : Width) (value : Word)
  /-- An instruction fetch at a physical address. -/
  | fetch (pa : Nat)
deriving DecidableEq, Repr

/-- The parameters of R8 that are plain data, fixed during a run (R22): no step changes them. -/
structure Params where
  /-- PHYS_ADDR_BITS: the width of a physical address that a translation can produce (R133). -/
  physAddrBits : Nat
  /-- MEM_TOP: the first physical address above installed memory below the PDC region (R116). -/
  memTop : Nat
  /-- The first address above the memory installed at or above 2^32, if any (R116). -/
  highMemTop : Nat
  /-- TLB_MODEL: false is ideal, true is lossy (R140). -/
  tlbLossy : Bool
  /-- Whether an implementation may drop a reservation at any moment (R283, U17). -/
  reservationLossy : Bool
  /-- CACHE_LINE_BYTES (R160). -/
  cacheLineBytes : Nat
  /-- CACHE_MODEL: false is transparent, true is visible (R161). -/
  cacheVisible : Bool
  /-- RESET_OFS (R621). -/
  resetOfs : Word
  /-- SEG0_BYPASS (R136). -/
  seg0Bypass : Bool
  /-- PRIV_SR_SET: bit n tells whether writing SRn needs privileged mode (R452). -/
  privSr : BitVec 8
  /-- PRIV_CR_SET: bit n tells whether writing CRn needs privileged mode (R452). -/
  privCr : BitVec 32
  /-- Whether the host supplies DIAG_FN (R480). -/
  diagSupplied : Bool
  /-- TRAP_D_ID (R566). -/
  trapD : BitVec 5
  /-- TRAP_B_ID (R566). -/
  trapB : BitVec 5
  /-- Whether the host enables EXT_INT (R580). -/
  extIntEnabled : Bool
  /-- Whether the host enables I/O agents that write memory (R24, R175). -/
  ioAgents : Bool
deriving DecidableEq, Repr

/-- The defaults that R8 suggests; all caches transparent, no memory above 2^32 (notes/assumptions/2.md). -/
def Params.default : Params where
  physAddrBits := 34
  memTop := 0xF0000000
  highMemTop := 0x100000000
  tlbLossy := false
  reservationLossy := false
  cacheLineBytes := 16
  cacheVisible := false
  resetOfs := 0xF0000000
  seg0Bypass := true
  privSr := 0xE0
  privCr := 0xFFFFFFFB
  diagSupplied := false
  trapD := 16
  trapB := 16
  extIntEnabled := false
  ioAgents := false

/-- The state of the machine. -/
structure State where
  /-- GR0 to GR15; GR0 is hard-wired to zero (R31, R32). -/
  gr : Vector Word 16
  /-- SR0 to SR7 (R35). -/
  sr : Vector SegId 8
  /-- CR0 to CR31; CR2 keeps five bits (R60, R63). -/
  cr : Vector Word 32
  /-- PSW-0 and PSW-1 (R40). -/
  psw : Psw
  /-- The load-reserved record: none is lrValid = false, some a is lrValid = true with lrAdr = a (R80, R280). -/
  reservation : Option PAddr
  /-- The instruction TLB: translations by virtual page number (R140, R141). -/
  itlb : List (Nat × TlbEntry)
  /-- The data TLB (R140, R141). -/
  dtlb : List (Nat × TlbEntry)
  /-- The instruction cache: the bytes of a line by its base address (R161). -/
  ic : List (Nat × List Byte)
  /-- The data cache: lines by base address (R161). -/
  dc : List (Nat × DataLine)
  /-- Physical memory, the backing store: addresses strictly rising, no byte equal to what an unlisted address reads as
  (R115, R116). -/
  mem : List Host.Cell
  /-- The bytes stored while the caches are visible, newest first (R161, U37). The model's own; empty with transparent
  caches. -/
  history : List StoreRecord
  /-- The accesses made to I/O space, newest first. The model's own record of the external events of R109. -/
  io : List IoEvent
  /-- The number of steps begun: R580's step number, and the counter that free values are read at. The model's own. -/
  tick : Nat
  /-- The parameters of R8 (R22). -/
  params : Params
deriving DecidableEq, Repr

/-- Why the machine stops: the execution has left the specified behaviour (93_implementation_defined.md, `fault`). -/
inductive Fault where
  /-- A reserved field does not hold its drawn value or a register number is out of range. Raised by step on the decoder's
  answer, and by BE with code translation on and a field a of 8 to 15 (U1: R241, R244). Safe. -/
  | reservedEncoding
  /-- A combination that the manual calls an undefined operation: AND or OR with N and C both set, EXTR or DEP with an
  empty field or one that extends beyond the leftmost bit. Raised by these four (U1: R243, R413). Safe. -/
  | undefinedOperation
  /-- An access to a physical address that holds neither memory nor a device. Raised by a data access or a fetch
  (U20: R116). Safe. -/
  | absentMemory
deriving DecidableEq, Repr

/-- Why the model gives a step no meaning: a part of the architecture is named but not defined
(93_implementation_defined.md, `refuse`). -/
inductive Refusal where
  /-- An instruction whose meaning has not been written. Raised by an arm of exec. Safe. -/
  | notModelled (mnemonic : String)
  /-- PSW.R = 1: the recovery counter is not defined. Raised by step (U6: R51, R585). Safe. -/
  | recoveryCounter
  /-- PSW.Z = 1: single stepping has no trap number. Raised by step (U7: R52, R586). Safe. -/
  | singleStep
  /-- MR names a reserved control register. Raised by MR (U12: R64, R451). Safe. -/
  | reservedControlRegister
  /-- DIAG in privileged mode where the host supplies no DIAG_FN. Raised by DIAG (U8: R480). Safe. -/
  | diagNotSupplied
deriving DecidableEq, Repr

/-- The state after reset for given parameters: R621 for the PSW, R622 for the registers (unspecified there; zero here,
notes/assumptions/3.md), R623 for the hidden state, memory with nothing listed (notes/assumptions/4.md). -/
def State.resetWith (p : Params) : State where
  gr := Vector.replicate 16 0#32
  sr := Vector.replicate 8 0#16
  cr := Vector.replicate 32 0#32
  psw :=
    { m := false, x := 0, c := false, n := false, v := false, cb := false, reserved := 0, r := false, z := false,
      d := false, p := false, e := false, seg := 0, ofs := p.resetOfs }
  reservation := none
  itlb := []
  dtlb := []
  ic := []
  dc := []
  mem := []
  history := []
  io := []
  tick := 0
  params := p

/-- The machine right after reset, with the parameters that R8 suggests. -/
def State.reset : State := State.resetWith Params.default

end Sys2Proof.Machine
end

