-- ==== Sys2Proof/Machine/Memory.lean ====
section
/-!
DEFINITION. Sys2Proof/Machine/Memory.lean: finite maps as lists of key and value pairs in canonical form, and physical
memory as such a map (20_memory.md R101, R115, R116). The TLBs (R140) and the caches (R161) are finite maps too.
-/

namespace Sys2Proof.Machine

/-! ## Finite maps -/

/-- The value a map holds for a key. -/
def mapFind {β : Type} (k : Nat) : List (Nat × β) → Option β
  | [] => none
  | (j, v) :: rest => if j = k then some v else mapFind k rest

/-- The map with the value of one key set; keys stay in rising order. -/
def mapSet {β : Type} (k : Nat) (v : β) : List (Nat × β) → List (Nat × β)
  | [] => [(k, v)]
  | (j, u) :: rest =>
    if k < j then (k, v) :: (j, u) :: rest
    else if k = j then (k, v) :: rest
    else (j, u) :: mapSet k v rest

/-- The map without a key. -/
def mapErase {β : Type} (k : Nat) : List (Nat × β) → List (Nat × β)
  | [] => []
  | (j, u) :: rest => if j = k then mapErase k rest else (j, u) :: mapErase k rest

/-- The canonical form of a map: keys strictly rising, so that equal maps are equal lists. -/
abbrev mapWf {β : Type} (l : List (Nat × β)) : Prop := (l.map Prod.fst).Pairwise (· < ·)

/-! ## Physical memory -/

/-- What a byte of memory that nothing has written reads as (notes/assumptions/4.md). -/
def memDefault : Byte := 0#8

/-- The byte at a physical address (R101: M[p]). -/
def memByte (mem : List Host.Cell) (a : Nat) : Byte := (mapFind a mem).getD memDefault

/-- Memory with one byte written; a byte equal to what an unlisted address reads as is not listed. -/
def memSetByte (mem : List Host.Cell) (a : Nat) (v : Byte) : List Host.Cell :=
  if v = memDefault then mapErase a mem else mapSet a v mem

/-- Memory with a list of bytes written from an address on. -/
def memSetBytes (mem : List Host.Cell) (a : Nat) : List Byte → List Host.Cell
  | [] => mem
  | v :: rest => memSetBytes (memSetByte mem a v) (a + 1) rest

/-- The canonical form of memory: addresses strictly rising, and no entry equal to what an unlisted address reads as. -/
abbrev Memory.wf (mem : List Host.Cell) : Prop := mapWf mem ∧ ∀ c ∈ mem, c.2 ≠ memDefault

/-! ## The physical address map -/

/-- What lies at a physical address. -/
inductive Region where
  /-- Installed memory, or the PDC region, which is treated as memory (R166). -/
  | memory
  /-- I/O modules: an access is an external event (R109). -/
  | io
  /-- Neither memory nor a device (R116, U20). -/
  | absent
deriving DecidableEq, Repr

/-- The region that holds all n bytes from a physical address on (R115, R116, R133). The manual leaves the shape of the memory
at or above 2^32 to the platform; DESIGN CHOICE: one block from 2^32 up to the parameter highMemTop
(notes/assumptions/21.md). -/
def regionOf (p : Params) (a n : Nat) : Region :=
  if a + n ≤ p.memTop ∧ a + n ≤ Config.pdcBase then .memory
  else if Config.pdcBase ≤ a ∧ a + n ≤ Config.ioBase then .memory
  else if Config.ioBase ≤ a ∧ a + n ≤ Config.wordSpace then .io
  else if Config.wordSpace ≤ a ∧ a + n ≤ p.highMemTop ∧ a < 2 ^ p.physAddrBits then .memory
  else .absent

/-! ## Caches -/

/-- The base address of the cache line that holds a physical address (R160). -/
def lineBase (p : Params) (a : Nat) : Nat := a / p.cacheLineBytes * p.cacheLineBytes

/-- The position of a physical address in its cache line (R160). -/
def lineIndex (p : Params) (a : Nat) : Nat := a % p.cacheLineBytes

/-- The bytes that memory holds in a line (R162, R164). -/
def lineFromMem (p : Params) (mem : List Host.Cell) (base : Nat) : List Byte :=
  (List.range p.cacheLineBytes).map fun i => memByte mem (base + i)

/-- The byte at a physical address as a data read sees it: from the data cache if its line is there, otherwise from
memory (R162); with transparent caches always from memory (R161). -/
def State.dataByte (s : State) (a : Nat) : Byte :=
  if s.params.cacheVisible then
    match mapFind (lineBase s.params a) s.dc with
    | some ln => ln.data.getD (lineIndex s.params a) memDefault
    | none => memByte s.mem a
  else memByte s.mem a

/-- The byte at a physical address as an instruction fetch sees it: from the instruction cache if its line is there,
otherwise from memory, never from the data cache (R163). -/
def State.fetchByte (s : State) (a : Nat) : Byte :=
  if s.params.cacheVisible then
    match mapFind (lineBase s.params a) s.ic with
    | some data => data.getD (lineIndex s.params a) memDefault
    | none => memByte s.mem a
  else memByte s.mem a

/-- The line of the data cache that holds a physical address, brought in from memory if it is absent (R162). -/
def State.dataLineFor (s : State) (a : Nat) : DataLine :=
  (mapFind (lineBase s.params a) s.dc).getD
    { data := lineFromMem s.params s.mem (lineBase s.params a), dirty := false }

/-- A data write of one byte: into the data cache, marking the line dirty (R162); with transparent caches into memory
(R161). -/
def State.setDataByte (s : State) (a : Nat) (v : Byte) : State :=
  if s.params.cacheVisible then
    let line : DataLine := { data := (s.dataLineFor a).data.set (lineIndex s.params a) v, dirty := true }
    { s with dc := mapSet (lineBase s.params a) line s.dc }
  else { s with mem := memSetByte s.mem a v }

/-- Write the data cache line of a physical address to memory if it is there and dirty, and mark it clean (R164, R165). -/
def State.writeBackLine (s : State) (a : Nat) : State :=
  match mapFind (lineBase s.params a) s.dc with
  | some ln =>
    if ln.dirty then
      { s with
        mem := memSetBytes s.mem (lineBase s.params a) ln.data
        dc := mapSet (lineBase s.params a) { ln with dirty := false } s.dc }
    else s
  | none => s

/-- Remove the data cache line of a physical address without writing it back (R165). -/
def State.purgeDataLine (s : State) (a : Nat) : State := { s with dc := mapErase (lineBase s.params a) s.dc }

/-- Remove the instruction cache line of a physical address (R165). -/
def State.purgeInstrLine (s : State) (a : Nat) : State := { s with ic := mapErase (lineBase s.params a) s.ic }

/-- One action of the cache hardware (R164). It copies in only absent lines of memory, drops only clean lines and writes
back only dirty ones. -/
def State.cacheAction (s : State) : Config.CacheAction → State
  | .fillInstr a =>
    if regionOf s.params (lineBase s.params a) s.params.cacheLineBytes = .memory ∧
        mapFind (lineBase s.params a) s.ic = none then
      { s with ic := mapSet (lineBase s.params a) (lineFromMem s.params s.mem (lineBase s.params a)) s.ic }
    else s
  | .fillData a =>
    if regionOf s.params (lineBase s.params a) s.params.cacheLineBytes = .memory ∧
        mapFind (lineBase s.params a) s.dc = none then
      let line : DataLine := { data := lineFromMem s.params s.mem (lineBase s.params a), dirty := false }
      { s with dc := mapSet (lineBase s.params a) line s.dc }
    else s
  | .writeBack a => s.writeBackLine a
  | .dropData a =>
    match mapFind (lineBase s.params a) s.dc with
    | some ln => if ln.dirty then s else s.purgeDataLine a
    | none => s
  | .dropInstr a => s.purgeInstrLine a

/-- A sequence of actions of the cache hardware, in order (R164). -/
def State.runCacheActions (s : State) : List Config.CacheAction → State
  | [] => s
  | act :: rest => (s.cacheAction act).runCacheActions rest

end Sys2Proof.Machine
end

