-- ==== Sys2Proof/Machine/Ops.lean ====
section
/-!
DEFINITION. Sys2Proof/Machine/Ops.lean: the named operations over the registers and the processor status word
(10_state.md), taking a trap (60_exceptions.md R551) and returning from one (45_system_control.md R485).
-/

namespace Sys2Proof.Machine

/-- What one step answers. -/
abbrev Result := Host.Outcome State Fault Refusal

/-! ## Registers -/

/-- GR[r]; GR0 reads as zero (R31). -/
def State.readGr (s : State) (r : GReg) : Word := if r = 0#4 then 0#32 else s.gr[r.toNat]

/-- GR[r] <- v; a write to GR0 is discarded (R31). -/
def State.writeGr (s : State) (r : GReg) (v : Word) : State :=
  if r = 0#4 then s else { s with gr := s.gr.set r.toNat v }

/-- SR[n] (R35). -/
def State.readSr (s : State) (n : BitVec 3) : SegId := s.sr[n.toNat]

/-- SR[n] <- v (R35). -/
def State.writeSr (s : State) (n : BitVec 3) (v : SegId) : State := { s with sr := s.sr.set n.toNat v }

/-- The bits a control register holds: five for CR2, 32 for every other (R60, R63). -/
def crValue (n : BitVec 5) (v : Word) : Word := if n = 2#5 then v &&& 0x1F#32 else v

/-- CR[n]; of CR2 the five stored bits, zero-extended (R60, R63). -/
def State.readCr (s : State) (n : BitVec 5) : Word := crValue n s.cr[n.toNat]

/-- CR[n] <- v; CR2 keeps the low five bits (R60, R63). -/
def State.writeCr (s : State) (n : BitVec 5) (v : Word) : State := { s with cr := s.cr.set n.toNat (crValue n v) }

/-- SHAMT, the five bits of CR2 (R63). -/
def State.shamt (s : State) : Nat := (s.readCr 2#5).toNat

/-- The control registers to which the manual gives no behaviour: CR3, CR8 to CR15, CR23 (R64). -/
def reservedCr (n : BitVec 5) : Bool := n == 3#5 || (8#5 ≤ n && n ≤ 15#5) || n == 23#5

/-! ## The processor status word -/

/-- Privileged mode: PSW.X = 0 (R45). -/
def State.privileged (s : State) : Bool := s.psw.x == 0#1

/-- A word with its two low bits cleared, as BV, BE, BVE and RFI clear them (R42). -/
def alignWord (v : Word) : Word := v &&& 0xFFFFFFFC#32

/-- PSW-1 <- v (R42). -/
def State.setOfs (s : State) (v : Word) : State := { s with psw := { s.psw with ofs := v } }

/-- The sequential advance of the instruction address (R43, R44). -/
def State.advance (s : State) : State := s.setOfs (s.psw.ofs + 4#32)

/-- PSW.seg <- v. -/
def State.setSeg (s : State) (v : SegId) : State := { s with psw := { s.psw with seg := v } }

/-- PSW.X <- v. -/
def State.setLevel (s : State) (v : Level) : State := { s with psw := { s.psw with x := v } }

/-- PSW.CB <- v where an instruction writes it, none where it does not (R49). -/
def State.setCarry (s : State) : Option Bool → State
  | some v => { s with psw := { s.psw with cb := v } }
  | none => s

/-- PSW.V <- v (R48). -/
def State.setV (s : State) (v : Bool) : State := { s with psw := { s.psw with v := v } }

/-- PSW.N <- 0 (R47). -/
def State.clearN (s : State) : State := { s with psw := { s.psw with n := false } }

/-- The status bits Z, D, P, E as a 4-bit number with weights 8, 4, 2, 1 (R455). -/
def State.systemMask (s : State) : BitVec 4 := bit s.psw.z ++ bit s.psw.d ++ bit s.psw.p ++ bit s.psw.e

/-- The status bits Z, D, P, E set from a 4-bit number with weights 8, 4, 2, 1 (R455). -/
def State.setSystemMask (s : State) (v : BitVec 4) : State :=
  { s with psw := { s.psw with z := v.getLsbD 3, d := v.getLsbD 2, p := v.getLsbD 1, e := v.getLsbD 0 } }

/-- PSW-0 as a word: M X C N V CB, reserved <6..10>, R Z D P E, seg (R40). -/
def Psw.word0 (p : Psw) : Word :=
  bit p.m ++ p.x ++ bit p.c ++ bit p.n ++ bit p.v ++ bit p.cb ++ p.reserved ++ bit p.r ++ bit p.z ++ bit p.d ++
    bit p.p ++ bit p.e ++ p.seg

/-- The processor status word that RFI makes of two words; it clears the two low bits of the second (R40, R42). -/
def Psw.ofWords (w0 w1 : Word) : Psw where
  m := bitAt w0 31
  x := bits w0 30 1
  c := bitAt w0 29
  n := bitAt w0 28
  v := bitAt w0 27
  cb := bitAt w0 26
  reserved := bits w0 21 5
  r := bitAt w0 20
  z := bitAt w0 19
  d := bitAt w0 18
  p := bitAt w0 17
  e := bitAt w0 16
  seg := bits w0 0 16
  ofs := alignWord w1

/-! ## Traps -/

/-- A trap to be taken: its number and the parameters P0, P1, P2; none where the trap table shows "-" (R541). -/
structure TrapReq where
  num : BitVec 5
  p0 : Option Word
  p1 : Option Word
  p2 : Option Word
deriving DecidableEq, Repr

/-- A trap without parameters. -/
def bareTrap (num : BitVec 5) : TrapReq := { num := num, p0 := none, p1 := none, p2 := none }

/-- A trap whose only parameter is the instruction word. -/
def instrTrap (num : BitVec 5) (w : Word) : TrapReq := { num := num, p0 := some w, p1 := none, p2 := none }

/-- A trap of a data access: the instruction word, the segment identifier, the offset. -/
def dataTrap (num : BitVec 5) (w : Word) (seg : SegId) (ofs : Word) : TrapReq :=
  { num := num, p0 := some w, p1 := some (seg.setWidth 32), p2 := some ofs }

/-- Trap 4, External Interrupt (R580). -/
def externalInterrupt : TrapReq := bareTrap 4#5
/-- Trap 5, Illegal instruction (R561). -/
def illegalInstruction (w : Word) : TrapReq := instrTrap 5#5 w
/-- Trap 6, Privileged operation (R562). -/
def privilegedOperation (w : Word) : TrapReq := instrTrap 6#5 w
/-- Trap 8, Overflow (R564). -/
def overflowTrap (w : Word) : TrapReq := instrTrap 8#5 w
/-- Trap 9, Instruction TLB miss (R565). -/
def instructionTlbMiss : TrapReq := bareTrap 9#5
/-- Trap 10, Non-access instruction TLB miss (R565). -/
def nonAccessInstructionTlbMiss : TrapReq := bareTrap 10#5
/-- Trap 11, Instruction memory protection (R565). -/
def instructionProtection : TrapReq := bareTrap 11#5
/-- Trap 12, Data TLB miss (R568). -/
def dataTlbMiss (w : Word) (seg : SegId) (ofs : Word) : TrapReq := dataTrap 12#5 w seg ofs
/-- Trap 13, Non-access data TLB miss (R568). -/
def nonAccessDataTlbMiss : TrapReq := bareTrap 13#5
/-- Trap 14, Data memory access rights (R568). -/
def accessRightsTrap (w : Word) (seg : SegId) (ofs : Word) : TrapReq := dataTrap 14#5 w seg ofs
/-- Trap 15, Data memory protection (R568). -/
def dataProtectionTrap (w : Word) (seg : SegId) (ofs : Word) : TrapReq := dataTrap 15#5 w seg ofs
/-- Trap 16, Page reference (R566). -/
def pageReferenceTrap (w : Word) (seg : SegId) (ofs : Word) : TrapReq := dataTrap 16#5 w seg ofs
/-- Trap 17, Alignment (R568). -/
def alignmentTrap (w : Word) (seg : SegId) (ofs : Word) : TrapReq := dataTrap 17#5 w seg ofs
/-- Trap 18, Break instruction (R569). -/
def breakTrap (w : Word) (info1 : BitVec 4) (info2 : BitVec 16) : TrapReq :=
  { num := 18#5, p0 := some w, p1 := some (info1.setWidth 32), p2 := some (info2.setWidth 32) }

/-- The value that trap entry writes to an I-PARM register: the parameter, or an unspecified value (R554). -/
def trapParm (p : Option Word) (slot tick : Nat) : Word := p.getD (Config.freeWord slot tick)

/-- PSW-0 after trap entry: every status bit 0, segment 0; PSW-1 at the trap's slot of the vector table, the plain sum
(R551, R552; 93_implementation_defined.md U44; notes/assumptions/5.md). -/
def trapPsw (base : Word) (num : BitVec 5) : Psw := { Psw.ofWords 0#32 0#32 with ofs := base + 32#32 * num.setWidth 32 }

/-- Trap entry (R551). The right-hand sides are those of the state before it. -/
def State.takeTrap (s : State) (t : TrapReq) : State :=
  { ((((s.writeCr 17#5 s.psw.word0).writeCr 18#5 s.psw.ofs).writeCr 19#5 (trapParm t.p0 1 s.tick)).writeCr 20#5
      (trapParm t.p1 2 s.tick)).writeCr 21#5 (trapParm t.p2 3 s.tick) with
    psw := trapPsw (s.readCr 16#5) t.num
    reservation := none }

/-- Raise a trap: the next state is the one trap entry leaves (R550). -/
def State.raise (s : State) (t : TrapReq) : Result := .next (s.takeTrap t)

/-- Return from a trap: PSW-0 and PSW-1 from CR17 and CR18, the reservation ended (R485, R575). -/
def State.returnFromTrap (s : State) : State :=
  { s with psw := Psw.ofWords (s.readCr 17#5) (s.readCr 18#5), reservation := none }

/-! ## Answers of operations that can stop an instruction -/

/-- What an access answers: a value and the state after it, a trap to be raised, or a fault. -/
inductive Access (α : Type) where
  | ok (a : α) (s : State)
  | trap (t : TrapReq)
  | fault (f : Fault)

/-- Go on with an instruction after an access made in state s: a trap is raised in s (R550), a fault stops. -/
def Access.run {α : Type} (x : Access α) (s : State) (k : α → State → Result) : Result :=
  match x with
  | .ok a s' => k a s'
  | .trap t => s.raise t
  | .fault f => .fault f

/-- Run a privileged instruction: in user mode trap 6 and no other effect (R562). -/
def State.ifPrivileged (s : State) (w : Word) (k : Result) : Result :=
  if s.privileged then k else s.raise (privilegedOperation w)

/-- End an instruction whose writes are made: the data-reference trap of a read comes after them (R567). -/
def State.finish (s : State) (late : Option TrapReq) : Result :=
  match late with
  | none => .next s
  | some t => s.raise t

end Sys2Proof.Machine
end

