-- ==== Sys2Proof/Machine/Translate.lean ====
section
/-!
DEFINITION. Sys2Proof/Machine/Translate.lean: addresses, translation look-aside buffers, access rights and protection
identifiers (20_memory.md R125 to R149).
-/

namespace Sys2Proof.Machine

/-! ## Addresses -/

/-- The number of the segment register that an offset selects: 4 plus its two leftmost bits (R127; 00_scope.md R15). -/
def segSelect (ofs : Word) : BitVec 3 := 1#1 ++ bits ofs 30 2

/-- The segment identifier that a segment select field and an offset give (R127). -/
def State.segOf (s : State) (seg : BitVec 2) (ofs : Word) : SegId :=
  if seg = 0#2 then s.readSr (segSelect ofs) else s.readSr (seg.setWidth 3)

/-- The key of a translation: the virtual page number, segment and page, as a number (R132). -/
def vpn (seg : SegId) (ofs : Word) : Nat := (seg ++ bits ofs 14 18).toNat

/-- The physical address of an untranslated access (R130, R131). -/
def absolute (ofs : Word) : PAddr := ofs.setWidth 34

/-- The physical address that a translation gives (R133). -/
def TlbEntry.address (e : TlbEntry) (ofs : Word) : PAddr := e.ppn ++ bits ofs 0 14

/-- Segment 0 maps to physical memory without the TLB (R136). -/
def State.bypassed (s : State) (seg : SegId) : Bool := s.params.seg0Bypass && seg == 0#16

/-! ## Look-up -/

/-- The valid entry of a TLB for a virtual address (R141). -/
def tlbFind (tlb : List (Nat × TlbEntry)) (seg : SegId) (ofs : Word) : Option TlbEntry :=
  match mapFind (vpn seg ofs) tlb with
  | some e => if e.v then some e else none
  | none => none

/-- The page type of its two bits (R145). -/
def PageType.ofBits (b : BitVec 2) : PageType :=
  if b = 0#2 then .readOnly else if b = 1#2 then .readWrite else if b = 2#2 then .execute else .gateway

/-- The entry that an ITLB argument word describes (R465). -/
def TlbEntry.ofArgument (w : Word) : TlbEntry where
  v := true
  t := bitAt w 30
  d := bitAt w 29
  b := bitAt w 28
  p := bitAt w 27
  ptype := PageType.ofBits (bits w 22 2)
  pl1 := bits w 21 1
  pl2 := bits w 20 1
  ppn := bits w 0 20

/-! ## Protection -/

/-- Read access at a privilege level (R146). -/
def TlbEntry.readAllowed (e : TlbEntry) (pl : Level) : Bool := pl ≤ e.pl1

/-- Write access at a privilege level (R146). -/
def TlbEntry.writeAllowed (e : TlbEntry) (pl : Level) : Bool :=
  match e.ptype with
  | .readOnly => false
  | .readWrite => pl ≤ e.pl2
  | .execute => pl == 0#1
  | .gateway => pl == 0#1

/-- Whether a segment identifier is one of the eight protection identifiers, the halves of CR4 to CR7 (R65, R147). -/
def State.pidMatch (s : State) (seg : SegId) : Bool :=
  [4#5, 5#5, 6#5, 7#5].any fun n => bits (s.readCr n) 16 16 == seg || bits (s.readCr n) 0 16 == seg

/-- Whether an access through an entry passes the protection identifier check (R147). -/
def State.pidPasses (s : State) (e : TlbEntry) (seg : SegId) : Bool := !(s.psw.p && e.p) || s.pidMatch seg

end Sys2Proof.Machine
end

