-- ==== Sys2Proof/Machine/Access.lean ====
section
/-!
DEFINITION. Sys2Proof/Machine/Access.lean: the access procedures for data and the instruction fetch (20_memory.md R148 to
R153), and the load-reserved record (40_memory_reference.md R280 to R283).
-/

namespace Sys2Proof.Machine

/-! ## Widths -/

/-- The number of bytes of an access (R105). -/
def Width.bytes : Width → Nat
  | .byte => 1
  | .half => 2
  | .word => 4

/-- The width that a dw field names; 3 is reserved (R203). -/
def widthOf (dw : BitVec 2) : Option Width :=
  if dw = 0#2 then some .byte else if dw = 1#2 then some .half else if dw = 2#2 then some .word else none

/-- An offset is a multiple of the width (R106). -/
def aligned (ofs : Word) (n : Width) : Bool := ofs.toNat % n.bytes == 0

/-- The low bytes of a value, as many as the width has, zero-extended (R105, R265). -/
def truncate (n : Width) (v : Word) : Word :=
  match n with
  | .byte => v &&& 0xFF#32
  | .half => v &&& 0xFFFF#32
  | .word => v

/-! ## Physical accesses -/

/-- The value of the n bytes from an address on, first byte most significant (R101). -/
def bytesValue (f : Nat → Byte) (a : Nat) (n : Width) : Word :=
  match n with
  | .byte => (f a).setWidth 32
  | .half => (f a ++ f (a + 1)).setWidth 32
  | .word => wordOfBytes (f a) (f (a + 1)) (f (a + 2)) (f (a + 3))

/-- The most recently stored value of the n bytes from a physical address on (R101, R162). -/
def State.dataValue (s : State) (a : Nat) (n : Width) : Word := bytesValue s.dataByte a n

/-- The state with the low n bytes of a value at a physical address, most significant byte first (R101). -/
def State.setDataValue (s : State) (a : Nat) (n : Width) (v : Word) : State :=
  match n with
  | .byte => s.setDataByte a (v.extractLsb' 0 8)
  | .half => (s.setDataByte a (v.extractLsb' 8 8)).setDataByte (a + 1) (v.extractLsb' 0 8)
  | .word =>
    (((s.setDataByte a (v.extractLsb' 24 8)).setDataByte (a + 1) (v.extractLsb' 16 8)).setDataByte (a + 2)
      (v.extractLsb' 8 8)).setDataByte (a + 3) (v.extractLsb' 0 8)

/-! ## Two virtual addresses of one physical page

With visible caches, data reached through one virtual address after a store through another virtual address of the same
physical page is any value of the old and the new one (R161; 93_implementation_defined.md U37; notes/assumptions/8.md). A
data access sees the other addresses' stores up to a step number that is a free value. -/

/-- The virtual page of a data access; a segment that is ignored is replaced by zero (R131, R132). -/
def State.pageKey (s : State) (seg : SegId) (ofs : Word) : Nat := vpn (if s.psw.d then seg else 0#16) ofs

/-- The byte at a physical address as an access through a virtual page may see it: `cur`, without the stores made through
other pages at or after a step number, back to the last store through the page itself (U37). The records are newest first. -/
def aliasView (page upTo a : Nat) : List StoreRecord → Byte → Byte
  | [], cur => cur
  | e :: rest, cur =>
    if e.pa = a then
      if e.page = page ∨ e.time < upTo then cur else aliasView page upTo a rest e.old
    else aliasView page upTo a rest cur

/-- The byte at a physical address as a data read through a virtual page sees it (R161, R162, U37). -/
def State.viewByte (s : State) (page a : Nat) : Byte :=
  if s.params.cacheVisible then aliasView page (Config.aliasTime s.tick) a s.history (s.dataByte a) else s.dataByte a

/-- The value of the n bytes from a physical address on as a data read through a virtual page sees it (R101, U37). -/
def State.viewValue (s : State) (page a : Nat) (n : Width) : Word := bytesValue (s.viewByte page) a n

/-- The state with a store of n bytes through a virtual page recorded, if the caches are visible (U37). -/
def State.recordStore (s : State) (page a : Nat) (n : Width) : State :=
  if s.params.cacheVisible then
    { s with
      history := ((List.range n.bytes).map fun k =>
        { pa := a + k, page := page, time := s.tick, old := s.dataByte (a + k) }) ++ s.history }
  else s

/-! ## Accesses to memory and to I/O space -/

/-- The state with an access to I/O space recorded (R109). -/
def State.logIo (s : State) (e : IoEvent) : State := { s with io := e :: s.io }

/-- Two physical addresses lie in one aligned word (R282). -/
def sameWord (a b : Nat) : Bool := a / 4 == b / 4

/-- A write at a physical address ends a reservation on the same aligned word (R281, R282). -/
def State.breakReservation (s : State) (a : Nat) : State :=
  match s.reservation with
  | some r => if sameWord r.toNat a then { s with reservation := none } else s
  | none => s

/-- PhysRead(pa, n) of an access through a virtual page (R152). A read of I/O space is recorded and its value is free (R109;
notes/assumptions/9.md). -/
def State.physRead (s : State) (page : Nat) (pa : PAddr) (n : Width) : Access Word :=
  match regionOf s.params pa.toNat n.bytes with
  | .memory => .ok (s.viewValue page pa.toNat n) s
  | .io => .ok (truncate n (Config.ioRead s.io.length pa.toNat n.bytes)) (s.logIo (.read pa.toNat n))
  | .absent => .fault .absentMemory

/-- PhysWrite(pa, n, v) of an access through a virtual page (R152), which also ends a reservation on the written word
(R281). -/
def State.physWrite (s : State) (page : Nat) (pa : PAddr) (n : Width) (v : Word) : Access Unit :=
  match regionOf s.params pa.toNat n.bytes with
  | .memory => .ok () (((s.recordStore page pa.toNat n).setDataValue pa.toNat n v).breakReservation pa.toNat)
  | .io => .ok () ((s.logIo (.write pa.toNat n (truncate n v))).breakReservation pa.toNat)
  | .absent => .fault .absentMemory

/-- IFetchPhys: the instruction word at a physical address, through the instruction cache (R102, R153, R163). -/
def State.fetchPhys (s : State) (pa : PAddr) : Access Word :=
  match regionOf s.params pa.toNat 4 with
  | .memory =>
    .ok (wordOfBytes (s.fetchByte pa.toNat) (s.fetchByte (pa.toNat + 1)) (s.fetchByte (pa.toNat + 2))
      (s.fetchByte (pa.toNat + 3))) s
  | .io => .ok (Config.ioRead s.io.length pa.toNat 4) (s.logIo (.fetch pa.toNat))
  | .absent => .fault .absentMemory

/-! ## Data accesses through the translation -/

/-- Where a data read goes: its physical address, and the data-reference trap that follows the instruction if the page's
B flag is set (R567). -/
structure ReadPlan where
  pa : PAddr
  late : Option TrapReq
deriving DecidableEq, Repr

/-- Steps 1 to 7 and 9 of MemRead, with `w` the instruction word (R150). -/
def State.readCheck (s : State) (w : Word) (seg : SegId) (ofs : Word) (n : Width) : Except TrapReq ReadPlan :=
  if !aligned ofs n then .error (alignmentTrap w seg ofs)
  else if !s.psw.d || s.bypassed seg then .ok { pa := absolute ofs, late := none }
  else
    match tlbFind s.dtlb seg ofs with
    | none => .error (dataTlbMiss w seg ofs)
    | some e =>
      if !e.readAllowed s.psw.x then .error (accessRightsTrap w seg ofs)
      else if !s.pidPasses e seg then .error (dataProtectionTrap w seg ofs)
      else if e.t then .error (pageReferenceTrap w seg ofs)
      else .ok { pa := e.address ofs, late := if e.b then some (dataTrap s.params.trapB w seg ofs) else none }

/-- Steps 1 to 9 of MemWrite, with `w` the instruction word: the physical address of the write (R151). -/
def State.writeCheck (s : State) (w : Word) (seg : SegId) (ofs : Word) (n : Width) : Except TrapReq PAddr :=
  if !aligned ofs n then .error (alignmentTrap w seg ofs)
  else if !s.psw.d || s.bypassed seg then .ok (absolute ofs)
  else
    match tlbFind s.dtlb seg ofs with
    | none => .error (dataTlbMiss w seg ofs)
    | some e =>
      if !e.writeAllowed s.psw.x then .error (accessRightsTrap w seg ofs)
      else if !s.pidPasses e seg then .error (dataProtectionTrap w seg ofs)
      else if e.t then .error (pageReferenceTrap w seg ofs)
      else if e.d then .error (dataTrap s.params.trapD w seg ofs)
      else if e.b then .error (dataTrap s.params.trapB w seg ofs)
      else .ok (e.address ofs)

/-- What a data read gives: the value, zero-extended, the physical address read, and the trap to take afterwards. -/
structure ReadResult where
  value : Word
  pa : PAddr
  late : Option TrapReq
deriving DecidableEq, Repr

/-- MemRead((seg, ofs), n) for the instruction word `w` (R150). -/
def State.memRead (s : State) (w : Word) (seg : SegId) (ofs : Word) (n : Width) : Access ReadResult :=
  match s.readCheck w seg ofs n with
  | .error t => .trap t
  | .ok plan =>
    match s.physRead (s.pageKey seg ofs) plan.pa n with
    | .ok v s' => .ok { value := v, pa := plan.pa, late := plan.late } s'
    | .trap t => .trap t
    | .fault f => .fault f

/-- MemWrite((seg, ofs), n, v) for the instruction word `w` (R151). -/
def State.memWrite (s : State) (w : Word) (seg : SegId) (ofs : Word) (n : Width) (v : Word) : Access Unit :=
  match s.writeCheck w seg ofs n with
  | .error t => .trap t
  | .ok pa => s.physWrite (s.pageKey seg ofs) pa n v

/-- The data read of LDA: alignment (trap 17 with segment 0), then PhysRead (R152, R275). -/
def State.absRead (s : State) (w ofs : Word) : Access Word :=
  if aligned ofs .word then s.physRead (vpn 0#16 ofs) (absolute ofs) .word else .trap (alignmentTrap w 0#16 ofs)

/-- The data write of STA: alignment (trap 17 with segment 0), then PhysWrite (R152, R276). -/
def State.absWrite (s : State) (w ofs v : Word) : Access Unit :=
  if aligned ofs .word then s.physWrite (vpn 0#16 ofs) (absolute ofs) .word v else .trap (alignmentTrap w 0#16 ofs)

/-! ## Instruction fetch -/

/-- The page type admits execution (R148). -/
def PageType.executable : PageType → Bool
  | .readOnly => false
  | .readWrite => false
  | .execute => true
  | .gateway => true

/-- FetchCheck: the trap that a fetch through an entry raises, if any (R148). -/
def State.fetchCheck (s : State) (e : TlbEntry) : Option TrapReq :=
  if !e.ptype.executable then some instructionProtection
  else if e.pl1 < s.psw.x then some instructionProtection
  else if !s.pidPasses e s.psw.seg then some instructionProtection
  else none

/-- The demotion of the privilege level by a fetch from an execute page (R148). -/
def State.demote (s : State) (e : TlbEntry) : State :=
  if e.ptype = .execute ∧ s.psw.x < e.pl2 then s.setLevel e.pl2 else s

/-- The fetch is not translated: code translation off, or segment 0 bypassing the TLB (R153). -/
def State.fetchUntranslated (s : State) : Bool := !s.psw.c || s.bypassed s.psw.seg

/-- Fetch(): the instruction word at the current instruction address (R153). -/
def State.fetch (s : State) : Access Word :=
  if s.fetchUntranslated then s.fetchPhys (absolute s.psw.ofs)
  else
    match tlbFind s.itlb s.psw.seg s.psw.ofs with
    | none => .trap instructionTlbMiss
    | some e =>
      match s.fetchCheck e with
      | some t => .trap t
      | none => (s.demote e).fetchPhys (e.address s.psw.ofs)

/-! ## Placing an instruction where the next fetch finds it -/

/-- An instruction TLB entry that maps the current code page to the physical page of the same offset and admits the
current privilege level. -/
def State.identityEntry (s : State) : TlbEntry where
  v := true
  t := false
  d := false
  b := false
  p := false
  ptype := .execute
  pl1 := 1
  pl2 := s.psw.x
  ppn := bits s.psw.ofs 14 18 |>.setWidth 20

/-- The physical address the next fetch reads, if its translation succeeds. -/
def State.fetchAddress (s : State) : Option PAddr :=
  if s.fetchUntranslated then some (absolute s.psw.ofs)
  else
    match tlbFind s.itlb s.psw.seg s.psw.ofs with
    | none => none
    | some e => if (s.fetchCheck e).isNone then some (e.address s.psw.ofs) else none

/-- An instruction word stored in memory at a physical address, with no older copy of it in the instruction cache. -/
def State.placeWord (s : State) (pa : PAddr) (w : Word) : State :=
  { s.purgeInstrLine pa.toNat with mem := memSetBytes s.mem pa.toNat (wordBytes w) }

/-- An instruction word stored where the next fetch reads; if that fetch would trap, an identity translation of the
current code page is put into the instruction TLB first (notes/assumptions/10.md). -/
def State.placeFetchWord (s : State) (w : Word) : State :=
  match s.fetchAddress with
  | some pa => s.placeWord pa w
  | none =>
    { s with itlb := mapSet (vpn s.psw.seg s.psw.ofs) s.identityEntry s.itlb }.placeWord (absolute s.psw.ofs) w

end Sys2Proof.Machine
end

