-- ==== Sys2Proof/Machine/Operands.lean ====
section
/-!
DEFINITION. Sys2Proof/Machine/Operands.lean: the address and operand forms of the instructions: displacements and base
modification (40_memory_reference.md R261, R262), the operand field (43_computational_operand.md R371), branch
displacements (42_branch.md R322).
-/

namespace Sys2Proof.Machine

/-! ## Sign extension -/

/-- sext_n(v) (00_scope.md R14). -/
def sext {n : Nat} (v : BitVec n) : Word := v.signExtend 32

/-- zext_n(v) (00_scope.md R14). -/
def zext {n : Nat} (v : BitVec n) : Word := v.setWidth 32

/-- The displacement in bytes of a branch offset field, which counts words: sext(ofs ++ 00) (R322). -/
def branchDisp {n : Nat} (ofs : BitVec n) : Word := sext (ofs ++ 0#2)

/-! ## Addresses of memory references -/

/-- The displacement d of a memory reference (R261). -/
def State.displacement (s : State) : Disp → Word
  | .ofs o => sext o
  | .index a => s.readGr a

/-- upd, base plus displacement (R261). -/
def State.updatedBase (s : State) (b : GReg) (d : Word) : Word := s.readGr b + d

/-- ea, the offset of the access: the old base if the base is modified by a displacement that is not negative, otherwise
base plus displacement (R261). -/
def State.effectiveAddress (s : State) (m : Bool) (b : GReg) (d : Word) : Word :=
  if m && !d.msb then s.readGr b else s.updatedBase b d

/-- GR[b] <- upd if the base is modified (R262). -/
def State.modifyBase (s : State) (m : Bool) (b : GReg) (upd : Word) : State := if m then s.writeGr b upd else s

/-! ## The operand field -/

/-- The dw field of an operand in memory is the reserved value 3, which traps (R371). -/
def operandReserved : Operand → Bool
  | .imm _ => false
  | .reg _ _ => false
  | .indexed dw _ _ => dw == 3#2
  | .offset dw _ _ => dw == 3#2

/-- The pair of inputs of an operand-format instruction, and the trap a data read leaves for afterwards (R371, R567). -/
structure Inputs where
  a : Word
  b : Word
  late : Option TrapReq
deriving DecidableEq, Repr

/-- A memory operand at an offset, in the segment the offset selects (R371). -/
def State.memOperand (s : State) (w : Word) (r : GReg) (dw : BitVec 2) (ofs : Word) : Access Inputs :=
  match widthOf dw with
  | none => .trap (illegalInstruction w)
  | some n =>
    match s.memRead w (s.segOf 0#2 ofs) ofs n with
    | .ok q s' => .ok { a := s.readGr r, b := q.value, late := q.late } s'
    | .trap t => .trap t
    | .fault f => .fault f

/-- Operand(instr) for the instruction word `w` with target r (R371). -/
def State.operand (s : State) (w : Word) (r : GReg) : Operand → Access Inputs
  | .imm val => .ok { a := s.readGr r, b := sext val, late := none } s
  | .reg a b => .ok { a := s.readGr a, b := s.readGr b, late := none } s
  | .indexed dw a b => s.memOperand w r dw (s.readGr b + s.readGr a)
  | .offset dw ofs b => s.memOperand w r dw (s.readGr b + sext ofs)

/-! ## Conditions -/

/-- A condition of CMP and CBR on two words, compared as signed numbers (R345, R385). -/
def condSigned (c : Cond) (x y : Word) : Bool :=
  match c with
  | .eq => x == y
  | .lt => x.toInt < y.toInt
  | .ne => x != y
  | .le => x.toInt ≤ y.toInt

/-- A condition of CMPU and CBRU on two words, compared as unsigned numbers (R346, R386). -/
def condUnsigned (c : Cond) (x y : Word) : Bool :=
  match c with
  | .eq => x == y
  | .lt => x.toNat < y.toNat
  | .ne => x != y
  | .le => x.toNat ≤ y.toNat

/-- The test of CMR on GR[b] for the conditions 0 to 7; none for a condition that is not defined (R435). -/
def cmrTest (cond : BitVec 4) (v : Word) : Option Bool :=
  match cond with
  | 0#4 => some (v == 0#32)
  | 1#4 => some (v.toInt < 0)
  | 2#4 => some (0 < v.toInt)
  | 3#4 => some (!v.getLsbD 0)
  | 4#4 => some (v != 0#32)
  | 5#4 => some (v.toInt ≤ 0)
  | 6#4 => some (0 ≤ v.toInt)
  | 7#4 => some (v.getLsbD 0)
  | _ => none

/-- One or zero, as a compare writes it (R385). -/
def ofTest (c : Bool) : Word := if c then 1#32 else 0#32

/-! ## Bit fields -/

/-- The position of the rightmost bit of a field, from the SHAMT register with the A option (R415). -/
def State.fieldPos (s : State) (useShamt : Bool) (pos : BitVec 5) : Nat := if useShamt then s.shamt else pos.toNat

/-- A field of EXTR and DEP lies in the word: it is not empty and does not extend beyond the leftmost bit (R412, R413). -/
def fieldInWord (pos : Nat) (len : BitVec 5) : Bool := len != 0#5 && decide (len.toNat ≤ pos + 1)

/-- A word with its `len` rightmost bits set. -/
def fieldMask (len : Nat) : Word := (1#32 <<< len) - 1#32

/-- The field of `len` bits whose rightmost bit is the manual's bit `pos`, right-justified and zero-extended (R412). -/
def extractField (v : Word) (pos len : Nat) : Word := (v >>> (31 - pos)) &&& fieldMask len

/-- The `len` rightmost bits of a word as a signed number (R415). -/
def signExtendField (v : Word) (len : Nat) : Word := (v <<< (32 - len)).sshiftRight (32 - len)

/-- `old` with the field of `len` bits whose rightmost bit is the manual's bit `pos` replaced by the rightmost bits of
`src` (R420). -/
def depositField (old src : Word) (pos len : Nat) : Word :=
  (old &&& ~~~(fieldMask len <<< (31 - pos))) ||| ((src &&& fieldMask len) <<< (31 - pos))

/-- The source of DEP: a register, or the sign-extended 4-bit immediate (R420). -/
def State.depSource (s : State) : DepSrc → Word
  | .reg b => s.readGr b
  | .imm v => sext v

/-- The lower word of two concatenated words shifted right (R425). -/
def doubleShiftRight (hi lo : Word) (sh : Nat) : Word := ((hi ++ lo) >>> sh).setWidth 32

end Sys2Proof.Machine
end

