-- ==== Sys2Proof/Machine/Flags.lean ====
section
/-!
DEFINITION. Sys2Proof/Machine/Flags.lean: results, carry, borrow and overflow of the arithmetic instructions
(43_computational_operand.md R373 to R378; 44_computational_register.md R430).
-/

namespace Sys2Proof.Machine

/-- What an arithmetic instruction computes: the result modulo 2^32, whether the exact result overflows, and the new
PSW.CB where the instruction writes it. -/
structure AluResult where
  res : Word
  overflow : Bool
  carry : Option Bool
deriving DecidableEq, Repr

/-- A bit as a natural number. -/
def bitNat (c : Bool) : Nat := if c then 1 else 0

/-- An exact result that 32 bits cannot represent, signed or (L = 1) unsigned (R373). -/
def unrepresentable (l : Bool) (x : Int) : Bool :=
  if l then decide (x < 0 ∨ 2 ^ 32 ≤ x) else decide (x < -(2 ^ 31) ∨ 2 ^ 31 ≤ x)

/-- The value of a word, signed or (L = 1) unsigned (R373). -/
def valueOf (l : Bool) (v : Word) : Int := if l then (v.toNat : Int) else v.toInt

/-- a + b + cin: the carry is that of the unsigned sum, and is written only with L = 0 (R373, R374). -/
def addAlu (l cin : Bool) (a b : Word) : AluResult where
  res := BitVec.ofNat 32 (a.toNat + b.toNat + bitNat cin)
  overflow := unrepresentable l (valueOf l a + valueOf l b + bitNat cin)
  carry := if l then none else some (decide (2 ^ 32 ≤ a.toNat + b.toNat + bitNat cin))

/-- a - b - bin: the borrow is that of the unsigned difference, and is always written (R373, R374). -/
def subAlu (l bin : Bool) (a b : Word) : AluResult where
  res := BitVec.ofInt 32 ((a.toNat : Int) - b.toNat - bitNat bin)
  overflow := unrepresentable l (valueOf l a - valueOf l b - bitNat bin)
  carry := some (decide (a.toNat < b.toNat + bitNat bin))

/-- a * 2^sa + b: it overflows if the shifted value or the sum does; no carry (R430). -/
def shlaAlu (l : Bool) (sa : BitVec 2) (a b : Word) : AluResult where
  res := (a <<< sa.toNat) + b
  overflow := unrepresentable l (valueOf l a * 2 ^ sa.toNat) || unrepresentable l (valueOf l a * 2 ^ sa.toNat + valueOf l b)
  carry := none

/-- Write back an arithmetic result in state s: overflow traps with O = 1 and suppresses every write, otherwise GR[r] and
PSW.CB are written and the instruction ends (R372, R567). -/
def State.writeAlu (s : State) (w : Word) (r : GReg) (o : Bool) (q : AluResult) (late : Option TrapReq) : Result :=
  if o && q.overflow then s.raise (overflowTrap w)
  else (((s.writeGr r q.res).setCarry q.carry).advance).finish late

/-- An arithmetic instruction of the operand format (R372). -/
def State.runAlu (s : State) (w : Word) (r : GReg) (o : Bool) (opd : Operand) (f : Word → Word → AluResult) : Result :=
  (s.operand w r opd).run s fun q s' => s'.writeAlu w r o (f q.a q.b) q.late

/-- A logical or compare instruction of the operand format (R372, R380, R385). -/
def State.runLogic (s : State) (w : Word) (r : GReg) (opd : Operand) (f : Word → Word → Word) : Result :=
  (s.operand w r opd).run s fun q s' => ((s'.writeGr r (f q.a q.b)).advance).finish q.late

/-- The second input complemented with the C option (R380). -/
def complementIf (c : Bool) (v : Word) : Word := if c then ~~~v else v

end Sys2Proof.Machine
end

