-- ==== Sys2Proof/Machine/Branch.lean ====
section
/-!
DEFINITION. Sys2Proof/Machine/Branch.lean: B, GATE, BR, BV, BE, BVE, CBR, CBRU (42_branch.md).
-/

namespace Sys2Proof.Machine

/-- The return link, the offset of the instruction after the branch (R321). -/
def State.link (s : State) : Word := s.psw.ofs + 4#32

/-- The end of an external branch: SR0, link, segment and offset are written together; the two low bits of the
target are cleared (R335, R338, R42). -/
def State.external (s : State) (r : GReg) (seg : SegId) (target : Word) : State :=
  ((((s.writeSr 0#3 s.psw.seg).writeGr r s.link).setSeg seg).setOfs (alignWord target))

/-- B: branch relative, with link (R340). -/
def execB (r : GReg) (ofs : BitVec 22) (s : State) : Result :=
  .next ((s.writeGr r s.link).setOfs (s.psw.ofs + branchDisp ofs))

/-- The effect of GATE on PSW.X and GR[r] through the instruction TLB entry of its page (R341). -/
def State.gateThrough (s : State) (r : GReg) (e : TlbEntry) : State :=
  (if e.ptype = .gateway ∧ e.pl2 < s.psw.x then s.setLevel e.pl2 else s).writeGr r (zext e.pl1)

/-- GATE: branch and promote the privilege level (R341). Where the fetch was not translated the level becomes
privileged and GR[r] is free (D22, U14; notes/assumptions/1.md and, for a bypassed segment, 12.md). A translated GATE without
an entry cannot have been fetched (notes/assumptions/12.md). -/
def execGate (r : GReg) (ofs : BitVec 22) (s : State) : Result :=
  let target := s.psw.ofs + branchDisp ofs
  if s.fetchUntranslated then .next (((s.setLevel 0#1).writeGr r (Config.freeWord 0 s.tick)).setOfs target)
  else
    match tlbFind s.itlb s.psw.seg s.psw.ofs with
    | none => s.raise instructionTlbMiss
    | some e => .next ((s.gateThrough r e).setOfs target)

/-- BR: branch relative by a register that counts instructions, with link (R342). -/
def execBr (r b : GReg) (s : State) : Result :=
  .next ((s.writeGr r s.link).setOfs (s.psw.ofs + (s.readGr b <<< 2)))

/-- BV: branch to an offset in the current segment, its two low bits cleared, with link (R343, R42). -/
def execBv (r b : GReg) (s : State) : Result := .next ((s.writeGr r s.link).setOfs (alignWord (s.readGr b)))

/-- BE: branch to an offset in the segment of SR[a], with link (R335). With code translation off `a` is ignored; with it
on, 8 to 15 name no segment register (R244). -/
def execBe (r : GReg) (ofs : BitVec 14) (a : BitVec 4) (b : GReg) (s : State) : Result :=
  let target := s.readGr b + branchDisp ofs
  if !s.psw.c then .next (s.external r s.psw.seg target)
  else if 8#4 ≤ a then .fault .reservedEncoding
  else .next (s.external r (s.readSr (a.setWidth 3)) target)

/-- BVE: branch to a logical address, with link (R338). -/
def execBve (r a b : GReg) (s : State) : Result :=
  let sum := s.readGr b + s.readGr a
  .next (s.external r (if s.psw.c then s.readSr (segSelect sum) else s.psw.seg) sum)

/-- CBR: compare signed and branch (R345). -/
def execCbr (cond : Cond) (ofs : BitVec 16) (a b : GReg) (s : State) : Result :=
  if condSigned cond (s.readGr a) (s.readGr b) then .next (s.setOfs (s.psw.ofs + branchDisp ofs)) else .next s.advance

/-- CBRU: compare unsigned and branch (R346). -/
def execCbru (cond : Cond) (ofs : BitVec 16) (a b : GReg) (s : State) : Result :=
  if condUnsigned cond (s.readGr a) (s.readGr b) then .next (s.setOfs (s.psw.ofs + branchDisp ofs)) else .next s.advance

end Sys2Proof.Machine
end

