-- ==== Sys2Proof/Machine/Immediate.lean ====
section
/-!
DEFINITION. Sys2Proof/Machine/Immediate.lean: LDIL, ADDIL, LDO (41_immediate.md).
-/

namespace Sys2Proof.Machine

/-- LDIL: the 22-bit value in the left part of GR[r] (R301). -/
def execLdil (r : GReg) (val : BitVec 22) (s : State) : Result := .next (s.writeGr r (val ++ 0#10)).advance

/-- ADDIL: GR[r] plus the 22-bit value in the left part, into GR1 (R302). -/
def execAddil (r : GReg) (val : BitVec 22) (s : State) : Result :=
  .next (s.writeGr 1#4 (s.readGr r + (val ++ 0#10))).advance

/-- LDO: base plus 18-bit offset, memory not referenced (R303). -/
def execLdo (r : GReg) (ofs : BitVec 18) (b : GReg) (s : State) : Result :=
  .next (s.writeGr r (s.readGr b + sext ofs)).advance

end Sys2Proof.Machine
end

