-- ==== Sys2Proof/Machine/MemRef.lean ====
section
/-!
DEFINITION. Sys2Proof/Machine/MemRef.lean: LD, ST, LDA, STA, LDR, STC (40_memory_reference.md).
-/

namespace Sys2Proof.Machine

/-- LD: load from a logical address (R270). -/
def execLd (r : GReg) (m : Bool) (seg dw : BitVec 2) (disp : Disp) (b : GReg) (s : State) : Result :=
  match widthOf dw with
  | none => s.raise (illegalInstruction (encode (.ld r m seg dw disp b)))
  | some n =>
    let d := s.displacement disp
    let ea := s.effectiveAddress m b d
    (s.memRead (encode (.ld r m seg dw disp b)) (s.segOf seg ea) ea n).run s fun q s' =>
      (((s'.modifyBase m b (s.updatedBase b d)).writeGr r q.value).advance).finish q.late

/-- ST: store to a logical address (R272). -/
def execSt (r : GReg) (m : Bool) (seg dw : BitVec 2) (disp : Disp) (b : GReg) (s : State) : Result :=
  match widthOf dw with
  | none => s.raise (illegalInstruction (encode (.st r m seg dw disp b)))
  | some n =>
    let d := s.displacement disp
    let ea := s.effectiveAddress m b d
    (s.memWrite (encode (.st r m seg dw disp b)) (s.segOf seg ea) ea n (s.readGr r)).run s fun _ s' =>
      .next (s'.modifyBase m b (s.updatedBase b d)).advance

/-- LDA: load a word from a physical address (R275). -/
def execLda (r : GReg) (m : Bool) (disp : Disp) (b : GReg) (s : State) : Result :=
  s.ifPrivileged (encode (.lda r m disp b)) <|
    let d := s.displacement disp
    (s.absRead (encode (.lda r m disp b)) (s.effectiveAddress m b d)).run s fun v s' =>
      .next ((s'.modifyBase m b (s.updatedBase b d)).writeGr r v).advance

/-- STA: store a word to a physical address (R276). -/
def execSta (r : GReg) (m : Bool) (disp : Disp) (b : GReg) (s : State) : Result :=
  s.ifPrivileged (encode (.sta r m disp b)) <|
    let d := s.displacement disp
    (s.absWrite (encode (.sta r m disp b)) (s.effectiveAddress m b d) (s.readGr r)).run s fun _ s' =>
      .next (s'.modifyBase m b (s.updatedBase b d)).advance

/-- LDR: load a word and reserve its address (R280). -/
def execLdr (r : GReg) (seg : BitVec 2) (ofs : BitVec 12) (b : GReg) (s : State) : Result :=
  let ea := s.readGr b + sext ofs
  (s.memRead (encode (.ldr r seg ofs b)) (s.segOf seg ea) ea .word).run s fun q s' =>
    (({ s'.writeGr r q.value with reservation := some q.pa } : State).advance).finish q.late

/-- STC: store a word if the reservation still holds; all checks are made first (R285). -/
def execStc (r : GReg) (seg : BitVec 2) (ofs : BitVec 12) (b : GReg) (s : State) : Result :=
  let ea := s.readGr b + sext ofs
  match s.writeCheck (encode (.stc r seg ofs b)) (s.segOf seg ea) ea .word with
  | .error t => s.raise t
  | .ok pa =>
    if s.reservation = some pa then
      (s.physWrite (s.pageKey (s.segOf seg ea) ea) pa .word (s.readGr r)).run s fun _ s' =>
        .next ({ s'.writeGr r 0#32 with reservation := none } : State).advance
    else .next ({ s.writeGr r 1#32 with reservation := none } : State).advance

end Sys2Proof.Machine
end

