-- ==== Sys2Proof/Machine/OperandFormat.lean ====
section
/-!
DEFINITION. Sys2Proof/Machine/OperandFormat.lean: ADD, ADC, SUB, SBC, AND, OR, XOR, CMP, CMPU
(43_computational_operand.md).
-/

namespace Sys2Proof.Machine

/-- ADD (R375). -/
def execAdd (r : GReg) (l o : Bool) (opd : Operand) (s : State) : Result :=
  s.runAlu (encode (.add r l o opd)) r o opd (addAlu l false)

/-- ADC (R376). -/
def execAdc (r : GReg) (l o : Bool) (opd : Operand) (s : State) : Result :=
  s.runAlu (encode (.adc r l o opd)) r o opd (addAlu l s.psw.cb)

/-- SUB (R377). -/
def execSub (r : GReg) (l o : Bool) (opd : Operand) (s : State) : Result :=
  s.runAlu (encode (.sub r l o opd)) r o opd (subAlu l false)

/-- SBC (R378). -/
def execSbc (r : GReg) (l o : Bool) (opd : Operand) (s : State) : Result :=
  s.runAlu (encode (.sbc r l o opd)) r o opd (subAlu l s.psw.cb)

/-- AND, NAND with N, operand complemented with C; N and C together are undefined, after the check of dw
(R380, R243, R246). -/
def execAnd (r : GReg) (n c : Bool) (opd : Operand) (s : State) : Result :=
  if operandReserved opd then s.raise (illegalInstruction (encode (.and r n c opd)))
  else if n && c then .fault .undefinedOperation
  else s.runLogic (encode (.and r n c opd)) r opd fun a b => complementIf n (a &&& complementIf c b)

/-- OR, NOR with N, operand complemented with C; N and C together are undefined, after the check of dw
(R381, R243, R246). -/
def execOr (r : GReg) (n c : Bool) (opd : Operand) (s : State) : Result :=
  if operandReserved opd then s.raise (illegalInstruction (encode (.or r n c opd)))
  else if n && c then .fault .undefinedOperation
  else s.runLogic (encode (.or r n c opd)) r opd fun a b => complementIf n (a ||| complementIf c b)

/-- XOR, XNOR with N (R382). -/
def execXor (r : GReg) (n : Bool) (opd : Operand) (s : State) : Result :=
  s.runLogic (encode (.xor r n opd)) r opd fun a b => complementIf n (a ^^^ b)

/-- CMP (R385). -/
def execCmp (r : GReg) (cond : Cond) (opd : Operand) (s : State) : Result :=
  s.runLogic (encode (.cmp r cond opd)) r opd fun a b => ofTest (condSigned cond a b)

/-- CMPU (R386). -/
def execCmpu (r : GReg) (cond : Cond) (opd : Operand) (s : State) : Result :=
  s.runLogic (encode (.cmpu r cond opd)) r opd fun a b => ofTest (condUnsigned cond a b)

end Sys2Proof.Machine
end

