-- ==== Sys2Proof/Machine/RegisterFormat.lean ====
section
/-!
DEFINITION. Sys2Proof/Machine/RegisterFormat.lean: LSID, EXTR, DEP, DSR, SHLA, CMR, DS (44_computational_register.md).
-/

namespace Sys2Proof.Machine

/-- LSID: the segment identifier of a logical address (R411). -/
def execLsid (r b : GReg) (s : State) : Result :=
  .next (s.writeGr r (zext (s.readSr (segSelect (s.readGr b))))).advance

/-- EXTR: extract a bit field (R415); a field not in the word is undefined (R413). -/
def execExtr (r : GReg) (sx useShamt : Bool) (len pos : BitVec 5) (b : GReg) (s : State) : Result :=
  let p := s.fieldPos useShamt pos
  let field := extractField (s.readGr b) p len.toNat
  if fieldInWord p len then
    .next (s.writeGr r (if sx then signExtendField field len.toNat else field)).advance
  else .fault .undefinedOperation

/-- DEP: deposit a bit field (R420); a field not in the word is undefined (R413). -/
def execDep (r : GReg) (z useShamt : Bool) (len pos : BitVec 5) (src : DepSrc) (s : State) : Result :=
  let p := s.fieldPos useShamt pos
  let old := if z then 0#32 else s.readGr r
  if fieldInWord p len then .next (s.writeGr r (depositField old (s.depSource src) p len.toNat)).advance
  else .fault .undefinedOperation

/-- DSR: double shift right (R425). -/
def execDsr (r : GReg) (useShamt : Bool) (shamt : BitVec 5) (a b : GReg) (s : State) : Result :=
  let sh := if useShamt then s.shamt else shamt.toNat
  .next (s.writeGr r (doubleShiftRight (s.readGr b) (s.readGr a) sh)).advance

/-- SHLA: shift left and add (R430). -/
def execShla (r : GReg) (l o : Bool) (sa : BitVec 2) (a b : GReg) (s : State) : Result :=
  s.writeAlu (encode (.shla r l o sa a b)) r o (shlaAlu l sa (s.readGr a) (s.readGr b)) none

/-- CMR: conditional move (R435). -/
def execCmr (r : GReg) (cond : BitVec 4) (a b : GReg) (s : State) : Result :=
  match cmrTest cond (s.readGr b) with
  | none => s.raise (illegalInstruction (encode (.cmr r cond a b)))
  | some true => .next (s.writeGr r (s.readGr a)).advance
  | some false => .next s.advance

/-- DS: the divide step, of which the manual fixes only what it writes; the three values are free (R440, U9;
notes/assumptions/1.md, 20.md). The inputs a and b are read by the hardware but enter no specified value. -/
def execDs (r _a _b : GReg) (s : State) : Result :=
  .next (((s.writeGr r (Config.freeWord 0 s.tick)).setCarry (some (Config.freeBit 0 s.tick))).setV
    (Config.freeBit 1 s.tick)).advance

end Sys2Proof.Machine
end

