-- ==== Sys2Proof/Machine/System.lean ====
section
/-!
DEFINITION. Sys2Proof/Machine/System.lean: BRK, MR, MST, LDPA, PRB, ITLB, PTLB, PCA, DIAG, RFI (45_system_control.md).
-/

namespace Sys2Proof.Machine

/-- BRK: break; with both info fields zero no operation (R490). -/
def execBrk (info1 : BitVec 4) (info2 : BitVec 16) (s : State) : Result :=
  if info1 = 0#4 ∧ info2 = 0#16 then .next s.advance
  else s.raise (breakTrap (encode (.brk info1 info2)) info1 info2)

/-- The write of a segment or control register is privileged (R452). -/
def Params.privilegedRegister (p : Params) : SysReg → Bool
  | .sr n => p.privSr.getLsbD n.toNat
  | .cr n => p.privCr.getLsbD n.toNat

/-- The value MR reads (R451). -/
def State.readSys (s : State) : SysReg → Word
  | .sr n => zext (s.readSr n)
  | .cr n => s.readCr n

/-- The register MR writes (R451, R37). -/
def State.writeSys (s : State) (reg : SysReg) (v : Word) : State :=
  match reg with
  | .sr n => s.writeSr n (bits v 0 16)
  | .cr n => s.writeCr n v

/-- MR names a control register that the manual only reserves (U12). -/
def namesReserved : SysReg → Bool
  | .sr _ => false
  | .cr n => reservedCr n

/-- MR: move to or from a segment or control register (R451). -/
def execMr (r : GReg) (d : Bool) (reg : SysReg) (s : State) : Result :=
  if namesReserved reg then .refused .reservedControlRegister
  else if !d then .next (s.writeGr r (s.readSys reg)).advance
  else if !s.privileged && s.params.privilegedRegister reg then s.raise (privilegedOperation (encode (.mr r d reg)))
  else .next (s.writeSys reg (s.readGr r)).advance

/-- MST with new values of Z, D, P, E: GR[r] receives the old ones (R455). -/
def State.moveToStatus (s : State) (r : GReg) (v : BitVec 4) : State :=
  ((s.setSystemMask v).writeGr r (zext s.systemMask)).advance

/-- MST: move to status; the undefined mode traps before the privilege test (R455, R570). -/
def execMst (r : GReg) (arg : MstArg) (s : State) : Result :=
  match arg with
  | .undefined k => s.raise (illegalInstruction (encode (.mst r (.undefined k))))
  | .reg b => s.ifPrivileged (encode (.mst r (.reg b))) (.next (s.moveToStatus r (bits (s.readGr b) 0 4)))
  | .set k => s.ifPrivileged (encode (.mst r (.set k))) (.next (s.moveToStatus r (s.systemMask ||| k)))
  | .clear k => s.ifPrivileged (encode (.mst r (.clear k))) (.next (s.moveToStatus r (s.systemMask &&& ~~~k)))

/-- LDPA: load physical address (R460). -/
def execLdpa (r : GReg) (seg : BitVec 2) (a b : GReg) (s : State) : Result :=
  s.ifPrivileged (encode (.ldpa r seg a b)) <|
    let ofs := s.readGr b + s.readGr a
    let sid := s.segOf seg ofs
    if !s.psw.d || s.bypassed sid then .next (s.writeGr r ofs).advance
    else
      match tlbFind s.dtlb sid ofs with
      | none => s.raise nonAccessDataTlbMiss
      | some e => .next (s.writeGr r ((e.address ofs).setWidth 32)).advance

/-- The answer of PRB through a data TLB entry (R462). -/
def State.probe (s : State) (e : TlbEntry) (w : Bool) (pl : Level) (sid : SegId) : Bool :=
  (if w then e.writeAllowed pl else e.readAllowed pl) && s.pidPasses e sid

/-- PRB: probe access (R462). -/
def execPrb (r : GReg) (w i : Bool) (seg : BitVec 2) (a b : GReg) (s : State) : Result :=
  let ofs := s.readGr b
  let sid := s.segOf seg ofs
  let pl : Level := if i then a.setWidth 1 else bits (s.readGr a) 0 1
  if s.bypassed sid then .next (s.writeGr r 1#32).advance
  else
    match tlbFind s.dtlb sid ofs with
    | none => s.raise nonAccessDataTlbMiss
    | some e => .next (s.writeGr r (ofTest (s.probe e w pl sid))).advance

/-- ITLB: insert a translation (R466). -/
def execItlb (r : GReg) (t : Bool) (a : BitVec 3) (b : GReg) (s : State) : Result :=
  s.ifPrivileged (encode (.itlb r t a b)) <|
    let key := vpn (s.readSr a) (s.readGr b)
    let e := TlbEntry.ofArgument (s.readGr r)
    if t then .next ({ s with dtlb := mapSet key e s.dtlb } : State).advance
    else .next ({ s with itlb := mapSet key e s.itlb } : State).advance

/-- PTLB: purge a translation (R470). -/
def execPtlb (t m : Bool) (seg : BitVec 2) (a b : GReg) (s : State) : Result :=
  s.ifPrivileged (encode (.ptlb t m seg a b)) <|
    let d := s.readGr a
    let ofs := s.effectiveAddress m b d
    let key := vpn (s.segOf seg ofs) ofs
    let purged : State :=
      if t then { s with dtlb := mapErase key s.dtlb } else { s with itlb := mapErase key s.itlb }
    .next (purged.modifyBase m b (s.updatedBase b d)).advance

/-- PCA on a physical address: the data cache line is written back first if F is set, then removed; the instruction cache
line is removed (R165, R474). With transparent caches nothing happens (R161). -/
def State.purgeCache (s : State) (t f : Bool) (pa : Nat) : State :=
  if !s.params.cacheVisible then s
  else if !t then s.purgeInstrLine pa
  else if f then (s.writeBackLine pa).purgeDataLine pa
  else s.purgeDataLine pa

/-- The physical address PCA acts on, through the TLB of the cache addressed, or the non-access trap (R474). -/
def State.cacheAddress (s : State) (t : Bool) (sid : SegId) (ofs : Word) : Except TrapReq PAddr :=
  if !(if t then s.psw.d else s.psw.c) || s.bypassed sid then .ok (absolute ofs)
  else
    match tlbFind (if t then s.dtlb else s.itlb) sid ofs with
    | none => .error (if t then nonAccessDataTlbMiss else nonAccessInstructionTlbMiss)
    | some e => .ok (e.address ofs)

/-- PCA: purge and flush a cache line (R474). -/
def execPca (t m : Bool) (seg : BitVec 2) (f : Bool) (a b : GReg) (s : State) : Result :=
  s.ifPrivileged (encode (.pca t m seg f a b)) <|
    let d := s.readGr a
    let ofs := s.effectiveAddress m b d
    match s.cacheAddress t (s.segOf seg ofs) ofs with
    | .error q => s.raise q
    | .ok pa => .next ((s.purgeCache t f pa.toNat).modifyBase m b (s.updatedBase b d)).advance

/-- The state with a byte written to memory at a physical address, which ends a reservation on its word; an address outside
memory is not written (R162, R281). -/
def State.diagStore (s : State) (pa : Nat) (v : Byte) : State :=
  if regionOf s.params pa 1 = .memory then (s.setDataByte pa v).breakReservation pa else s

/-- One effect of a DIAG command besides its result (R480; notes/assumptions/11.md). DESIGN CHOICE, which R281 and R480 leave
open: a write of memory ends a reservation on its word, a write to a device keeps it, and `endReservation` ends one. -/
def State.diagEffect (s : State) : Config.DiagEffect → State
  | .gr r v => s.writeGr r v
  | .sr n v => s.writeSr n v
  | .cr n v => s.writeCr n v
  | .status v => { s with psw := { Psw.ofWords (v ++ s.psw.seg) 0#32 with ofs := s.psw.ofs } }
  | .mem pa v => s.diagStore pa v
  | .insertTlb true seg ofs arg => { s with dtlb := mapSet (vpn seg ofs) (TlbEntry.ofArgument arg) s.dtlb }
  | .insertTlb false seg ofs arg => { s with itlb := mapSet (vpn seg ofs) (TlbEntry.ofArgument arg) s.itlb }
  | .purgeTlb true seg ofs => { s with dtlb := mapErase (vpn seg ofs) s.dtlb }
  | .purgeTlb false seg ofs => { s with itlb := mapErase (vpn seg ofs) s.itlb }
  | .cache act => if s.params.cacheVisible then s.cacheAction act else s
  | .purgeData pa => s.purgeCache true false pa
  | .endReservation => { s with reservation := none }
  | .device pa v => s.logIo (.write pa .word v)

/-- A DIAG command's effects, in order (R480). -/
def State.diagEffects (s : State) : List Config.DiagEffect → State
  | [] => s
  | e :: rest => (s.diagEffect e).diagEffects rest

/-- DIAG: in privileged mode the host's DIAG_FN of the command and both arguments, if the host supplies one: its effects are
made, then its result is written to GR[r] (R480; notes/assumptions/11.md). -/
def execDiag (r : GReg) (info : BitVec 4) (a b : GReg) (s : State) : Result :=
  s.ifPrivileged (encode (.diag r info a b)) <|
    if s.params.diagSupplied then
      let f := Config.diagFn info (s.readGr a) (s.readGr b)
      .next ((s.diagEffects f.2).writeGr r f.1).advance
    else .refused .diagNotSupplied

/-- RFI: return from a trap (R485). -/
def execRfi (s : State) : Result := s.ifPrivileged (encode .rfi) (.next s.returnFromTrap)

end Sys2Proof.Machine
end

