-- ==== Sys2Proof/Machine/Dispatch.lean ====
section
/-!
DEFINITION. Sys2Proof/Machine/Dispatch.lean: one arm per instruction, each one call of its meaning.
-/

namespace Sys2Proof.Machine

def exec (i : Instr) (s : State) : Host.Outcome State Fault Refusal :=
  match i with
  | .brk info1 info2 => Sys2Proof.Machine.execBrk info1 info2 s
  | .ldil r val => Sys2Proof.Machine.execLdil r val s
  | .addil r val => Sys2Proof.Machine.execAddil r val s
  | .ldo r ofs b => Sys2Proof.Machine.execLdo r ofs b s
  | .lsid r b => Sys2Proof.Machine.execLsid r b s
  | .extr r sx useShamt len pos b => Sys2Proof.Machine.execExtr r sx useShamt len pos b s
  | .dep r z useShamt len pos src => Sys2Proof.Machine.execDep r z useShamt len pos src s
  | .dsr r useShamt shamt a b => Sys2Proof.Machine.execDsr r useShamt shamt a b s
  | .shla r l o sa a b => Sys2Proof.Machine.execShla r l o sa a b s
  | .cmr r cond a b => Sys2Proof.Machine.execCmr r cond a b s
  | .mr r d reg => Sys2Proof.Machine.execMr r d reg s
  | .mst r arg => Sys2Proof.Machine.execMst r arg s
  | .ds r a b => Sys2Proof.Machine.execDs r a b s
  | .add r l o opd => Sys2Proof.Machine.execAdd r l o opd s
  | .adc r l o opd => Sys2Proof.Machine.execAdc r l o opd s
  | .sub r l o opd => Sys2Proof.Machine.execSub r l o opd s
  | .sbc r l o opd => Sys2Proof.Machine.execSbc r l o opd s
  | .and r n c opd => Sys2Proof.Machine.execAnd r n c opd s
  | .or r n c opd => Sys2Proof.Machine.execOr r n c opd s
  | .xor r n opd => Sys2Proof.Machine.execXor r n opd s
  | .cmp r cond opd => Sys2Proof.Machine.execCmp r cond opd s
  | .cmpu r cond opd => Sys2Proof.Machine.execCmpu r cond opd s
  | .b r ofs => Sys2Proof.Machine.execB r ofs s
  | .gate r ofs => Sys2Proof.Machine.execGate r ofs s
  | .br r b => Sys2Proof.Machine.execBr r b s
  | .bv r b => Sys2Proof.Machine.execBv r b s
  | .be r ofs a b => Sys2Proof.Machine.execBe r ofs a b s
  | .bve r a b => Sys2Proof.Machine.execBve r a b s
  | .cbr cond ofs a b => Sys2Proof.Machine.execCbr cond ofs a b s
  | .cbru cond ofs a b => Sys2Proof.Machine.execCbru cond ofs a b s
  | .ld r m seg dw disp b => Sys2Proof.Machine.execLd r m seg dw disp b s
  | .st r m seg dw disp b => Sys2Proof.Machine.execSt r m seg dw disp b s
  | .lda r m disp b => Sys2Proof.Machine.execLda r m disp b s
  | .sta r m disp b => Sys2Proof.Machine.execSta r m disp b s
  | .ldr r seg ofs b => Sys2Proof.Machine.execLdr r seg ofs b s
  | .stc r seg ofs b => Sys2Proof.Machine.execStc r seg ofs b s
  | .ldpa r seg a b => Sys2Proof.Machine.execLdpa r seg a b s
  | .prb r w imm seg a b => Sys2Proof.Machine.execPrb r w imm seg a b s
  | .itlb r t a b => Sys2Proof.Machine.execItlb r t a b s
  | .ptlb t m seg a b => Sys2Proof.Machine.execPtlb t m seg a b s
  | .pca t m seg f a b => Sys2Proof.Machine.execPca t m seg f a b s
  | .diag r info a b => Sys2Proof.Machine.execDiag r info a b s
  | .rfi => Sys2Proof.Machine.execRfi s

end Sys2Proof.Machine
end

