-- ==== Sys2Proof/Machine/Environment.lean ====
section
/-!
DEFINITION. Sys2Proof/Machine/Environment.lean: what changes between two instructions without an instruction: the cache
hardware (20_memory.md R164), the loss of TLB entries (R140) and of a reservation (40_memory_reference.md R283), I/O agents
(20_memory.md R175), and the external interrupt input (60_exceptions.md R580). Each is off unless its parameter is set.
-/

namespace Sys2Proof.Machine

/-- The cache hardware's own actions (R164). -/
def State.cacheHardware (s : State) : State :=
  if s.params.cacheVisible then s.runCacheActions (Config.cacheActions s.tick) else s

/-- The lossy TLB_MODEL: any entry may vanish (R140). -/
def State.loseTranslations (s : State) : State :=
  if s.params.tlbLossy then
    { s with
      itlb := s.itlb.filter fun e => !Config.tlbLoses s.tick true e.1
      dtlb := s.dtlb.filter fun e => !Config.tlbLoses s.tick false e.1 }
  else s

/-- An implementation may drop the reservation (R283). -/
def State.loseReservation (s : State) : State :=
  if s.params.reservationLossy && Config.reservationLost s.tick then { s with reservation := none } else s

/-- Bytes that I/O agents write to memory, not to the data cache, each ending a reservation on its word (R175, R281). An
agent's write outside memory changes nothing of the machine. -/
def State.agentWrites (s : State) : List (Nat × Byte) → State
  | [] => s
  | (a, v) :: rest =>
    (if regionOf s.params a 1 = .memory then { s with mem := memSetByte s.mem a v }.breakReservation a
      else s).agentWrites rest

/-- The I/O agents' writes between two instructions (R24, R175). -/
def State.ioAgents (s : State) : State :=
  if s.params.ioAgents then s.agentWrites (Config.ioAgentWrites s.tick) else s

/-- Everything that happens between two instructions, in the order of notes/assumptions/18.md; the step number advances. -/
def State.betweenSteps (s : State) : State :=
  { s.cacheHardware.loseTranslations.loseReservation.ioAgents with tick := s.tick + 1 }

/-- An enabled external interrupt is pending: PSW.E = 1 and EXT_INT holds (R580). -/
def State.interruptPending (s : State) : Bool :=
  s.params.extIntEnabled && s.psw.e && Config.extInt s.tick (s.readCr 22#5)

end Sys2Proof.Machine
end

