-- ==== Sys2Proof/Machine/Cycle.lean ====
section
/-!
DEFINITION. Sys2Proof/Machine/Cycle.lean: Step() of 60_exceptions.md R570, in its order.
-/

namespace Sys2Proof.Machine

/-- Decode and execute a fetched word: an unassigned opcode or trapping sub-encoding takes trap 5; a reserved field is
outside the specified behaviour (R246, R570 step 4). -/
def State.runWord (s : State) (w : Word) : Result :=
  match decode w with
  | .ok i => exec i s
  | .illegal => s.raise (illegalInstruction w)
  | .undefined => .fault .reservedEncoding

/-- Run a fetched word, or skip it if it is nullified (R47, R570 step 3). -/
def State.runFetched (s : State) (w : Word) : Result := if s.psw.n then .next s.clearN.advance else s.runWord w

/-- Fetch and run one instruction (R570 steps 2 to 7). -/
def State.fetchAndRun (s : State) : Result := s.fetch.run s fun w s' => s'.runFetched w

/-- Take a pending external interrupt, or fetch and run one instruction (R570 steps 1 to 7). -/
def State.interruptOrRun (s : State) : Result :=
  if s.interruptPending then s.raise externalInterrupt else s.fetchAndRun

/-- One step; with PSW.R or PSW.Z set the model refuses to run (R570 step 0, R585, R586). -/
def State.cycle (s : State) : Result :=
  if s.psw.r then .refused .recoveryCounter
  else if s.psw.z then .refused .singleStep
  else s.betweenSteps.interruptOrRun

end Sys2Proof.Machine
end

