-- ==== Sys2Proof/Machine/Step.lean ====
section
/-!
DEFINITION. Sys2Proof/Machine/Step.lean: the step of the machine, and a state whose next instruction is a given word.
-/

namespace Sys2Proof.Machine

/-- One step of the machine (60_exceptions.md R570). -/
def step (s : State) : Host.Outcome State Fault Refusal := s.cycle

/-- The state with the instruction word `w % 2 ^ nbits` stored where the next fetch reads (notes/assumptions/10.md). -/
def State.withFetchWord (s : State) (nbits w : Nat) : State := s.placeFetchWord (BitVec.ofNat 32 (w % 2 ^ nbits))

end Sys2Proof.Machine
end

