-- ==== Sys2Proof/Machine/Run.lean ====
section
/-!
DEFINITION. Sys2Proof/Machine/Run.lean: a run, from a start state to an end address (00_scope.md R23).
-/

namespace Sys2Proof.Machine

/-- The end address E of a run (R23). -/
structure EndAddress where
  seg : SegId
  ofs : Word
deriving DecidableEq, Repr

/-- What a run has come to after a number of steps (R23). -/
inductive RunResult where
  /-- The run has ended: the end state, at the first instruction boundary whose instruction address is E. -/
  | ended (s : State)
  /-- The run has ended unsuccessfully: a step left the specified behaviour. -/
  | fault (f : Fault)
  /-- The run has ended unsuccessfully: the model gives a step no meaning. -/
  | refused (r : Refusal)
  /-- The run goes on from this state. -/
  | unfinished (s : State)
deriving DecidableEq, Repr

/-- The instruction address is E: PSW.seg and PSW.ofs are equal to it (R23). -/
def State.atEnd (s : State) (e : EndAddress) : Bool := s.psw.seg == e.seg && s.psw.ofs == e.ofs

/-- The run (start state, E), of at most a number of steps: it ends at the first instruction boundary at E, whose
instruction is not executed; a fault or a refusal ends it unsuccessfully; a trap does not end it (R23). -/
def State.runTo (s : State) (e : EndAddress) : Nat → RunResult
  | 0 => if s.atEnd e then .ended s else .unfinished s
  | k + 1 =>
    if s.atEnd e then .ended s
    else
      match step s with
      | .next t => t.runTo e k
      | .fault f => .fault f
      | .refused r => .refused r

end Sys2Proof.Machine
end

