-- ==== Sys2Proof/Safety.lean ====
section
/-!
DEFINITION. Sys2Proof/Safety.lean: the invariant of the machine, and the terms in which safe runs are stated.
-/

namespace Sys2Proof.Machine

/-- A TLB holds at most one entry per virtual page number, in key order, every entry valid, every key a 34-bit page
number (20_memory.md R132, R140, R466). -/
def TlbWf (tlb : List (Nat × TlbEntry)) : Prop := mapWf tlb ∧ ∀ e ∈ tlb, e.2.v = true ∧ e.1 < 2 ^ 34

/-- The instruction cache holds at most one copy of a line, each of the size of a line and at a line address
(20_memory.md R160, R161). -/
def InstrCacheWf (p : Params) (ic : List (Nat × List Byte)) : Prop :=
  mapWf ic ∧ ∀ c ∈ ic, c.2.length = p.cacheLineBytes ∧ c.1 % p.cacheLineBytes = 0

/-- The data cache likewise (20_memory.md R160, R161). -/
def DataCacheWf (p : Params) (dc : List (Nat × DataLine)) : Prop :=
  mapWf dc ∧ ∀ c ∈ dc, c.2.data.length = p.cacheLineBytes ∧ c.1 % p.cacheLineBytes = 0

/-- The invariant of the machine. -/
structure Inv (s : State) : Prop where
  /-- Physical memory is in canonical form. -/
  memory : Memory.wf s.mem
  /-- The instruction TLB is well formed. -/
  itlb : TlbWf s.itlb
  /-- The data TLB is well formed. -/
  dtlb : TlbWf s.dtlb
  /-- The instruction cache is well formed. -/
  ic : InstrCacheWf s.params s.ic
  /-- The data cache is well formed. -/
  dc : DataCacheWf s.params s.dc
  /-- A visible cache has lines of at least one byte (20_memory.md R160). -/
  line : s.params.cacheVisible = true → 0 < s.params.cacheLineBytes
  /-- A clean data cache line holds what memory holds, unless I/O agents write memory behind it (20_memory.md R161,
  R164, R175). -/
  coherent : s.params.ioAgents = false → ∀ c ∈ s.dc, c.2.dirty = false →
    ∀ k < s.params.cacheLineBytes, c.2.data.getD k memDefault = memByte s.mem (c.1 + k)
  /-- With transparent caches nothing is cached (20_memory.md R161). -/
  transparent : s.params.cacheVisible = false → s.ic = [] ∧ s.dc = []
  /-- With transparent caches no store is recorded for readings through other virtual addresses (20_memory.md R161). -/
  unrecorded : s.params.cacheVisible = false → s.history = []
  /-- Nothing but zero is ever stored for GR0 (10_state.md R31). -/
  zero : s.gr[0] = 0#32
  /-- CR2 holds five bits (10_state.md R63). -/
  shamt : s.cr[2].toNat < 32
  /-- A reservation is on an aligned word (40_memory_reference.md R280, R282). -/
  reservation : ∀ a, s.reservation = some a → a.toNat % 4 = 0

/-- The instruction offset is a multiple of 4 (10_state.md R42). -/
def PcAligned (s : State) : Prop := s.psw.ofs.toNat % 4 = 0

/-- The trap vector table is at a multiple of 4, which the spec asks of software (10_state.md R67 asks for more: the start
of a page). -/
def BaseAligned (s : State) : Prop := (s.readCr 16#5).toNat % 4 = 0

/-- A run of k steps from s meets no fault and no refusal (00_scope.md R23: nothing may be concluded from a run that leaves
the specified behaviour). -/
def SafeRun (k : Nat) (s : State) : Prop := ∃ t : State, Sys2Proof.core.run k s = .next t

/-- The run from s to the end address ends, after at most k steps, in the state t (00_scope.md R23). -/
def EndsIn (e : EndAddress) (k : Nat) (s t : State) : Prop := s.runTo e k = .ended t

end Sys2Proof.Machine
end

