-- ==== Sys2Proof/Frames.lean ====
section
/-!
DEFINITION. Sys2Proof/Frames.lean: the terms in which statements say what an instruction changes and what it leaves as it
was. Memory is compared byte by byte, through the model's own reading of a byte.
-/

namespace Sys2Proof.Machine

/-- Everything but general registers, status word and reservation is as before: segment and control registers,
translations, caches, every byte of memory as a data read sees it and as the backing store holds it, the record of stores,
the I/O record, the step number and the parameters. -/
structure SameSystem (s t : State) : Prop where
  sr : t.sr = s.sr
  cr : t.cr = s.cr
  itlb : t.itlb = s.itlb
  dtlb : t.dtlb = s.dtlb
  ic : t.ic = s.ic
  dc : t.dc = s.dc
  data : ∀ a, t.dataByte a = s.dataByte a
  backing : ∀ a, memByte t.mem a = memByte s.mem a
  history : t.history = s.history
  io : t.io = s.io
  tick : t.tick = s.tick
  params : t.params = s.params

/-- GR[r] holds v, or zero for GR0 (10_state.md R31). -/
def Holds (t : State) (r : GReg) (v : Word) : Prop := t.readGr r = if r = 0#4 then 0#32 else v

/-- Every general register outside a list is as before. -/
def SameGrExcept (rs : List GReg) (s t : State) : Prop := ∀ k, k ∉ rs → t.readGr k = s.readGr k

/-- The effect of an instruction whose only results are GR[r] and a new status word: t is s with GR[r] = v and PSW = p, and
nothing else changed. -/
structure RegisterResult (r : GReg) (v : Word) (p : Psw) (s t : State) : Prop where
  dest : Holds t r v
  others : SameGrExcept [r] s t
  psw : t.psw = p
  reservation : t.reservation = s.reservation
  system : SameSystem s t

/-- The status word after an instruction that only advances (10_state.md R43). -/
def Psw.next (p : Psw) : Psw := { p with ofs := p.ofs + 4#32 }

/-- The effect of an instruction whose only result is a new status word. -/
structure PswResult (p : Psw) (s t : State) : Prop where
  gr : SameGrExcept [] s t
  psw : t.psw = p
  reservation : t.reservation = s.reservation
  system : SameSystem s t

/-- General registers after an access through a base register that may be modified (40_memory_reference.md R262): GR[b]
holds the updated base if M is set, and every other register is as before. -/
structure BaseResult (m : Bool) (b : GReg) (upd : Word) (s t : State) : Prop where
  base : m = true → Holds t b upd
  kept : m = false → t.readGr b = s.readGr b
  others : SameGrExcept [b] s t

/-- General registers after a load (40_memory_reference.md R262): the loaded value in GR[r]; the base as BaseResult says,
unless it is the target, where the loaded value wins. -/
structure LoadResult (r : GReg) (v : Word) (m : Bool) (b : GReg) (upd : Word) (s t : State) : Prop where
  dest : Holds t r v
  base : m = true → b ≠ r → Holds t b upd
  kept : m = false → b ≠ r → t.readGr b = s.readGr b
  others : SameGrExcept [r, b] s t

/-- Everything but general registers, status word, reservation, data memory and the record of stores is as before. -/
structure SameButMemory (s t : State) : Prop where
  sr : t.sr = s.sr
  cr : t.cr = s.cr
  itlb : t.itlb = s.itlb
  dtlb : t.dtlb = s.dtlb
  ic : t.ic = s.ic
  io : t.io = s.io
  tick : t.tick = s.tick
  params : t.params = s.params

/-- Data memory after a store of the low n bytes of v at physical address pa through a virtual page: those bytes are the
value, most significant first (20_memory.md R101), and read so through that page; every other byte is as before; with
visible caches each stored byte is recorded with the byte it replaced (20_memory.md R161; notes/assumptions/8.md). -/
structure Stores (page pa : Nat) (n : Width) (v : Word) (s t : State) : Prop where
  value : t.dataValue pa n = truncate n v
  seen : t.viewValue page pa n = truncate n v
  outside : ∀ a, ¬ (pa ≤ a ∧ a < pa + n.bytes) → t.dataByte a = s.dataByte a
  history : t.history =
    (if s.params.cacheVisible then
      (List.range n.bytes).map fun k => { pa := pa + k, page := page, time := s.tick, old := s.dataByte (pa + k) }
    else []) ++ s.history

/-- The reservation after a write to the aligned word of pa (40_memory_reference.md R281, R282): ended if it was on that
word, otherwise as before. -/
structure ReservationAfterWrite (pa : Nat) (s t : State) : Prop where
  ended : ∀ a, s.reservation = some a → a.toNat / 4 = pa / 4 → t.reservation = none
  kept : ∀ a, s.reservation = some a → a.toNat / 4 ≠ pa / 4 → t.reservation = some a
  none : s.reservation = none → t.reservation = none

/-- t is the state in which the instruction at the offset of s takes a trap: trap entry has written the saved status, the
saved offset, the parameters that are defined and the status word, has ended the reservation, and has changed nothing else
(60_exceptions.md R551, R552). -/
structure Trapped (q : TrapReq) (s t : State) : Prop where
  savedStatus : t.readCr 17#5 = s.psw.word0
  savedOffset : t.readCr 18#5 = s.psw.ofs
  p0 : ∀ v, q.p0 = some v → t.readCr 19#5 = v
  p1 : ∀ v, q.p1 = some v → t.readCr 20#5 = v
  p2 : ∀ v, q.p2 = some v → t.readCr 21#5 = v
  otherCr : ∀ n, n ∉ [17#5, 18#5, 19#5, 20#5, 21#5] → t.readCr n = s.readCr n
  status : t.psw.word0 = 0#32
  vector : t.psw.ofs = BitVec.ofNat 32 ((s.readCr 16#5).toNat + 32 * q.num.toNat)
  reservation : t.reservation = Option.none
  gr : t.gr = s.gr
  sr : t.sr = s.sr
  itlb : t.itlb = s.itlb
  dtlb : t.dtlb = s.dtlb
  ic : t.ic = s.ic
  dc : t.dc = s.dc
  data : ∀ a, t.dataByte a = s.dataByte a
  backing : ∀ a, memByte t.mem a = memByte s.mem a
  history : t.history = s.history
  io : t.io = s.io
  tick : t.tick = s.tick
  params : t.params = s.params

/-- How an instruction that has left the state u ends: in u, or with the data-reference trap that its data read left for
afterwards (60_exceptions.md R567). -/
def EndsWith (late : Option TrapReq) (u t : State) : Prop :=
  match late with
  | none => t = u
  | some q => Trapped q u t

/-! ## Addresses -/

/-- d is the displacement of a memory reference: the signed offset of its field, or GR[a] (40_memory_reference.md R261). -/
def Displacement (s : State) : Disp → Word → Prop
  | .ofs o, d => d.toInt = o.toInt
  | .index a, d => d = s.readGr a

/-- ea is the offset of an access through GR[b] with the displacement d: the old base if M is set and d is not negative,
otherwise base plus displacement (40_memory_reference.md R261). -/
def AccessOffset (s : State) (m : Bool) (b : GReg) (d ea : Word) : Prop :=
  if m = true ∧ 0 ≤ d.toInt then ea = s.readGr b else ea = s.readGr b + d

/-- sid is the segment of an access: SR4 to SR7 by the two leftmost bits of the offset if the segment field is 0, otherwise
SR1 to SR3 (20_memory.md R127; 40_memory_reference.md R263). -/
def SegmentOf (s : State) (seg : BitVec 2) (ea : Word) (sid : SegId) : Prop :=
  ∃ n : BitVec 3, n.toNat = (if seg = 0#2 then 4 + ea.toNat / 2 ^ 30 else seg.toNat) ∧ sid = s.readSr n

/-- The number of the virtual page of a data access: 16 bits of segment, zero where translation is off, and 18 bits of
page number (20_memory.md R131, R132). -/
def PageOf (s : State) (sid : SegId) (ea : Word) : Nat := (if s.psw.d then sid.toNat else 0) * 2 ^ 18 + ea.toNat / 2 ^ 14

/-- An operand in memory, modes 2 and 3: its width and its offset (43_computational_operand.md R371). -/
inductive MemoryOperand (s : State) : Operand → Width → Word → Prop where
  | indexed (dw : BitVec 2) (n : Width) (a b : GReg) (hw : widthOf dw = some n) :
      MemoryOperand s (.indexed dw a b) n (s.readGr b + s.readGr a)
  | offset (dw : BitVec 2) (n : Width) (o : BitVec 12) (b : GReg) (hw : widthOf dw = some n) :
      MemoryOperand s (.offset dw o b) n (s.readGr b + o.signExtend 32)

/-- The nine instructions of the operand format with target r and an operand; AND and OR not with both N and C
(43_computational_operand.md R371). -/
inductive HasOperand : Instr → GReg → Operand → Prop where
  | add (r : GReg) (l o : Bool) (opd : Operand) : HasOperand (.add r l o opd) r opd
  | adc (r : GReg) (l o : Bool) (opd : Operand) : HasOperand (.adc r l o opd) r opd
  | sub (r : GReg) (l o : Bool) (opd : Operand) : HasOperand (.sub r l o opd) r opd
  | sbc (r : GReg) (l o : Bool) (opd : Operand) : HasOperand (.sbc r l o opd) r opd
  | and (r : GReg) (n c : Bool) (opd : Operand) (h : (n && c) = false) : HasOperand (.and r n c opd) r opd
  | or (r : GReg) (n c : Bool) (opd : Operand) (h : (n && c) = false) : HasOperand (.or r n c opd) r opd
  | xor (r : GReg) (n : Bool) (opd : Operand) : HasOperand (.xor r n opd) r opd
  | cmp (r : GReg) (cond : Cond) (opd : Operand) : HasOperand (.cmp r cond opd) r opd
  | cmpu (r : GReg) (cond : Cond) (opd : Operand) : HasOperand (.cmpu r cond opd) r opd

/-- The instruction reads n bytes of data at the virtual address (sid, ea): LD, LDR, and the nine instructions of the
operand format with an operand in memory (20_memory.md R125). -/
inductive ReadsMemory (s : State) : Instr → Width → SegId → Word → Prop where
  | ld (r : GReg) (m : Bool) (seg dw : BitVec 2) (n : Width) (disp : Disp) (b : GReg) (d ea : Word) (sid : SegId)
      (hw : widthOf dw = some n) (hd : Displacement s disp d) (he : AccessOffset s m b d ea) (hs : SegmentOf s seg ea sid) :
      ReadsMemory s (.ld r m seg dw disp b) n sid ea
  | ldr (r : GReg) (seg : BitVec 2) (o : BitVec 12) (b : GReg) (sid : SegId)
      (hs : SegmentOf s seg (s.readGr b + o.signExtend 32) sid) :
      ReadsMemory s (.ldr r seg o b) .word sid (s.readGr b + o.signExtend 32)
  | operand (i : Instr) (r : GReg) (opd : Operand) (n : Width) (ea : Word) (sid : SegId)
      (hi : HasOperand i r opd) (ho : MemoryOperand s opd n ea) (hs : SegmentOf s 0#2 ea sid) : ReadsMemory s i n sid ea

/-- The instruction writes n bytes of data at the virtual address (sid, ea): ST and STC (20_memory.md R125). -/
inductive WritesMemory (s : State) : Instr → Width → SegId → Word → Prop where
  | st (r : GReg) (m : Bool) (seg dw : BitVec 2) (n : Width) (disp : Disp) (b : GReg) (d ea : Word) (sid : SegId)
      (hw : widthOf dw = some n) (hd : Displacement s disp d) (he : AccessOffset s m b d ea) (hs : SegmentOf s seg ea sid) :
      WritesMemory s (.st r m seg dw disp b) n sid ea
  | stc (r : GReg) (seg : BitVec 2) (o : BitVec 12) (b : GReg) (sid : SegId)
      (hs : SegmentOf s seg (s.readGr b + o.signExtend 32) sid) :
      WritesMemory s (.stc r seg o b) .word sid (s.readGr b + o.signExtend 32)

/-! ## Accesses that pass their checks -/

/-- A data read of n bytes at the virtual address (seg, ofs) passes its checks and goes to physical address pa: the offset
is aligned; the access is not translated, or it goes through a valid entry that allows it and has neither the T nor the B
flag (20_memory.md R106, R131, R136, R150). -/
structure ReadPlace (s : State) (seg : SegId) (ofs : Word) (n : Width) (pa : PAddr) : Prop where
  aligned : ofs.toNat % n.bytes = 0
  place : ((s.psw.d = false ∨ s.bypassed seg = true) ∧ pa = ofs.setWidth 34) ∨
    (s.psw.d = true ∧ s.bypassed seg = false ∧ ∃ e, tlbFind s.dtlb seg ofs = some e ∧ e.readAllowed s.psw.x = true ∧
      s.pidPasses e seg = true ∧ e.t = false ∧ e.b = false ∧ pa = e.ppn ++ ofs.extractLsb' 0 14)

/-- The data read passes its checks, and memory is installed at pa (20_memory.md R116). -/
structure ReadsAt (s : State) (seg : SegId) (ofs : Word) (n : Width) (pa : PAddr) : Prop
    extends ReadPlace s seg ofs n pa where
  memory : regionOf s.params pa.toNat n.bytes = .memory

/-- A data write of n bytes at the virtual address (seg, ofs) passes its checks and goes to physical address pa: as
ReadPlace, for an entry that allows writes and has none of the T, D, B flags (20_memory.md R106, R131, R136, R151). -/
structure WritePlace (s : State) (seg : SegId) (ofs : Word) (n : Width) (pa : PAddr) : Prop where
  aligned : ofs.toNat % n.bytes = 0
  place : ((s.psw.d = false ∨ s.bypassed seg = true) ∧ pa = ofs.setWidth 34) ∨
    (s.psw.d = true ∧ s.bypassed seg = false ∧ ∃ e, tlbFind s.dtlb seg ofs = some e ∧ e.writeAllowed s.psw.x = true ∧
      s.pidPasses e seg = true ∧ e.t = false ∧ e.d = false ∧ e.b = false ∧ pa = e.ppn ++ ofs.extractLsb' 0 14)

/-- The data write passes its checks, and memory is installed at pa (20_memory.md R116). -/
structure WritesAt (s : State) (seg : SegId) (ofs : Word) (n : Width) (pa : PAddr) : Prop
    extends WritePlace s seg ofs n pa where
  memory : regionOf s.params pa.toNat n.bytes = .memory

/-- x is what a data read of n bytes of memory at pa through a virtual page gives: the most recently stored bytes, unless
the caches are visible and one of them was stored through another virtual page (20_memory.md R161, R162). -/
structure ReadValue (s : State) (page pa : Nat) (n : Width) (x : Word) : Prop where
  value : x = s.viewValue page pa n
  recent : s.params.cacheVisible = false ∨ (∀ e ∈ s.history, pa ≤ e.pa → e.pa < pa + n.bytes → e.page = page) →
    x = s.dataValue pa n

/-- None of the eight protection identifiers is the segment (20_memory.md R147). -/
def NoPidMatches (s : State) (seg : SegId) : Prop :=
  ∀ n ∈ [4#5, 5#5, 6#5, 7#5], (s.readCr n).extractLsb' 16 16 ≠ seg ∧ (s.readCr n).extractLsb' 0 16 ≠ seg

/-- The fetch passes its checks and goes to physical address pa, with u the state after the demotion of the level: code
translation is off or the segment is bypassed; or the page's entry is executable at the current level and passes the
protection identifier check (20_memory.md R130, R136, R148, R153). -/
def FetchPlace (s : State) (pa : PAddr) (u : State) : Prop :=
  ((s.psw.c = false ∨ s.bypassed s.psw.seg = true) ∧ pa = s.psw.ofs.setWidth 34 ∧ u = s) ∨
  (s.psw.c = true ∧ s.bypassed s.psw.seg = false ∧ ∃ e, tlbFind s.itlb s.psw.seg s.psw.ofs = some e ∧
    (e.ptype = .execute ∨ e.ptype = .gateway) ∧ s.psw.x ≤ e.pl1 ∧
    (s.psw.p = true → e.p = true → ¬ NoPidMatches s s.psw.seg) ∧ pa = e.ppn ++ s.psw.ofs.extractLsb' 0 14 ∧
    u = if e.ptype = .execute ∧ s.psw.x < e.pl2 then s.setLevel e.pl2 else s)

/-! ## Words that are no instruction of their own -/

/-- One of the 21 opcodes that no instruction has (30_encoding.md R235). -/
def UnassignedOpcode (w : Word) : Prop :=
  w.extractLsb' 26 6 ∈ [0x0D#6, 0x0E#6, 0x0F#6, 0x19#6, 0x1A#6, 0x1B#6, 0x1C#6, 0x1D#6, 0x1E#6, 0x1F#6, 0x28#6, 0x29#6,
    0x2A#6, 0x2B#6, 0x2C#6, 0x2D#6, 0x2E#6, 0x2F#6, 0x36#6, 0x37#6, 0x38#6]

/-- The trapping sub-encodings (30_encoding.md R242): CMR with condition 8 to 15, MST with mode 3, LD, ST and operand modes 2
and 3 with dw = 3. -/
def TrappingSubEncoding (w : Word) : Prop :=
  (w.extractLsb' 26 6 = 0x09#6 ∧ 8 ≤ (w.extractLsb' 18 4).toNat) ∨
  (w.extractLsb' 26 6 = 0x0B#6 ∧ w.extractLsb' 20 2 = 3#2) ∨
  (w.extractLsb' 26 6 ∈ [0x30#6, 0x31#6] ∧ w.extractLsb' 16 2 = 3#2) ∨
  (w.extractLsb' 26 6 ∈ [0x10#6, 0x11#6, 0x12#6, 0x13#6, 0x14#6, 0x15#6, 0x16#6, 0x17#6, 0x18#6] ∧
    2 ≤ (w.extractLsb' 18 2).toNat ∧ w.extractLsb' 16 2 = 3#2)

/-! ## Arithmetic, fields and privilege -/

/-- The exact value of a word, signed or (L = 1) unsigned (43_computational_operand.md R373). -/
def exactValue (l : Bool) (v : Word) : Int := if l then (v.toNat : Int) else v.toInt

/-- An exact result that 32 bits can represent, signed or (L = 1) unsigned (43_computational_operand.md R373). -/
def Representable (l : Bool) (x : Int) : Prop := if l then 0 ≤ x ∧ x ≤ 2 ^ 32 - 1 else -(2 ^ 31) ≤ x ∧ x ≤ 2 ^ 31 - 1

/-- The position of a bit field's rightmost bit: the pos field, or the SHAMT register with the A option
(44_computational_register.md R415). -/
def fieldPosition (s : State) (useShamt : Bool) (pos : BitVec 5) : Nat :=
  if useShamt then (s.readCr 2#5).toNat % 32 else pos.toNat

/-- The instructions that only privileged mode may run (60_exceptions.md R562): LDA, STA, MST in a defined mode, LDPA,
ITLB, PTLB, PCA, DIAG, RFI, and MR where it writes a register of the privileged sets (45_system_control.md R452) that is
not a reserved one. -/
def NeedsPrivilege (p : Params) : Instr → Prop
  | .lda _ _ _ _ | .sta _ _ _ _ | .ldpa _ _ _ _ | .itlb _ _ _ _ | .ptlb _ _ _ _ _ | .pca _ _ _ _ _ _
  | .diag _ _ _ _ | .rfi => True
  | .mst _ arg => ∀ k, arg ≠ .undefined k
  | .mr _ d (.sr n) => d = true ∧ p.privSr.getLsbD n.toNat = true
  | .mr _ d (.cr n) => d = true ∧ p.privCr.getLsbD n.toNat = true ∧
      n ∉ [3#5, 8#5, 9#5, 10#5, 11#5, 12#5, 13#5, 14#5, 15#5, 23#5]
  | .brk _ _ | .ldil _ _ | .addil _ _ | .ldo _ _ _ | .lsid _ _ | .extr _ _ _ _ _ _ | .dep _ _ _ _ _ _ | .dsr _ _ _ _ _
  | .shla _ _ _ _ _ _ | .cmr _ _ _ _ | .ds _ _ _ | .add _ _ _ _ | .adc _ _ _ _ | .sub _ _ _ _ | .sbc _ _ _ _
  | .and _ _ _ _ | .or _ _ _ _ | .xor _ _ _ | .cmp _ _ _ | .cmpu _ _ _ | .b _ _ | .gate _ _ | .br _ _ | .bv _ _
  | .be _ _ _ _ | .bve _ _ _ | .cbr _ _ _ _ | .cbru _ _ _ _ | .ld _ _ _ _ _ _ | .st _ _ _ _ _ _ | .ldr _ _ _ _
  | .stc _ _ _ _ | .prb _ _ _ _ _ _ => False

/-- What no instruction run in user mode changes except by taking a trap: both TLBs, the instruction cache, the status bits
other than X, N, V and CB, the segment registers of the privileged set other than SR0 (which BE and BVE write), and the
control registers of the privileged set (45_system_control.md R452; 60_exceptions.md R590). -/
structure UserKept (s t : State) : Prop where
  itlb : t.itlb = s.itlb
  dtlb : t.dtlb = s.dtlb
  ic : t.ic = s.ic
  m : t.psw.m = s.psw.m
  c : t.psw.c = s.psw.c
  r : t.psw.r = s.psw.r
  z : t.psw.z = s.psw.z
  d : t.psw.d = s.psw.d
  p : t.psw.p = s.psw.p
  e : t.psw.e = s.psw.e
  reserved : t.psw.reserved = s.psw.reserved
  sr : ∀ n : BitVec 3, n ≠ 0#3 → s.params.privSr.getLsbD n.toNat = true → t.readSr n = s.readSr n
  cr : ∀ n : BitVec 5, s.params.privCr.getLsbD n.toNat = true → t.readCr n = s.readCr n

end Sys2Proof.Machine
end

