-- ==== Sys2Proof/Certificates/Slice0/Obligations.lean ====
section
/-!
DEFINITION. Sys2Proof/Certificates/Slice0/Obligations.lean: the statements for the provers. A statement says exactly what
it needs of the state and the operands; `exec i s = .next t` in a conclusion says that the instruction completes.
-/

open Sys2Proof Sys2Proof.Machine

/-! ## Encoding -/

/-- Decoding the encoding of an instruction gives the instruction back, for every instruction and every operand value.
The model's choices in it: notes/assumptions 15. -/
def Obligations.DecodeEncode : Prop := ∀ i : Instr, decode (encode i) = .ok i

/-- A word that decodes to an instruction is the encoding of that instruction: no bit of a word is dropped, so that
the word a trap reports in I-PARM-0 is the word that was fetched. Rests on the spec's own decisions D5 (R241). The
model's choices in it: notes/assumptions 15. -/
def Obligations.EncodeDecode : Prop := ∀ (w : Word) (i : Instr), decode w = .ok i → encode i = w

/-- A word of each family, as 95_test_vectors.md writes it, decodes to its instruction. The model's choices in it:
notes/assumptions 15. -/
def Obligations.DecodeWrittenWords : Prop :=
  decode 0x0CBFF9C0#32 = .ok (.ldo 2#4 0x3FF9C#18 0#4) ∧
  decode 0xC0F20054#32 = .ok (.ld 3#4 true 0#2 2#2 (.index 5#4) 4#4) ∧
  decode 0x99FFFD26#32 = .ok (.cbr .lt 0xFFFD#16 2#4 6#4) ∧
  decode 0x414D0064#32 = .ok (.add 5#4 false false (.offset 1#2 6#12 4#4)) ∧
  decode 0x156041F5#32 = .ok (.extr 5#4 true false 16#5 31#5 5#4) ∧
  decode 0xF4360054#32 = .ok (.pca true true 1#2 true 5#4 4#4) ∧
  decode 0x58540023#32 = .undefined ∧
  decode 0x34000123#32 = .illegal

/-- A word with one of the 21 unassigned opcodes, or with a trapping sub-encoding (whatever its reserved fields hold),
takes the illegal instruction trap, with the word in I-PARM-0 (CR19); so does every word that the decoder finds
illegal. Rests on the spec's own decisions D6 (R203), D4 (R240), D8 (R246), D9 (R551), D21 (R552), D4 (R561), D6
(R561). The model's choices in it: notes/assumptions 15. -/
def Obligations.UnassignedOpcodeTraps : Prop :=
  ∀ (s : State) (w : Word), UnassignedOpcode w ∨ TrappingSubEncoding w ∨ decode w = .illegal →
    ∃ t, s.runWord w = .next t ∧ Trapped (illegalInstruction w) s t ∧ t.readCr 19#5 = w ∧
      (illegalInstruction w).num = 5#5

/-! ## The step -/

/-- A step fetches the four bytes at the instruction address, with code translation off, from a bypassed segment 0 or
through the instruction TLB, and runs the instruction they decode to (no refused mode, no nullification, no pending
interrupt). What happens between two instructions has happened first; the fetch may demote the level. Rests on the
spec's own decisions D17 (R136), D37 (R148), D8 (R246). The model's choices in it: notes/assumptions 13, 16, 17, 18.
-/
def Obligations.StepRunsInstruction : Prop :=
  ∀ (s u : State) (pa : PAddr) (i : Instr),
    s.psw.r = false → s.psw.z = false → s.psw.n = false → s.betweenSteps.interruptPending = false →
    FetchPlace s.betweenSteps pa u → regionOf s.params pa.toNat 4 = .memory →
    decodeBytes [s.betweenSteps.fetchByte pa.toNat, s.betweenSteps.fetchByte (pa.toNat + 1),
      s.betweenSteps.fetchByte (pa.toNat + 2), s.betweenSteps.fetchByte (pa.toNat + 3)] = .ok i →
    step s = exec i u

/-- With code translation on, the step fetches through the instruction TLB entry of the page, which must be executable
at the current level, and runs the instruction at the level the page demotes to. Rests on the spec's own decisions D37
(R148). The model's choices in it: notes/assumptions 13, 18. -/
def Obligations.StepRunsTranslated : Prop :=
  ∀ (s : State) (i : Instr) (e : TlbEntry),
    s.psw.r = false → s.psw.z = false → s.psw.n = false → s.psw.c = true → s.bypassed s.psw.seg = false →
    s.betweenSteps.interruptPending = false →
    tlbFind s.betweenSteps.itlb s.psw.seg s.psw.ofs = some e →
    (e.ptype = .execute ∨ e.ptype = .gateway) → s.psw.x ≤ e.pl1 →
    (s.psw.p = true → e.p = true → ¬ NoPidMatches s s.psw.seg) →
    regionOf s.params (e.address s.psw.ofs).toNat 4 = .memory →
    decodeBytes [s.betweenSteps.fetchByte (e.address s.psw.ofs).toNat,
      s.betweenSteps.fetchByte ((e.address s.psw.ofs).toNat + 1),
      s.betweenSteps.fetchByte ((e.address s.psw.ofs).toNat + 2),
      s.betweenSteps.fetchByte ((e.address s.psw.ofs).toNat + 3)] = .ok i →
    step s = exec i (if e.ptype = .execute ∧ s.psw.x < e.pl2 then s.betweenSteps.setLevel e.pl2 else s.betweenSteps)

/-- A nullified instruction is fetched, translated or not, and skipped: the fetch may demote the level, N is cleared,
the offset advances, nothing else changes, whatever the word. Rests on the spec's own decisions D10 (R47), D37 (R148).
The model's choices in it: notes/assumptions 13, 18. -/
def Obligations.NullifiedStep : Prop :=
  ∀ (s u : State) (pa : PAddr),
    s.psw.r = false → s.psw.z = false → s.psw.n = true → s.betweenSteps.interruptPending = false →
    FetchPlace s.betweenSteps pa u → regionOf s.params pa.toNat 4 = .memory →
    ∃ t, step s = .next t ∧ PswResult { u.psw.next with n := false } u t

/-- The model refuses to run with the recovery counter enabled or in single step mode. Rests on the spec's own
decisions D11 (R585), D12 (R586). The model's choices in it: notes/assumptions 19. -/
def Obligations.RefusedModes : Prop :=
  ∀ s : State,
    (s.psw.r = true → step s = .refused .recoveryCounter) ∧
    (s.psw.r = false → s.psw.z = true → step s = .refused .singleStep)

/-- A step takes the external interrupt if one is pending, saving the address of the instruction that would have run
next, and otherwise runs an instruction; none is pending while PSW.E is 0. Rests on the spec's own decisions D9
(R551), D21 (R552), D13 (R580). The model's choices in it: notes/assumptions 17, 18. -/
def Obligations.InterruptTaken : Prop :=
  ∀ s : State, s.psw.r = false → s.psw.z = false →
    (∃ t, Trapped externalInterrupt s.betweenSteps t ∧ t.readCr 18#5 = s.psw.ofs ∧
      step s = if s.betweenSteps.interruptPending then .next t else s.betweenSteps.fetchAndRun) ∧
    (s.psw.e = false → s.betweenSteps.interruptPending = false)

/-- The fetch traps: 9 without an entry; 11 for a page that is not executable, for user mode on a privileged page, and
for a protection identifier mismatch. The saved offset is that of the instruction that could not be fetched. Rests on
the spec's own decisions D37 (R148), D9 (R551), D21 (R552), D37 (R565). -/
def Obligations.FetchTraps : Prop :=
  ∀ s : State, s.psw.c = true → s.bypassed s.psw.seg = false →
    (tlbFind s.itlb s.psw.seg s.psw.ofs = none →
      ∃ t, s.fetchAndRun = .next t ∧ Trapped instructionTlbMiss s t ∧ t.readCr 18#5 = s.psw.ofs) ∧
    (∀ e, tlbFind s.itlb s.psw.seg s.psw.ofs = some e →
      (e.ptype = .readOnly ∨ e.ptype = .readWrite ∨ e.pl1 < s.psw.x ∨
        (s.psw.p = true ∧ e.p = true ∧ NoPidMatches s s.psw.seg)) →
      ∃ t, s.fetchAndRun = .next t ∧ Trapped instructionProtection s t ∧ t.readCr 18#5 = s.psw.ofs)

/-! ## Reset and invariants -/

/-- After reset, for all parameters: PSW-0 is zero, PSW-1 is RESET_OFS, whose suggested value is 0xF0000000, a
multiple of 4, and the first instruction is fetched from physical RESET_OFS untranslated. Rests on the spec's own
decisions D1 (R621). The model's choices in it: notes/assumptions 2. -/
def Obligations.ResetEntryPoint : Prop :=
  (∀ p : Params, (State.resetWith p).psw.word0 = 0#32 ∧ (State.resetWith p).psw.ofs = p.resetOfs ∧
    (State.resetWith p).fetch = (State.resetWith p).fetchPhys (p.resetOfs.setWidth 34)) ∧
  State.reset = State.resetWith Params.default ∧
  Params.default.resetOfs = 0xF0000000#32 ∧ Params.default.resetOfs.toNat % 4 = 0

/-- After reset there is no reservation, the TLBs and caches are empty, the mode is privileged and GR0 reads zero.
Rests on the spec's own decisions D1 (R622), D1 (R623). The model's choices in it: notes/assumptions 7. -/
def Obligations.ResetHiddenState : Prop :=
  State.reset.reservation = none ∧ State.reset.itlb = [] ∧ State.reset.dtlb = [] ∧ State.reset.ic = [] ∧
  State.reset.dc = [] ∧ State.reset.privileged = true ∧ State.reset.readGr 0#4 = 0#32

/-- The state after reset meets the invariant, with the offset a multiple of 4. Rests on the spec's own decisions D3
(R42), D18 (R63), D23 (R282). The model's choices in it: notes/assumptions 3, 4, 7, 8. -/
def Obligations.ResetInv : Prop := Inv State.reset ∧ PcAligned State.reset

/-- Every step keeps the invariant: memory, TLBs and caches in canonical form, clean cache lines equal to memory, GR0
zero, CR2 five bits, a reservation on an aligned word; and it keeps the offset a multiple of 4 where the trap vector
table is at a multiple of 4. Rests on the spec's own decisions D3 (R42), D18 (R63), D21 (R67), D25 (R161), D23 (R282),
D9 (R551). The model's choices in it: notes/assumptions 4, 5, 7, 8, 16. -/
def Obligations.StepKeepsInv : Prop :=
  ∀ s t : State, Inv s → step s = .next t → Inv t ∧ (PcAligned s → BaseAligned s → PcAligned t)

/-- No step changes the parameters, and each step advances the step number by one. The model's choices in it:
notes/assumptions 2, 17. -/
def Obligations.StepKeepsParameters : Prop :=
  ∀ s t : State, step s = .next t → t.params = s.params ∧ t.tick = s.tick + 1

/-- What an instruction run in user mode can do to privileged state. Either it takes a trap, from a state whose
control registers, segment registers and TLBs are those before, so that it enters privileged mode only at the vector
table; or it leaves privileged state as it was, and the machine stays in user mode unless the instruction is GATE.
Rests on the spec's own decisions D9 (R551). The model's choices in it: notes/assumptions 12. -/
def Obligations.UserModeContained : Prop :=
  ∀ (i : Instr) (s t : State), s.psw.x = 1#1 → exec i s = .next t →
    (∃ (q : TrapReq) (u : State), t = u.takeTrap q ∧ u.cr = s.cr ∧ u.sr = s.sr ∧ u.itlb = s.itlb ∧ u.dtlb = s.dtlb) ∨
    (UserKept s t ∧ (t.psw.x = 1#1 ∨ ∃ r ofs, i = .gate r ofs))

/-! ## Traps -/

/-- An instruction that needs privilege takes trap 6 in user mode, with the instruction word in I-PARM-0, and has no
other effect. Rests on the spec's own decisions D18 (R452), D9 (R551), D21 (R552). -/
def Obligations.PrivilegedInstructionsTrap : Prop :=
  ∀ (i : Instr) (s : State), s.psw.x = 1#1 → NeedsPrivilege s.params i →
    ∃ t, exec i s = .next t ∧ Trapped (privilegedOperation (encode i)) s t ∧ t.readCr 19#5 = encode i ∧
      (privilegedOperation (encode i)).num = 6#5

/-- RFI right after trap entry restores the whole status word and the address, and the general and segment registers
and memory are those of the interrupted program. Rests on the spec's own decisions D3 (R42), D9 (R551). -/
def Obligations.TrapThenReturn : Prop :=
  ∀ (s : State) (q : TrapReq), PcAligned s →
    ∃ t, exec .rfi (s.takeTrap q) = .next t ∧ t.psw = s.psw ∧ t.gr = s.gr ∧ t.sr = s.sr ∧ t.itlb = s.itlb ∧
      t.dtlb = s.dtlb ∧ (∀ a, t.dataByte a = s.dataByte a) ∧ t.history = s.history ∧ t.reservation = none

/-- A misaligned data access, of LD, ST, LDR, STC or an operand in memory, takes trap 17, whether translation is on or
off, with the instruction word, the segment and the offset as parameters, and has no other effect; LDA and STA
likewise, with segment 0. Rests on the spec's own decisions D8 (R150), D6 (R371), D9 (R551), D21 (R552), D41 (R568).
-/
def Obligations.MisalignedAccessTraps : Prop :=
  (∀ (s : State) (i : Instr) (n : Width) (sid : SegId) (ea : Word),
    ReadsMemory s i n sid ea ∨ WritesMemory s i n sid ea → ea.toNat % n.bytes ≠ 0 →
    ∃ t, exec i s = .next t ∧ Trapped (alignmentTrap (encode i) sid ea) s t) ∧
  (∀ (s : State) (r : GReg) (m : Bool) (disp : Disp) (b : GReg) (d ea : Word), s.psw.x = 0#1 →
    Displacement s disp d → AccessOffset s m b d ea → ea.toNat % 4 ≠ 0 →
    (∃ t, exec (.lda r m disp b) s = .next t ∧ Trapped (alignmentTrap (encode (.lda r m disp b)) 0#16 ea) s t) ∧
    (∃ t, exec (.sta r m disp b) s = .next t ∧ Trapped (alignmentTrap (encode (.sta r m disp b)) 0#16 ea) s t))

/-- The traps of a translated data read, of LD, LDR or an operand in memory, in their order: 12 without an entry, 14
where reading is not allowed, 15 where no protection identifier matches, 16 where the T flag is set. Rests on the
spec's own decisions D8 (R150), D6 (R371), D9 (R551), D21 (R552), D14 (R566), D41 (R568), D8 (R570). -/
def Obligations.LoadTranslationTraps : Prop :=
  ∀ (s : State) (i : Instr) (n : Width) (sid : SegId) (ea : Word),
    ReadsMemory s i n sid ea → ea.toNat % n.bytes = 0 → s.psw.d = true → s.bypassed sid = false →
    (tlbFind s.dtlb sid ea = none → ∃ t, exec i s = .next t ∧ Trapped (dataTlbMiss (encode i) sid ea) s t) ∧
    (∀ e, tlbFind s.dtlb sid ea = some e →
      (¬ s.psw.x ≤ e.pl1 → ∃ t, exec i s = .next t ∧ Trapped (accessRightsTrap (encode i) sid ea) s t) ∧
      (s.psw.x ≤ e.pl1 → s.psw.p = true → e.p = true → NoPidMatches s sid →
        ∃ t, exec i s = .next t ∧ Trapped (dataProtectionTrap (encode i) sid ea) s t) ∧
      (s.psw.x ≤ e.pl1 → (s.psw.p = true → e.p = true → ¬ NoPidMatches s sid) → e.t = true →
        ∃ t, exec i s = .next t ∧ Trapped (pageReferenceTrap (encode i) sid ea) s t))

/-- The traps of a translated data write, of ST or STC (with or without a reservation), in their order: 12, 14, 15, 16
for the T flag, TRAP_D_ID for the D flag, TRAP_B_ID for the B flag. Rests on the spec's own decisions D9 (R551), D21
(R552), D14 (R566), D41 (R568), D8 (R570). The model's choices in it: notes/assumptions 2, 22. -/
def Obligations.StoreTranslationTraps : Prop :=
  ∀ (s : State) (i : Instr) (n : Width) (sid : SegId) (ea : Word),
    WritesMemory s i n sid ea → ea.toNat % n.bytes = 0 → s.psw.d = true → s.bypassed sid = false →
    (tlbFind s.dtlb sid ea = none → ∃ t, exec i s = .next t ∧ Trapped (dataTlbMiss (encode i) sid ea) s t) ∧
    (∀ e, tlbFind s.dtlb sid ea = some e →
      (e.writeAllowed s.psw.x = false → ∃ t, exec i s = .next t ∧ Trapped (accessRightsTrap (encode i) sid ea) s t) ∧
      (e.writeAllowed s.psw.x = true → s.psw.p = true → e.p = true → NoPidMatches s sid →
        ∃ t, exec i s = .next t ∧ Trapped (dataProtectionTrap (encode i) sid ea) s t) ∧
      (e.writeAllowed s.psw.x = true → (s.psw.p = true → e.p = true → ¬ NoPidMatches s sid) →
        (e.t = true → ∃ t, exec i s = .next t ∧ Trapped (pageReferenceTrap (encode i) sid ea) s t) ∧
        (e.t = false → e.d = true →
          ∃ t, exec i s = .next t ∧ Trapped (dataTrap s.params.trapD (encode i) sid ea) s t) ∧
        (e.t = false → e.d = false → e.b = true →
          ∃ t, exec i s = .next t ∧ Trapped (dataTrap s.params.trapB (encode i) sid ea) s t)))

/-- A data read through an entry with the B flag, of memory or of I/O space: LD and LDR complete, and then take
TRAP_B_ID with the offset of the next instruction saved; an operand in memory is fetched with that trap left for the
end of its instruction. A read of I/O space is recorded once, and its value is unspecified but for its width. Where
there is neither memory nor a device it stops with a fault. Rests on the spec's own decisions D26 (R109), D27 (R116),
D8 (R150), D25 (R161), D6 (R371), D9 (R551), D21 (R552), D15 (R567). The model's choices in it: notes/assumptions 2,
8, 9, 21. -/
def Obligations.DataReferenceTrapAfterLoad : Prop :=
  ∀ (s : State) (i : Instr) (n : Width) (sid : SegId) (ea : Word) (e : TlbEntry) (pa : PAddr) (q : TrapReq),
    ReadsMemory s i n sid ea → ea.toNat % n.bytes = 0 → s.psw.d = true → s.bypassed sid = false →
    tlbFind s.dtlb sid ea = some e → s.psw.x ≤ e.pl1 → (s.psw.p = true → e.p = true → ¬ NoPidMatches s sid) →
    e.t = false → e.b = true → pa = e.ppn ++ ea.extractLsb' 0 14 → q = dataTrap s.params.trapB (encode i) sid ea →
    (regionOf s.params pa.toNat n.bytes ≠ .absent → ∃ x v,
      (regionOf s.params pa.toNat n.bytes = .memory → v = s ∧ ReadValue s (PageOf s sid ea) pa.toNat n x) ∧
      (regionOf s.params pa.toNat n.bytes = .io → v = { s with io := .read pa.toNat n :: s.io } ∧ truncate n x = x) ∧
      (∀ r m seg dw disp b d, i = .ld r m seg dw disp b → Displacement s disp d →
        ∃ u t, exec i s = .next t ∧ LoadResult r x m b (s.readGr b + d) s u ∧ u.psw = s.psw.next ∧
          u.reservation = s.reservation ∧ SameSystem v u ∧ Trapped q u t ∧ t.readCr 18#5 = s.psw.ofs + 4#32) ∧
      (∀ r seg o b, i = .ldr r seg o b →
        ∃ u t, exec i s = .next t ∧ Holds u r x ∧ SameGrExcept [r] s u ∧ u.psw = s.psw.next ∧
          u.reservation = some pa ∧ SameSystem v u ∧ Trapped q u t ∧ t.readCr 18#5 = s.psw.ofs + 4#32) ∧
      (∀ r opd, HasOperand i r opd →
        s.operand (encode i) r opd = .ok { a := s.readGr r, b := x, late := some q } v)) ∧
    (regionOf s.params pa.toNat n.bytes = .absent → exec i s = .fault .absentMemory)

/-! ## Memory and caches -/

/-- A write of memory through a virtual page is read back through it, cut to its width, and every byte outside it is
as before, whatever the data cache holds; a read through another virtual page gives the new value too or, with visible
caches, what it would have given before. Rests on the spec's own decisions D25 (R161). The model's choices in it:
notes/assumptions 4, 8. -/
def Obligations.DataReadAfterWrite : Prop :=
  ∀ (s : State) (page other : Nat) (pa : PAddr) (n : Width) (v : Word), Inv s →
    regionOf s.params pa.toNat n.bytes = .memory →
    ∃ t, s.physWrite page pa n v = .ok () t ∧ t.physRead page pa n = .ok (truncate n v) t ∧
      (∀ a, ¬ (pa.toNat ≤ a ∧ a < pa.toNat + n.bytes) → t.dataByte a = s.dataByte a) ∧
      ∃ x, t.physRead other pa n = .ok x t ∧
        (x = truncate n v ∨ (s.params.cacheVisible = true ∧ s.physRead other pa n = .ok x s))

/-- The value of a multi-byte access: a read is the unsigned number whose first byte is most significant, a write
stores the bytes in that order, and the example of the word 0x11223344 at 0x100. The model's choices in it:
notes/assumptions 4. -/
def Obligations.MultiByteValue : Prop :=
  (∀ (s : State) (a : Nat),
    (s.dataValue a .byte).toNat = (s.dataByte a).toNat ∧
    (s.dataValue a .half).toNat = 256 * (s.dataByte a).toNat + (s.dataByte (a + 1)).toNat ∧
    (s.dataValue a .word).toNat = 16777216 * (s.dataByte a).toNat + 65536 * (s.dataByte (a + 1)).toNat +
      256 * (s.dataByte (a + 2)).toNat + (s.dataByte (a + 3)).toNat) ∧
  (∀ (s : State) (a : Nat) (n : Width) (v : Word) (k : Nat), Inv s → k < n.bytes →
    (s.setDataValue a n v).dataByte (a + k) = v.extractLsb' (8 * (n.bytes - 1 - k)) 8) ∧
  (∀ s : State, Inv s →
    let t := s.setDataValue 0x100 .word 0x11223344#32
    t.dataByte 0x100 = 0x11#8 ∧ t.dataByte 0x101 = 0x22#8 ∧ t.dataByte 0x102 = 0x33#8 ∧ t.dataByte 0x103 = 0x44#8 ∧
    t.dataValue 0x102 .half = 0x3344#32 ∧ t.dataValue 0x101 .byte = 0x22#32)

/-- The cache hardware's fills, write-backs and replacements, in any number and order, never change what a data read
returns, through whatever virtual page (where no I/O agent writes memory behind the cache). Rests on the spec's own
decisions D25 (R161), D25 (R164). The model's choices in it: notes/assumptions 8. -/
def Obligations.CacheHardwareInvisible : Prop :=
  ∀ (s : State) (l : List Config.CacheAction) (page a : Nat), Inv s → s.params.cacheVisible = true →
    s.params.ioAgents = false →
    (s.runCacheActions l).dataByte a = s.dataByte a ∧ (s.runCacheActions l).viewByte page a = s.viewByte page a

/-- After the data cache line of an address is flushed and purged and then its instruction cache line is purged, a
fetch from that line reads what a data read saw there before. The model's choices in it: notes/assumptions 8. -/
def Obligations.FlushThenPurgeIsCoherent : Prop :=
  ∀ (s : State) (pa a : Nat), Inv s → s.params.ioAgents = false → lineBase s.params a = lineBase s.params pa →
    ((s.purgeCache true true pa).purgeCache false false pa).fetchByte a = s.dataByte a

/-- The access rights of an entry made from an ITLB argument word, by its type <8..9>, PL1 <10> and PL2 <11>. -/
def Obligations.AccessRights : Prop :=
  ∀ (w : Word) (pl : Level),
    ((TlbEntry.ofArgument w).readAllowed pl = true ↔ pl.toNat ≤ (w.extractLsb' 21 1).toNat) ∧
    (w.extractLsb' 22 2 = 0#2 → (TlbEntry.ofArgument w).writeAllowed pl = false) ∧
    (w.extractLsb' 22 2 = 1#2 → ((TlbEntry.ofArgument w).writeAllowed pl = true ↔ pl.toNat ≤ (w.extractLsb' 20 1).toNat)) ∧
    (w.extractLsb' 22 2 = 2#2 → ((TlbEntry.ofArgument w).writeAllowed pl = true ↔ pl = 0#1)) ∧
    (w.extractLsb' 22 2 = 3#2 → ((TlbEntry.ofArgument w).writeAllowed pl = true ↔ pl = 0#1))

/-! ## Immediate instructions -/

/-- LDIL: opcode 0x01, r<6..9>, val<10..31>; the 22-bit value in the left part of GR[r], zeros in the right part;
nothing else changes. -/
def Obligations.LoadImmediateLeft : Prop :=
  (∀ (r : GReg) (val : BitVec 22), decode (0x01#6 ++ r ++ val) = .ok (.ldil r val)) ∧
  ∀ (s : State) (r : GReg) (val : BitVec 22),
    ∃ t, exec (.ldil r val) s = .next t ∧
      RegisterResult r (BitVec.ofNat 32 (val.toNat * 1024)) s.psw.next s t

/-- ADDIL: opcode 0x02, r<6..9>, val<10..31>; GR[r] plus the 22-bit value in the left part, modulo 2^32, into GR1;
nothing else changes. -/
def Obligations.AddImmediateLeft : Prop :=
  (∀ (r : GReg) (val : BitVec 22), decode (0x02#6 ++ r ++ val) = .ok (.addil r val)) ∧
  ∀ (s : State) (r : GReg) (val : BitVec 22),
    ∃ t, exec (.addil r val) s = .next t ∧
      RegisterResult 1#4 (BitVec.ofNat 32 ((s.readGr r).toNat + val.toNat * 1024)) s.psw.next s t

/-- LDO: opcode 0x03, r<6..9>, ofs<10..27>, b<28..31>; base plus sign-extended offset, modulo 2^32, into GR[r];
nothing else changes. -/
def Obligations.LoadOffset : Prop :=
  (∀ (r : GReg) (ofs : BitVec 18) (b : GReg), decode (0x03#6 ++ r ++ ofs ++ b) = .ok (.ldo r ofs b)) ∧
  ∀ (s : State) (r : GReg) (ofs : BitVec 18) (b : GReg),
    ∃ t, exec (.ldo r ofs b) s = .next t ∧
      RegisterResult r (BitVec.ofInt 32 ((s.readGr b).toNat + ofs.toInt)) s.psw.next s t

/-! ## Register-format instructions -/

/-- LSID: opcode 0x04, r<6..9>, b<28..31>, zeros between; the segment register selected by the two leftmost bits of
GR[b], zero-extended, into GR[r]. -/
def Obligations.LoadSegmentIdentifier : Prop :=
  (∀ r b : GReg, decode (0x04#6 ++ r ++ 0#18 ++ b) = .ok (.lsid r b)) ∧
  ∀ (s : State) (r b : GReg) (n : BitVec 3), n.toNat = 4 + (s.readGr b).toNat / 2 ^ 30 →
    ∃ t, exec (.lsid r b) s = .next t ∧ RegisterResult r (BitVec.ofNat 32 (s.readSr n).toNat) s.psw.next s t

/-- EXTR: bit i of the result is bit i of the field, counted from its right end, and above the field the sign of the
field (S) or zero. -/
def Obligations.ExtractBitField : Prop :=
  ∀ (s : State) (r : GReg) (sx useShamt : Bool) (len pos : BitVec 5) (b : GReg) (p : Nat),
    p = fieldPosition s useShamt pos → len.toNat ≠ 0 → len.toNat ≤ p + 1 →
    ∃ v t, exec (.extr r sx useShamt len pos b) s = .next t ∧ RegisterResult r v s.psw.next s t ∧
      ∀ i < 32, v.getLsbD i =
        if i < len.toNat then (s.readGr b).getLsbD (31 - p + i)
        else sx && (s.readGr b).getLsbD (31 - p + len.toNat - 1)

/-- DEP: the field of GR[r] (or of zero, with Z) is replaced by the rightmost bits of the source, and its other bits
are kept. -/
def Obligations.DepositBitField : Prop :=
  ∀ (s : State) (r : GReg) (z useShamt : Bool) (len pos : BitVec 5) (src : DepSrc) (p : Nat) (x : Word),
    p = fieldPosition s useShamt pos → len.toNat ≠ 0 → len.toNat ≤ p + 1 →
    ((∃ b, src = .reg b ∧ x = s.readGr b) ∨ ∃ k, src = .imm k ∧ x = k.signExtend 32) →
    ∃ v t, exec (.dep r z useShamt len pos src) s = .next t ∧ RegisterResult r v s.psw.next s t ∧
      ∀ i < 32, v.getLsbD i =
        if 31 - p ≤ i ∧ i < 31 - p + len.toNat then x.getLsbD (i - (31 - p)) else !z && (s.readGr r).getLsbD i

/-- What the manual leaves undefined stops with a fault: every word that is the encoding of no instruction and has
neither an unassigned opcode nor a trapping sub-encoding, for a reserved field that does not hold its drawn value or a
register number out of range; EXTR and DEP with a field that is empty or extends beyond the leftmost bit; AND and OR
with N and C both set and no reserved width; BE with code translation on and a field a that names no segment register.
Rests on the spec's own decisions D5 (R241), D46 (R244), D8 (R246), D30 (R413). The model's choices in it:
notes/assumptions 14, 15. -/
def Obligations.UndefinedOperationsStop : Prop :=
  (∀ (s : State) (w : Word),
    decode w = .undefined ∨ ((∀ i, encode i ≠ w) ∧ ¬ UnassignedOpcode w ∧ ¬ TrappingSubEncoding w) →
    s.runWord w = .fault .reservedEncoding) ∧
  (∀ (s : State) (r : GReg) (f useShamt : Bool) (len pos : BitVec 5) (b : GReg) (src : DepSrc),
    (len.toNat = 0 ∨ fieldPosition s useShamt pos + 1 < len.toNat) →
    exec (.extr r f useShamt len pos b) s = .fault .undefinedOperation ∧
    exec (.dep r f useShamt len pos src) s = .fault .undefinedOperation) ∧
  (∀ (s : State) (r : GReg) (opd : Operand), operandReserved opd = false →
    exec (.and r true true opd) s = .fault .undefinedOperation ∧
    exec (.or r true true opd) s = .fault .undefinedOperation) ∧
  (∀ (s : State) (r : GReg) (ofs : BitVec 14) (a : BitVec 4) (b : GReg), s.psw.c = true → 8 ≤ a.toNat →
    exec (.be r ofs a b) s = .fault .reservedEncoding)

/-- DSR: the lower word of GR[b] and GR[a], concatenated, shifted right by the shift amount of the word or of SHAMT.
-/
def Obligations.DoubleShiftRight : Prop :=
  ∀ (s : State) (r : GReg) (useShamt : Bool) (shamt : BitVec 5) (a b : GReg),
    ∃ v t, exec (.dsr r useShamt shamt a b) s = .next t ∧ RegisterResult r v s.psw.next s t ∧
      ∀ i < 32, v.getLsbD i =
        if i + fieldPosition s useShamt shamt < 32 then (s.readGr a).getLsbD (i + fieldPosition s useShamt shamt)
        else (s.readGr b).getLsbD (i + fieldPosition s useShamt shamt - 32)

/-- SHLA: GR[a] * 2^sa + GR[b] modulo 2^32 into GR[r]; with O, trap 8 if the shifted value or the sum is not
representable. CB is not written. Rests on the spec's own decisions D29 (R373), D29 (R430), D9 (R551), D21 (R552), D29
(R564). -/
def Obligations.ShiftLeftAndAdd : Prop :=
  ∀ (s : State) (r : GReg) (l o : Bool) (sa : BitVec 2) (a b : GReg) (x y : Int),
    x = exactValue l (s.readGr a) * 2 ^ sa.toNat → y = x + exactValue l (s.readGr b) →
    (o = true → ¬ (Representable l x ∧ Representable l y) →
      ∃ t, exec (.shla r l o sa a b) s = .next t ∧ Trapped (overflowTrap (encode (.shla r l o sa a b))) s t) ∧
    (o = false ∨ (Representable l x ∧ Representable l y) →
      ∃ t, exec (.shla r l o sa a b) s = .next t ∧ RegisterResult r (BitVec.ofInt 32 y) s.psw.next s t)

/-- CMR: opcode 0x09, r<6..9>, cond<10..13>, a<24..27>, b<28..31>; for the conditions 0 to 7 GR[a] is moved to GR[r]
if GR[b] meets the condition, otherwise nothing changes; for the conditions 8 to 15 trap 5. Rests on the spec's own
decisions D9 (R551), D21 (R552), D4 (R561), D6 (R561). -/
def Obligations.ConditionalMove : Prop :=
  (∀ (r : GReg) (c : BitVec 4) (a b : GReg), decode (0x09#6 ++ r ++ c ++ 0#10 ++ a ++ b) = .ok (.cmr r c a b)) ∧
  ∀ (s : State) (r a b : GReg),
    let moves := fun (c : BitVec 4) (holds : Prop) =>
      (holds → ∃ t, exec (.cmr r c a b) s = .next t ∧ RegisterResult r (s.readGr a) s.psw.next s t) ∧
      (¬ holds → ∃ t, exec (.cmr r c a b) s = .next t ∧ PswResult s.psw.next s t)
    moves 0#4 (s.readGr b = 0#32) ∧ moves 1#4 ((s.readGr b).toInt < 0) ∧ moves 2#4 (0 < (s.readGr b).toInt) ∧
    moves 3#4 ((s.readGr b).toNat % 2 = 0) ∧ moves 4#4 (s.readGr b ≠ 0#32) ∧ moves 5#4 ((s.readGr b).toInt ≤ 0) ∧
    moves 6#4 (0 ≤ (s.readGr b).toInt) ∧ moves 7#4 ((s.readGr b).toNat % 2 = 1) ∧
    ∀ c : BitVec 4, 8 ≤ c.toNat →
      ∃ t, exec (.cmr r c a b) s = .next t ∧ Trapped (illegalInstruction (encode (.cmr r c a b))) s t

/-- DS: the footprint the spec fixes. It completes, and writes GR[r], CB and V with unspecified values and nothing
else. Rests on the spec's own decisions D39 (R440). The model's choices in it: notes/assumptions 1, 20. -/
def Obligations.DivideStepFootprint : Prop :=
  ∀ (s : State) (r a b : GReg),
    ∃ t, exec (.ds r a b) s = .next t ∧
      ∃ x cb v, RegisterResult r x { s.psw.next with cb := cb, v := v } s t

/-! ## Operand-format instructions -/

/-- The four operand modes: what the two inputs are, and that fetching them changes nothing. A memory operand is
zero-extended. With dw = 3 each of the nine instructions takes trap 5 with its word in CR19 and no other effect, AND
and OR also with N and C both set. Rests on the spec's own decisions D8 (R150), D25 (R161), D6 (R203), D6 (R371), D9
(R551), D21 (R552), D4 (R561), D6 (R561). The model's choices in it: notes/assumptions 8, 15. -/
def Obligations.OperandModes : Prop :=
  ∀ (s : State) (w : Word) (r : GReg),
    (∀ val : BitVec 18, s.operand w r (.imm val) = .ok { a := s.readGr r, b := val.signExtend 32, late := none } s) ∧
    (∀ a b : GReg, s.operand w r (.reg a b) = .ok { a := s.readGr a, b := s.readGr b, late := none } s) ∧
    (∀ (opd : Operand) (n : Width) (ea : Word) (sid : SegId) (pa : PAddr),
      MemoryOperand s opd n ea → SegmentOf s 0#2 ea sid → ReadsAt s sid ea n pa →
      ∃ x, ReadValue s (PageOf s sid ea) pa.toNat n x ∧
        s.operand w r opd = .ok { a := s.readGr r, b := x, late := none } s) ∧
    (∀ (a b : GReg) (ofs : BitVec 12),
      s.operand w r (.indexed 3#2 a b) = .trap (illegalInstruction w) ∧
      s.operand w r (.offset 3#2 ofs b) = .trap (illegalInstruction w)) ∧
    (∀ (i : Instr) (opd : Operand), (∃ a b, opd = .indexed 3#2 a b) ∨ (∃ ofs b, opd = .offset 3#2 ofs b) →
      HasOperand i r opd ∨ i = .and r true true opd ∨ i = .or r true true opd →
      ∃ t, exec i s = .next t ∧ Trapped (illegalInstruction (encode i)) s t ∧ t.readCr 19#5 = encode i)

/-- ADD and ADC, without an overflow trap: the sum modulo 2^32 into GR[r]; CB becomes the carry out of bit 31 if L = 0
and is kept if L = 1; nothing else changes, but that a data-reference trap left by the operand fetch is taken then.
Rests on the spec's own decisions D42 (R374), D9 (R551), D21 (R552), D15 (R567). -/
def Obligations.AddResult : Prop :=
  ∀ (s u : State) (r : GReg) (l o : Bool) (opd : Operand) (i : Instr) (c : Nat) (q : Inputs),
    ((i = .add r l o opd ∧ c = 0) ∨ (i = .adc r l o opd ∧ c = if s.psw.cb then 1 else 0)) →
    s.operand (encode i) r opd = .ok q u →
    (o = false ∨ Representable l (exactValue l q.a + exactValue l q.b + c)) →
    ∃ v t, exec i s = .next t ∧ EndsWith q.late v t ∧
      RegisterResult r (BitVec.ofNat 32 (q.a.toNat + q.b.toNat + c))
        { s.psw.next with cb := if l then s.psw.cb else decide (2 ^ 32 ≤ q.a.toNat + q.b.toNat + c) } u v

/-- SUB and SBC, likewise: the difference modulo 2^32 into GR[r]; CB becomes the borrow, whatever L; nothing else
changes. Rests on the spec's own decisions D42 (R374), D9 (R551), D21 (R552), D15 (R567). -/
def Obligations.SubtractResult : Prop :=
  ∀ (s u : State) (r : GReg) (l o : Bool) (opd : Operand) (i : Instr) (c : Nat) (q : Inputs),
    ((i = .sub r l o opd ∧ c = 0) ∨ (i = .sbc r l o opd ∧ c = if s.psw.cb then 1 else 0)) →
    s.operand (encode i) r opd = .ok q u →
    (o = false ∨ Representable l (exactValue l q.a - exactValue l q.b - c)) →
    ∃ v t, exec i s = .next t ∧ EndsWith q.late v t ∧
      RegisterResult r (BitVec.ofInt 32 ((q.a.toNat : Int) - q.b.toNat - c))
        { s.psw.next with cb := decide (q.a.toNat < q.b.toNat + c) } u v

/-- ADD, ADC, SUB and SBC with O = 1 take trap 8 where the exact result is not representable; GR[r] and CB are not
written (CB is in the saved status). Rests on the spec's own decisions D29 (R373), D9 (R551), D21 (R552), D29 (R564).
The model's choices in it: notes/assumptions 9. -/
def Obligations.OverflowTraps : Prop :=
  ∀ (s u : State) (r : GReg) (l : Bool) (opd : Operand) (i : Instr) (q : Inputs) (x : Int),
    ((i = .add r l true opd ∧ x = exactValue l q.a + exactValue l q.b) ∨
      (i = .adc r l true opd ∧ x = exactValue l q.a + exactValue l q.b + if s.psw.cb then 1 else 0) ∨
      (i = .sub r l true opd ∧ x = exactValue l q.a - exactValue l q.b) ∨
      (i = .sbc r l true opd ∧ x = exactValue l q.a - exactValue l q.b - if s.psw.cb then 1 else 0)) →
    s.operand (encode i) r opd = .ok q u → ¬ Representable l x →
    ∃ t, exec i s = .next t ∧ Trapped (overflowTrap (encode i)) u t

/-- AND, OR and XOR, bit by bit, with the operand complemented by C and the result by N (not both for AND and OR); no
status bit is written. Rests on the spec's own decisions D7 (R380), D9 (R551), D21 (R552), D15 (R567). -/
def Obligations.LogicResult : Prop :=
  ∀ (s u : State) (r : GReg) (n c : Bool) (opd : Operand) (i : Instr) (f : Bool → Bool → Bool) (q : Inputs),
    ((i = .and r n c opd ∧ (n && c) = false ∧ f = fun x y => x && (y ^^ c)) ∨
      (i = .or r n c opd ∧ (n && c) = false ∧ f = fun x y => x || (y ^^ c)) ∨
      (i = .xor r n opd ∧ f = fun x y => x ^^ y)) →
    s.operand (encode i) r opd = .ok q u →
    ∃ x v t, exec i s = .next t ∧ EndsWith q.late v t ∧ RegisterResult r x s.psw.next u v ∧
      ∀ k < 32, x.getLsbD k = (f (q.a.getLsbD k) (q.b.getLsbD k) ^^ n)

/-- CMP and CMPU: one if the condition holds of the inputs, as signed or unsigned numbers, otherwise zero, into GR[r];
no status bit is written. Rests on the spec's own decisions D9 (R551), D21 (R552), D15 (R567). -/
def Obligations.CompareResult : Prop :=
  ∀ (s u : State) (r : GReg) (cond : Cond) (opd : Operand) (i : Instr) (x y : Int) (q : Inputs),
    ((i = .cmp r cond opd ∧ x = q.a.toInt ∧ y = q.b.toInt) ∨
      (i = .cmpu r cond opd ∧ x = (q.a.toNat : Int) ∧ y = (q.b.toNat : Int))) →
    s.operand (encode i) r opd = .ok q u →
    ∃ z v t, exec i s = .next t ∧ EndsWith q.late v t ∧ RegisterResult r z s.psw.next u v ∧ (z = 1#32 ∨ z = 0#32) ∧
      (z = 1#32 ↔ (cond = .eq ∧ x = y) ∨ (cond = .lt ∧ x < y) ∨ (cond = .ne ∧ x ≠ y) ∨ (cond = .le ∧ x ≤ y))

/-! ## Branches -/

/-- B, BR and BV: the return link into GR[r], all registers read before it is written, and the target: pc plus the
displacement, pc plus four times GR[b], GR[b] with its two low bits cleared. Rests on the spec's own decisions D3
(R323). -/
def Obligations.UnconditionalBranches : Prop :=
  ∀ (s : State) (r b : GReg) (ofs : BitVec 22),
    (∃ t, exec (.b r ofs) s = .next t ∧
      RegisterResult r (s.psw.ofs + 4#32)
        { s.psw with ofs := BitVec.ofInt 32 (s.psw.ofs.toNat + 4 * ofs.toInt) } s t) ∧
    (∃ t, exec (.br r b) s = .next t ∧
      RegisterResult r (s.psw.ofs + 4#32)
        { s.psw with ofs := BitVec.ofNat 32 (s.psw.ofs.toNat + 4 * (s.readGr b).toNat) } s t) ∧
    (∃ t, exec (.bv r b) s = .next t ∧
      RegisterResult r (s.psw.ofs + 4#32)
        { s.psw with ofs := BitVec.ofNat 32 ((s.readGr b).toNat / 4 * 4) } s t)

/-- BE and BVE: the link into GR[r], the old segment into SR0, and the target offset with its two low bits cleared.
With code translation on the segment becomes that of SR[a] (BE) or of the segment register the target selects (BVE);
with it off the segment is kept. Rests on the spec's own decisions D3 (R323), D37 (R326). The model's choices in it:
notes/assumptions 14. -/
def Obligations.ExternalBranches : Prop :=
  ∀ (s : State) (i : Instr) (r a b : GReg) (ofs : BitVec 14) (n : BitVec 3) (x : Word),
    ((i = .be r ofs a b ∧ (s.psw.c = true → n.toNat = a.toNat) ∧
        x = BitVec.ofInt 32 ((s.readGr b).toNat + 4 * ofs.toInt)) ∨
      (i = .bve r a b ∧ n.toNat = 4 + x.toNat / 2 ^ 30 ∧ x = s.readGr b + s.readGr a)) →
    ∃ t, exec i s = .next t ∧ Holds t r (s.psw.ofs + 4#32) ∧ SameGrExcept [r] s t ∧
      t.psw = { s.psw with
        seg := if s.psw.c then s.readSr n else s.psw.seg, ofs := BitVec.ofNat 32 (x.toNat / 4 * 4) } ∧
      t.readSr 0#3 = s.psw.seg ∧ (∀ k, k ≠ 0#3 → t.readSr k = s.readSr k) ∧
      t.reservation = s.reservation ∧ SameSystem s { t with sr := s.sr }

/-- CBR and CBRU: the branch is taken iff the condition holds of GR[a] and GR[b] as signed or unsigned numbers; only
the instruction offset changes. -/
def Obligations.ConditionalBranches : Prop :=
  ∀ (s : State) (i : Instr) (cond : Cond) (ofs : BitVec 16) (a b : GReg) (x y : Int) (holds : Prop),
    ((i = .cbr cond ofs a b ∧ x = (s.readGr a).toInt ∧ y = (s.readGr b).toInt) ∨
      (i = .cbru cond ofs a b ∧ x = ((s.readGr a).toNat : Int) ∧ y = ((s.readGr b).toNat : Int))) →
    (holds ↔ (cond = .eq ∧ x = y) ∨ (cond = .lt ∧ x < y) ∨ (cond = .ne ∧ x ≠ y) ∨ (cond = .le ∧ x ≤ y)) →
    (holds → ∃ t, exec i s = .next t ∧
      PswResult { s.psw with ofs := BitVec.ofInt 32 (s.psw.ofs.toNat + 4 * ofs.toInt) } s t) ∧
    (¬ holds → ∃ t, exec i s = .next t ∧ PswResult s.psw.next s t)

/-- GATE: the target; where the fetch was not translated the level becomes privileged and GR[r] is unspecified, in a
bypassed segment too, where decision D22 says so and the pseudocode of R341 keeps the level; through an instruction
TLB entry GR[r] is PL1, and on a gateway page the level becomes PL2 if that is more privileged. The model's choices in
it: notes/assumptions 1, 12. -/
def Obligations.Gate : Prop :=
  ∀ (s : State) (r : GReg) (ofs : BitVec 22) (target : Word),
    target = BitVec.ofInt 32 (s.psw.ofs.toNat + 4 * ofs.toInt) →
    (s.psw.c = false ∨ s.bypassed s.psw.seg = true →
      ∃ t v, exec (.gate r ofs) s = .next t ∧ RegisterResult r v { s.psw with x := 0#1, ofs := target } s t) ∧
    (∀ e, s.psw.c = true → s.bypassed s.psw.seg = false → tlbFind s.itlb s.psw.seg s.psw.ofs = some e →
      ∃ t, exec (.gate r ofs) s = .next t ∧
        RegisterResult r (BitVec.ofNat 32 e.pl1.toNat)
          { s.psw with x := if e.ptype = .gateway ∧ e.pl2 < s.psw.x then e.pl2 else s.psw.x, ofs := target } s t)

/-! ## Memory reference -/

/-- LD and LDA: the value at the address, zero-extended, into GR[r]; the base is updated if M is set, and where it is
the target the loaded value wins; no byte of memory changes. LD with dw = 3 takes trap 5 with its word in CR19 and no
other effect. Rests on the spec's own decisions D8 (R150), D25 (R161), D6 (R203), D4 (R561), D6 (R561). The model's
choices in it: notes/assumptions 8. -/
def Obligations.Loads : Prop :=
  (∀ (s : State) (r : GReg) (m : Bool) (seg dw : BitVec 2) (n : Width) (disp : Disp) (b : GReg) (d ea : Word) (sid : SegId)
    (pa : PAddr),
    widthOf dw = some n → Displacement s disp d → AccessOffset s m b d ea → SegmentOf s seg ea sid →
    ReadsAt s sid ea n pa →
    ∃ x t, exec (.ld r m seg dw disp b) s = .next t ∧ ReadValue s (PageOf s sid ea) pa.toNat n x ∧
      LoadResult r x m b (s.readGr b + d) s t ∧ t.psw = s.psw.next ∧ t.reservation = s.reservation ∧ SameSystem s t) ∧
  (∀ (s : State) (r : GReg) (m : Bool) (seg : BitVec 2) (disp : Disp) (b : GReg) (w : Word),
    w = encode (.ld r m seg 3#2 disp b) →
    ∃ t, exec (.ld r m seg 3#2 disp b) s = .next t ∧ Trapped (illegalInstruction w) s t ∧ t.readCr 19#5 = w) ∧
  (∀ (s : State) (r : GReg) (m : Bool) (disp : Disp) (b : GReg) (d ea : Word),
    s.psw.x = 0#1 → Displacement s disp d → AccessOffset s m b d ea → ea.toNat % 4 = 0 →
    regionOf s.params ea.toNat 4 = .memory →
    ∃ x t, exec (.lda r m disp b) s = .next t ∧ ReadValue s (ea.toNat / 2 ^ 14) ea.toNat .word x ∧
      LoadResult r x m b (s.readGr b + d) s t ∧ t.psw = s.psw.next ∧ t.reservation = s.reservation ∧ SameSystem s t)

/-- LDR: the word at the address into GR[r], and the reservation is set to the physical address accessed. Rests on the
spec's own decisions D8 (R150), D25 (R161), D23 (R282). The model's choices in it: notes/assumptions 8. -/
def Obligations.LoadReserve : Prop :=
  ∀ (s : State) (r : GReg) (seg : BitVec 2) (ofs : BitVec 12) (b : GReg) (ea : Word) (sid : SegId) (pa : PAddr),
    ea = s.readGr b + ofs.signExtend 32 → SegmentOf s seg ea sid → ReadsAt s sid ea .word pa →
    ∃ x t, exec (.ldr r seg ofs b) s = .next t ∧ ReadValue s (PageOf s sid ea) pa.toNat .word x ∧ Holds t r x ∧
      SameGrExcept [r] s t ∧ t.psw = s.psw.next ∧ t.reservation = some pa ∧ SameSystem s t

/-- ST and STA: the low bytes of GR[r] at the computed address, every other byte as before; the base is updated if M
is set, the value stored being the old one; a reservation on the written word ends, another is kept. ST with dw = 3
takes trap 5 with its word in CR19 and no other effect. Rests on the spec's own decisions D25 (R161), D6 (R203), D4
(R561), D6 (R561). The model's choices in it: notes/assumptions 6, 8. -/
def Obligations.StoresToMemory : Prop :=
  (∀ (s : State) (r : GReg) (m : Bool) (seg dw : BitVec 2) (n : Width) (disp : Disp) (b : GReg) (d ea : Word) (sid : SegId)
    (pa : PAddr),
    Inv s → widthOf dw = some n → Displacement s disp d → AccessOffset s m b d ea → SegmentOf s seg ea sid →
    WritesAt s sid ea n pa →
    ∃ t, exec (.st r m seg dw disp b) s = .next t ∧ BaseResult m b (s.readGr b + d) s t ∧ t.psw = s.psw.next ∧
      Stores (PageOf s sid ea) pa.toNat n (s.readGr r) s t ∧ ReservationAfterWrite pa.toNat s t ∧ SameButMemory s t) ∧
  (∀ (s : State) (r : GReg) (m : Bool) (seg : BitVec 2) (disp : Disp) (b : GReg) (w : Word),
    w = encode (.st r m seg 3#2 disp b) →
    ∃ t, exec (.st r m seg 3#2 disp b) s = .next t ∧ Trapped (illegalInstruction w) s t ∧ t.readCr 19#5 = w) ∧
  (∀ (s : State) (r : GReg) (m : Bool) (disp : Disp) (b : GReg) (d ea : Word),
    Inv s → s.psw.x = 0#1 → Displacement s disp d → AccessOffset s m b d ea → ea.toNat % 4 = 0 →
    regionOf s.params ea.toNat 4 = .memory →
    ∃ t, exec (.sta r m disp b) s = .next t ∧ BaseResult m b (s.readGr b + d) s t ∧ t.psw = s.psw.next ∧
      Stores (ea.toNat / 2 ^ 14) ea.toNat .word (s.readGr r) s t ∧ ReservationAfterWrite ea.toNat s t ∧
      SameButMemory s t)

/-- STC: with a reservation on the address the word is stored and GR[r] becomes 0; without one nothing is stored and
GR[r] becomes 1, whatever lies at the address; either way the reservation ends. Rests on the spec's own decisions D25
(R161). The model's choices in it: notes/assumptions 6, 8, 22. -/
def Obligations.StoreConditional : Prop :=
  ∀ (s : State) (r : GReg) (seg : BitVec 2) (ofs : BitVec 12) (b : GReg) (ea : Word) (sid : SegId) (pa : PAddr),
    ea = s.readGr b + ofs.signExtend 32 → SegmentOf s seg ea sid → WritePlace s sid ea .word pa →
    (s.reservation = some pa → regionOf s.params pa.toNat 4 = .memory → Inv s →
      ∃ t, exec (.stc r seg ofs b) s = .next t ∧ Holds t r 0#32 ∧ SameGrExcept [r] s t ∧ t.psw = s.psw.next ∧
        t.reservation = none ∧ Stores (PageOf s sid ea) pa.toNat .word (s.readGr r) s t ∧ SameButMemory s t) ∧
    (s.reservation ≠ some pa →
      ∃ t, exec (.stc r seg ofs b) s = .next t ∧ Holds t r 1#32 ∧ SameGrExcept [r] s t ∧ t.psw = s.psw.next ∧
        t.reservation = none ∧ SameSystem s t)

/-- An access to I/O space, by LD, LDR, an operand in memory, ST, STC with a reservation, LDA, STA or the instruction
fetch, is recorded once, the value read is unspecified, zero-extended and not cached, and no byte of memory changes;
an LDR sets the reservation, a write ends one on its word, and other accesses keep it. An access to an address that
holds neither memory nor a device stops with a fault. Rests on the spec's own decisions D26 (R109), D27 (R116), D8
(R150), D26 (R166). The model's choices in it: notes/assumptions 6, 9, 21, 22. -/
def Obligations.IoAndAbsentAccess : Prop :=
  (∀ (s : State) (i : Instr) (n : Width) (sid : SegId) (ea : Word) (pa : PAddr),
    ReadsMemory s i n sid ea → ReadPlace s sid ea n pa →
    (regionOf s.params pa.toNat n.bytes = .io → ∃ x, truncate n x = x ∧
      (∀ r m seg dw disp b d, i = .ld r m seg dw disp b → Displacement s disp d →
        ∃ t, exec i s = .next t ∧ LoadResult r x m b (s.readGr b + d) s t ∧ t.psw = s.psw.next ∧
          t.reservation = s.reservation ∧ t.io = .read pa.toNat n :: s.io ∧ SameSystem s { t with io := s.io }) ∧
      (∀ r seg o b, i = .ldr r seg o b →
        ∃ t, exec i s = .next t ∧ Holds t r x ∧ SameGrExcept [r] s t ∧ t.psw = s.psw.next ∧
          t.reservation = some pa ∧ t.io = .read pa.toNat n :: s.io ∧ SameSystem s { t with io := s.io }) ∧
      (∀ r opd, HasOperand i r opd → s.operand (encode i) r opd =
        .ok { a := s.readGr r, b := x, late := none } { s with io := .read pa.toNat n :: s.io })) ∧
    (regionOf s.params pa.toNat n.bytes = .absent → exec i s = .fault .absentMemory)) ∧
  (∀ (s : State) (i : Instr) (n : Width) (sid : SegId) (ea : Word) (pa : PAddr),
    WritesMemory s i n sid ea → WritePlace s sid ea n pa →
    (regionOf s.params pa.toNat n.bytes = .io →
      (∀ r m seg dw disp b d, i = .st r m seg dw disp b → Displacement s disp d →
        ∃ t, exec i s = .next t ∧ BaseResult m b (s.readGr b + d) s t ∧ t.psw = s.psw.next ∧
          ReservationAfterWrite pa.toNat s t ∧ t.io = .write pa.toNat n (truncate n (s.readGr r)) :: s.io ∧
          SameSystem s { t with io := s.io }) ∧
      (∀ r seg o b, i = .stc r seg o b → s.reservation = some pa →
        ∃ t, exec i s = .next t ∧ Holds t r 0#32 ∧ SameGrExcept [r] s t ∧ t.psw = s.psw.next ∧ t.reservation = none ∧
          t.io = .write pa.toNat n (s.readGr r) :: s.io ∧ SameSystem s { t with io := s.io })) ∧
    (regionOf s.params pa.toNat n.bytes = .absent →
      (∀ r m seg dw disp b, i = .st r m seg dw disp b → exec i s = .fault .absentMemory) ∧
      (∀ r seg o b, i = .stc r seg o b → s.reservation = some pa → exec i s = .fault .absentMemory))) ∧
  (∀ (s : State) (r : GReg) (m : Bool) (disp : Disp) (b : GReg) (d ea : Word),
    s.psw.x = 0#1 → Displacement s disp d → AccessOffset s m b d ea → ea.toNat % 4 = 0 →
    (regionOf s.params ea.toNat 4 = .io →
      (∃ t v, exec (.lda r m disp b) s = .next t ∧ LoadResult r v m b (s.readGr b + d) s t ∧ t.psw = s.psw.next ∧
        t.reservation = s.reservation ∧ t.io = .read ea.toNat .word :: s.io ∧ SameSystem s { t with io := s.io }) ∧
      (∃ t, exec (.sta r m disp b) s = .next t ∧ BaseResult m b (s.readGr b + d) s t ∧ t.psw = s.psw.next ∧
        ReservationAfterWrite ea.toNat s t ∧ t.io = .write ea.toNat .word (s.readGr r) :: s.io ∧
        SameSystem s { t with io := s.io })) ∧
    (regionOf s.params ea.toNat 4 = .absent →
      exec (.lda r m disp b) s = .fault .absentMemory ∧ exec (.sta r m disp b) s = .fault .absentMemory)) ∧
  (∀ (s u : State) (pa : PAddr), FetchPlace s pa u →
    (regionOf s.params pa.toNat 4 = .io →
      ∃ w, s.fetchAndRun = ({ u with io := .fetch pa.toNat :: u.io } : State).runFetched w) ∧
    (regionOf s.params pa.toNat 4 = .absent → s.fetchAndRun = .fault .absentMemory))

/-! ## System control -/

/-- MR: a read gives the register zero-extended (CR2 five bits); a write, where it is allowed, stores the low 16 bits
of GR[r] in a segment register, all of it in a control register, five bits in CR2; a reserved control register is
refused. Rests on the spec's own decisions D18 (R37), D18 (R63), D19 (R64), D18 (R452). -/
def Obligations.MoveRegister : Prop :=
  ∀ (s : State) (r : GReg),
    (∀ n : BitVec 3, ∃ t, exec (.mr r false (.sr n)) s = .next t ∧
      RegisterResult r (BitVec.ofNat 32 (s.readSr n).toNat) s.psw.next s t) ∧
    (∀ n : BitVec 5, reservedCr n = false → ∃ t, exec (.mr r false (.cr n)) s = .next t ∧
      RegisterResult r (s.readCr n) s.psw.next s t) ∧
    (∀ n : BitVec 3, (s.psw.x = 0#1 ∨ s.params.privSr.getLsbD n.toNat = false) →
      ∃ t, exec (.mr r true (.sr n)) s = .next t ∧ t.readSr n = (s.readGr r).extractLsb' 0 16 ∧
        (∀ k, k ≠ n → t.readSr k = s.readSr k) ∧ SameGrExcept [] s t ∧ t.psw = s.psw.next ∧
        t.reservation = s.reservation ∧ SameSystem s { t with sr := s.sr }) ∧
    (∀ n : BitVec 5, reservedCr n = false → (s.psw.x = 0#1 ∨ s.params.privCr.getLsbD n.toNat = false) →
      ∃ t, exec (.mr r true (.cr n)) s = .next t ∧
        t.readCr n = (if n = 2#5 then BitVec.ofNat 32 ((s.readGr r).toNat % 32) else s.readGr r) ∧
        (∀ k, k ≠ n → t.readCr k = s.readCr k) ∧ SameGrExcept [] s t ∧ t.psw = s.psw.next ∧
        t.reservation = s.reservation ∧ SameSystem s { t with cr := s.cr }) ∧
    (∀ (n : BitVec 5) (d : Bool), n ∈ [3#5, 8#5, 9#5, 10#5, 11#5, 12#5, 13#5, 14#5, 15#5, 23#5] →
      exec (.mr r d (.cr n)) s = .refused .reservedControlRegister)

/-- MST in privileged mode: Z, D, P, E become the bits of weight 8, 4, 2, 1 of GR[b], or are set or cleared by the
mask; GR[r] receives the old four bits; no other status bit changes. In mode 3 trap 5, in either mode. Rests on the
spec's own decisions D9 (R551), D21 (R552), D4 (R561), D6 (R561). -/
def Obligations.MoveToStatus : Prop :=
  ∀ (s : State) (r : GReg) (arg : MstArg) (new : BitVec 4),
    (s.psw.x = 0#1 →
      ((∃ b, arg = .reg b ∧ new = (s.readGr b).extractLsb' 0 4) ∨
        (∃ k, arg = .set k ∧ new = s.systemMask ||| k) ∨ (∃ k, arg = .clear k ∧ new = s.systemMask &&& ~~~k)) →
      ∃ t, exec (.mst r arg) s = .next t ∧
        RegisterResult r (BitVec.ofNat 32 (8 * s.psw.z.toNat + 4 * s.psw.d.toNat + 2 * s.psw.p.toNat + s.psw.e.toNat))
          { s.psw.next with z := new.getLsbD 3, d := new.getLsbD 2, p := new.getLsbD 1, e := new.getLsbD 0 } s t) ∧
    (∀ k, arg = .undefined k →
      ∃ t, exec (.mst r arg) s = .next t ∧ Trapped (illegalInstruction (encode (.mst r arg))) s t)

/-- LDPA and PRB: LDPA gives the offset where data is not translated, otherwise the low 32 bits of the physical
address of the data TLB entry. PRB looks the entry up whatever PSW.D, and gives 1 iff the access is allowed at the
level asked for and the protection identifier check passes; in a bypassed segment 1. Without an entry both take trap
13. Rests on the spec's own decisions D33 (R460), D32 (R462), D9 (R551), D21 (R552), D41 (R568). -/
def Obligations.QueryTranslation : Prop :=
  (∀ (s : State) (r : GReg) (seg : BitVec 2) (a b : GReg) (x : Word) (sid : SegId), s.psw.x = 0#1 →
    x = s.readGr b + s.readGr a → SegmentOf s seg x sid →
    (s.psw.d = false ∨ s.bypassed sid = true →
      ∃ t, exec (.ldpa r seg a b) s = .next t ∧ RegisterResult r x s.psw.next s t) ∧
    (∀ e, s.psw.d = true → s.bypassed sid = false → tlbFind s.dtlb sid x = some e →
      ∃ t, exec (.ldpa r seg a b) s = .next t ∧
        RegisterResult r (BitVec.ofNat 32 (e.ppn.toNat * 2 ^ 14 + x.toNat % 2 ^ 14)) s.psw.next s t) ∧
    (s.psw.d = true → s.bypassed sid = false → tlbFind s.dtlb sid x = none →
      ∃ t, exec (.ldpa r seg a b) s = .next t ∧ Trapped nonAccessDataTlbMiss s t)) ∧
  (∀ (s : State) (r : GReg) (w i : Bool) (seg : BitVec 2) (a b : GReg) (sid : SegId) (pl : Level),
    SegmentOf s seg (s.readGr b) sid → pl.toNat = (if i then a.toNat % 2 else (s.readGr a).toNat % 2) →
    (s.bypassed sid = true →
      ∃ t, exec (.prb r w i seg a b) s = .next t ∧ RegisterResult r 1#32 s.psw.next s t) ∧
    (∀ e, s.bypassed sid = false → tlbFind s.dtlb sid (s.readGr b) = some e →
      ∃ t v, exec (.prb r w i seg a b) s = .next t ∧ RegisterResult r v s.psw.next s t ∧ (v = 1#32 ∨ v = 0#32) ∧
        (v = 1#32 ↔ (if w then e.writeAllowed pl else e.readAllowed pl) = true ∧
          ¬ (s.psw.p = true ∧ e.p = true ∧ NoPidMatches s sid))) ∧
    (s.bypassed sid = false → tlbFind s.dtlb sid (s.readGr b) = none →
      ∃ t, exec (.prb r w i seg a b) s = .next t ∧ Trapped nonAccessDataTlbMiss s t))

/-- ITLB and PTLB in privileged mode: after ITLB a look-up of the page in the TLB addressed finds the entry of the
argument word, after PTLB it finds none; every other page of that TLB and the other TLB are as before. PTLB updates
its base if M is set. The model's choices in it: notes/assumptions 7. -/
def Obligations.EditTranslations : Prop :=
  (∀ (s : State) (r : GReg) (tf : Bool) (a : BitVec 3) (b : GReg), s.psw.x = 0#1 →
    ∃ t, exec (.itlb r tf a b) s = .next t ∧ SameGrExcept [] s t ∧ t.psw = s.psw.next ∧
      t.reservation = s.reservation ∧ SameSystem s { t with itlb := s.itlb, dtlb := s.dtlb } ∧
      (if tf then t.itlb else t.dtlb) = (if tf then s.itlb else s.dtlb) ∧
      ∀ (seg : SegId) (x : Word), tlbFind (if tf then t.dtlb else t.itlb) seg x =
        if seg = s.readSr a ∧ x.toNat / 2 ^ 14 = (s.readGr b).toNat / 2 ^ 14 then some (TlbEntry.ofArgument (s.readGr r))
        else tlbFind (if tf then s.dtlb else s.itlb) seg x) ∧
  (∀ (s : State) (tf m : Bool) (seg : BitVec 2) (a b : GReg) (ea : Word) (sid : SegId), s.psw.x = 0#1 →
    AccessOffset s m b (s.readGr a) ea → SegmentOf s seg ea sid →
    ∃ t, exec (.ptlb tf m seg a b) s = .next t ∧ BaseResult m b (s.readGr b + s.readGr a) s t ∧ t.psw = s.psw.next ∧
      t.reservation = s.reservation ∧ SameSystem s { t with itlb := s.itlb, dtlb := s.dtlb } ∧
      (if tf then t.itlb else t.dtlb) = (if tf then s.itlb else s.dtlb) ∧
      ∀ (sg : SegId) (x : Word), tlbFind (if tf then t.dtlb else t.itlb) sg x =
        if sg = sid ∧ x.toNat / 2 ^ 14 = ea.toNat / 2 ^ 14 then none
        else tlbFind (if tf then s.dtlb else s.itlb) sg x)

/-- PCA in privileged mode, with its address translated through the TLB of the cache addressed: the line leaves that
cache and every other line stays; the other cache is as before. With T = 1 and F = 1 a dirty line's bytes are written
to memory first, and (in states that meet the invariant) every other byte is as before; with F = 0, T = 0 or a line
that is absent or clean all of memory is as before. With transparent caches no byte and no cache changes. The base is
updated if M is set. Without a translation, trap 13 or 10. Rests on the spec's own decisions D25 (R161), D45 (R474),
D9 (R551), D21 (R552), D37 (R565), D41 (R568). The model's choices in it: notes/assumptions 8. -/
def Obligations.PurgeCacheLine : Prop :=
  ∀ (s : State) (tf m : Bool) (seg : BitVec 2) (f : Bool) (a b : GReg) (ea : Word) (sid : SegId),
    s.psw.x = 0#1 → AccessOffset s m b (s.readGr a) ea → SegmentOf s seg ea sid →
    (∀ (pa : PAddr) (base : Nat),
      (((if tf then s.psw.d else s.psw.c) = false ∨ s.bypassed sid = true) ∧ pa = ea.setWidth 34 ∨
        ((if tf then s.psw.d else s.psw.c) = true ∧ s.bypassed sid = false ∧
          ∃ e, tlbFind (if tf then s.dtlb else s.itlb) sid ea = some e ∧ pa = e.ppn ++ ea.extractLsb' 0 14)) →
      base = lineBase s.params pa.toNat →
      ∃ t, exec (.pca tf m seg f a b) s = .next t ∧ BaseResult m b (s.readGr b + s.readGr a) s t ∧
        t.psw = s.psw.next ∧ t.reservation = s.reservation ∧
        SameSystem s { t with ic := s.ic, dc := s.dc, mem := s.mem } ∧
        (s.params.cacheVisible = false → t.mem = s.mem ∧ t.dc = s.dc ∧ t.ic = s.ic) ∧
        (s.params.cacheVisible = true → tf = true →
          t.ic = s.ic ∧ (∀ k, mapFind k t.dc = if k = base then none else mapFind k s.dc) ∧
          (Inv s → ∀ x, lineBase s.params x ≠ base → t.dataByte x = s.dataByte x) ∧
          (f = false → t.mem = s.mem) ∧
          ((∀ ln, mapFind base s.dc = some ln → ln.dirty = false) → t.mem = s.mem) ∧
          (f = true → Inv s → ∀ ln, mapFind base s.dc = some ln → ln.dirty = true → ∀ x,
            memByte t.mem x =
              if lineBase s.params x = base then ln.data.getD (x - base) memDefault else memByte s.mem x)) ∧
        (s.params.cacheVisible = true → tf = false →
          (∀ k, mapFind k t.ic = if k = base then none else mapFind k s.ic) ∧ t.dc = s.dc ∧ t.mem = s.mem)) ∧
    ((if tf then s.psw.d else s.psw.c) = true → s.bypassed sid = false →
      tlbFind (if tf then s.dtlb else s.itlb) sid ea = none →
      ∃ t, exec (.pca tf m seg f a b) s = .next t ∧
        Trapped (if tf then nonAccessDataTlbMiss else nonAccessInstructionTlbMiss) s t)

/-- RFI in privileged mode: PSW-0 becomes CR17 and PSW-1 becomes CR18 with its two low bits cleared; the reservation
ends; no general, segment or control register, no translation and no byte of memory changes. Rests on the spec's own
decisions D3 (R42), D23 (R283). -/
def Obligations.ReturnFromTrap : Prop :=
  ∀ s : State, s.psw.x = 0#1 →
    ∃ t, exec .rfi s = .next t ∧ t.psw.word0 = s.readCr 17#5 ∧
      t.psw.ofs = BitVec.ofNat 32 ((s.readCr 18#5).toNat / 4 * 4) ∧
      t.reservation = none ∧ t.gr = s.gr ∧ SameSystem s t

/-- BRK takes trap 18 with the word and both info fields as parameters, and with both zero is a no-operation. DIAG in
privileged mode makes the effects of the host's function of its command and two arguments, none of which touches the
instruction address, the parameters or the step number, and then writes its result to GR[r]; it is refused where the
host supplies no function (notes/assumptions/11.md). Rests on the spec's own decisions D40 (R480), D35 (R490), D9
(R551), D21 (R552). The model's choices in it: notes/assumptions 11. -/
def Obligations.BreakAndDiagnose : Prop :=
  (∀ (s : State) (info1 : BitVec 4) (info2 : BitVec 16),
    (info1 = 0#4 ∧ info2 = 0#16 → ∃ t, exec (.brk info1 info2) s = .next t ∧ PswResult s.psw.next s t) ∧
    (¬ (info1 = 0#4 ∧ info2 = 0#16) → ∃ t, exec (.brk info1 info2) s = .next t ∧
      Trapped (breakTrap (encode (.brk info1 info2)) info1 info2) s t ∧
      t.readCr 19#5 = encode (.brk info1 info2) ∧ (t.readCr 20#5).toNat = info1.toNat ∧
      (t.readCr 21#5).toNat = info2.toNat)) ∧
  (∀ (s : State) (r : GReg) (info : BitVec 4) (a b : GReg), s.psw.x = 0#1 →
    (s.params.diagSupplied = true → ∃ u t, exec (.diag r info a b) s = .next t ∧
      u = s.diagEffects (Config.diagFn info (s.readGr a) (s.readGr b)).2 ∧
      RegisterResult r (Config.diagFn info (s.readGr a) (s.readGr b)).1 u.psw.next u t ∧
      t.psw.seg = s.psw.seg ∧ t.psw.ofs = s.psw.ofs + 4#32 ∧ t.params = s.params ∧ t.tick = s.tick) ∧
    (s.params.diagSupplied = false → exec (.diag r info a b) s = .refused .diagNotSupplied))
end

