-- ==== Sys2Proof/Laws/Memory.lean ====
section
/-!
SUPPORT. Sys2Proof/Laws/Memory.lean: the laws of finite maps and of physical memory: read after write, and that every
operation keeps the canonical form.
-/

namespace Sys2Proof.Machine

/-! ## Finite maps -/

@[simp] theorem mapFind_nil {β : Type} (k : Nat) : mapFind k ([] : List (Nat × β)) = none := rfl

theorem mapFind_cons {β : Type} (k j : Nat) (v : β) (l : List (Nat × β)) :
    mapFind k ((j, v) :: l) = if j = k then some v else mapFind k l := rfl

theorem mapFind_mem {β : Type} {k : Nat} {v : β} {l : List (Nat × β)} (h : mapFind k l = some v) : (k, v) ∈ l := by
  induction l with
  | nil => cases h
  | cons e l ih =>
    obtain ⟨j, u⟩ := e
    rw [mapFind_cons] at h
    split at h
    · next hj => cases h; subst hj; exact List.mem_cons_self
    · exact List.mem_cons_of_mem _ (ih h)

/-- A key that no entry has is not found. -/
theorem mapFind_none {β : Type} {k : Nat} {l : List (Nat × β)} (h : ∀ e ∈ l, e.1 ≠ k) : mapFind k l = none := by
  induction l with
  | nil => rfl
  | cons e l ih =>
    obtain ⟨j, u⟩ := e
    rw [mapFind_cons, if_neg (h (j, u) List.mem_cons_self)]
    exact ih fun e he => h e (List.mem_cons_of_mem _ he)

theorem mapFind_set_same {β : Type} (k : Nat) (v : β) (l : List (Nat × β)) : mapFind k (mapSet k v l) = some v := by
  induction l with
  | nil => simp [mapSet, mapFind_cons]
  | cons e l ih =>
    obtain ⟨j, u⟩ := e
    simp only [mapSet]
    split
    · simp [mapFind_cons]
    · split
      · simp [mapFind_cons]
      · rw [mapFind_cons, if_neg (by omega)]; exact ih

theorem mapFind_set_other {β : Type} {k k' : Nat} (h : k' ≠ k) (v : β) (l : List (Nat × β)) :
    mapFind k' (mapSet k v l) = mapFind k' l := by
  induction l with
  | nil => simp [mapSet, mapFind_cons, h.symm]
  | cons e l ih =>
    obtain ⟨j, u⟩ := e
    simp only [mapSet]
    split
    · simp [mapFind_cons, h.symm]
    · split
      · next hj => subst hj; simp [mapFind_cons, h.symm]
      · simp only [mapFind_cons, ih]

theorem mapFind_set {β : Type} (k k' : Nat) (v : β) (l : List (Nat × β)) :
    mapFind k' (mapSet k v l) = if k' = k then some v else mapFind k' l := by
  split
  · next h => subst h; exact mapFind_set_same _ _ _
  · next h => exact mapFind_set_other h _ _

theorem mapFind_erase {β : Type} (k k' : Nat) (l : List (Nat × β)) :
    mapFind k' (mapErase k l) = if k' = k then none else mapFind k' l := by
  induction l with
  | nil => simp [mapErase]
  | cons e l ih =>
    obtain ⟨j, u⟩ := e
    simp only [mapErase]
    split
    · next hj =>
      subst hj
      rw [ih, mapFind_cons]
      split
      · rfl
      · next h => rw [if_neg (Ne.symm h)]
    · next hj =>
      simp only [mapFind_cons, ih]
      split
      · next h => subst h; rw [if_neg hj]
      · rfl

/-- What an entry of a map with one key set can be. -/
theorem mem_mapSet {β : Type} {k : Nat} {v : β} {l : List (Nat × β)} {e : Nat × β} (h : e ∈ mapSet k v l) :
    e = (k, v) ∨ e ∈ l := by
  induction l with
  | nil => simpa [mapSet] using h
  | cons c l ih =>
    obtain ⟨j, u⟩ := c
    simp only [mapSet] at h
    split at h
    · simpa using h
    · split at h
      · rcases List.mem_cons.1 h with h | h
        · exact .inl h
        · exact .inr (List.mem_cons_of_mem _ h)
      · rcases List.mem_cons.1 h with h | h
        · exact .inr (h ▸ List.mem_cons_self)
        · exact (ih h).imp id (List.mem_cons_of_mem _)

theorem mem_mapErase {β : Type} {k : Nat} {l : List (Nat × β)} {e : Nat × β} (h : e ∈ mapErase k l) :
    e ∈ l ∧ e.1 ≠ k := by
  induction l with
  | nil => cases h
  | cons c l ih =>
    obtain ⟨j, u⟩ := c
    simp only [mapErase] at h
    split at h
    · exact ⟨List.mem_cons_of_mem _ (ih h).1, (ih h).2⟩
    · next hj =>
      rcases List.mem_cons.1 h with h | h
      · subst h; exact ⟨List.mem_cons_self, hj⟩
      · exact ⟨List.mem_cons_of_mem _ (ih h).1, (ih h).2⟩

theorem mapWf_nil {β : Type} : mapWf ([] : List (Nat × β)) := List.Pairwise.nil

theorem mapWf_cons {β : Type} {e : Nat × β} {l : List (Nat × β)} :
    mapWf (e :: l) ↔ (∀ c ∈ l, e.1 < c.1) ∧ mapWf l := by
  simp [mapWf, List.pairwise_cons]

theorem mapWf_set {β : Type} (k : Nat) (v : β) {l : List (Nat × β)} (h : mapWf l) : mapWf (mapSet k v l) := by
  induction l with
  | nil => simp [mapSet, mapWf]
  | cons e l ih =>
    obtain ⟨j, u⟩ := e
    have hl := mapWf_cons.1 h
    simp only [mapSet]
    split
    · next hk =>
      refine mapWf_cons.2 ⟨fun c hc => ?_, h⟩
      rcases List.mem_cons.1 hc with hc | hc
      · subst hc; exact hk
      · exact lt_trans hk (hl.1 c hc)
    · split
      · next hk => subst hk; exact mapWf_cons.2 hl
      · next hk hne =>
        refine mapWf_cons.2 ⟨fun c hc => ?_, ih hl.2⟩
        rcases mem_mapSet hc with hc | hc
        · subst hc; show j < k; omega
        · exact hl.1 c hc

theorem mapWf_erase {β : Type} (k : Nat) {l : List (Nat × β)} (h : mapWf l) : mapWf (mapErase k l) := by
  induction l with
  | nil => exact h
  | cons e l ih =>
    obtain ⟨j, u⟩ := e
    have hl := mapWf_cons.1 h
    simp only [mapErase]
    split
    · exact ih hl.2
    · exact mapWf_cons.2 ⟨fun c hc => hl.1 c (mem_mapErase hc).1, ih hl.2⟩

theorem mapWf_filter {β : Type} (p : Nat × β → Bool) {l : List (Nat × β)} (h : mapWf l) : mapWf (l.filter p) := by
  rw [mapWf, List.pairwise_map] at *
  exact h.filter p

/-- In a map in canonical form every entry is the one its key finds. -/
theorem mapFind_of_mem {β : Type} {l : List (Nat × β)} (h : mapWf l) {e : Nat × β} (he : e ∈ l) :
    mapFind e.1 l = some e.2 := by
  induction l with
  | nil => cases he
  | cons c l ih =>
    obtain ⟨j, u⟩ := c
    have hl := mapWf_cons.1 h
    rcases List.mem_cons.1 he with he | he
    · subst he; simp [mapFind_cons]
    · rw [mapFind_cons, if_neg (by have := hl.1 e he; simp only at this; omega)]
      exact ih hl.2 he

/-! ## Physical memory -/

/-- Reading a byte after a byte was written. -/
theorem memByte_set (mem : List Host.Cell) (a a' : Nat) (v : Byte) :
    memByte (memSetByte mem a v) a' = if a' = a then v else memByte mem a' := by
  unfold memSetByte memByte
  split
  · next h => rw [mapFind_erase]; split <;> simp_all
  · rw [mapFind_set]; split <;> simp_all

/-- A byte write keeps the canonical form of memory. -/
theorem wf_memSetByte {mem : List Host.Cell} (h : Memory.wf mem) (a : Nat) (v : Byte) : Memory.wf (memSetByte mem a v) := by
  unfold memSetByte
  split
  · exact ⟨mapWf_erase _ h.1, fun c hc => h.2 c (mem_mapErase hc).1⟩
  · next hv =>
    refine ⟨mapWf_set _ _ h.1, fun c hc => ?_⟩
    rcases mem_mapSet hc with hc | hc
    · subst hc; exact hv
    · exact h.2 c hc

theorem wf_memSetBytes {mem : List Host.Cell} (h : Memory.wf mem) (a : Nat) (l : List Byte) :
    Memory.wf (memSetBytes mem a l) := by
  induction l generalizing mem a with
  | nil => exact h
  | cons v l ih => exact ih (wf_memSetByte h a v) (a + 1)

/-- Reading a byte after a list of bytes was written. -/
theorem memByte_setBytes (mem : List Host.Cell) (a a' : Nat) (l : List Byte) :
    memByte (memSetBytes mem a l) a' =
      if a ≤ a' ∧ a' < a + l.length then l.getD (a' - a) memDefault else memByte mem a' := by
  induction l generalizing mem a with
  | nil => simp [memSetBytes]
  | cons v l ih =>
    rw [memSetBytes, ih, memByte_set]
    by_cases h : a' = a
    · subst h; simp
    · by_cases h2 : a + 1 ≤ a' ∧ a' < a + 1 + l.length
      · obtain ⟨d, rfl⟩ : ∃ d, a' = a + 1 + d := ⟨a' - (a + 1), by omega⟩
        have h3 : a + 1 + d - a = d + 1 := by omega
        rw [if_pos h2, if_pos (by simp only [List.length_cons]; omega), h3, List.getD_cons_succ]
        congr 1; omega
      · rw [if_neg h2, if_neg h, if_neg (by simp only [List.length_cons]; omega)]

/-- Writing a byte twice is writing the second. -/
theorem memByte_ext_set (mem : List Host.Cell) (a : Nat) (u v : Byte) (a' : Nat) :
    memByte (memSetByte (memSetByte mem a u) a v) a' = memByte (memSetByte mem a v) a' := by
  simp only [memByte_set]; split <;> rfl

/-- Two memories in canonical form that read the same everywhere are the same list. -/
theorem mem_ext {m m' : List Host.Cell} (h : Memory.wf m) (h' : Memory.wf m') (e : ∀ a, memByte m a = memByte m' a) :
    m = m' := by
  have key : ∀ {m m' : List Host.Cell}, Memory.wf m → Memory.wf m' → (∀ a, memByte m a = memByte m' a) →
      ∀ c ∈ m, c ∈ m' := by
    intro m m' h h' e c hc
    have h1 : mapFind c.1 m = some c.2 := mapFind_of_mem h.1 hc
    have h2 : memByte m' c.1 = c.2 := by rw [← e]; simp [memByte, h1]
    cases h3 : mapFind c.1 m' with
    | none => exact absurd (by simpa [memByte, h3] using h2.symm) (h.2 c hc)
    | some v =>
      have : v = c.2 := by simpa [memByte, h3] using h2
      subst this; exact mapFind_mem h3
  have sorted : ∀ {m : List Host.Cell}, Memory.wf m → m.Pairwise (fun x y => x.1 < y.1) := fun h =>
    List.pairwise_map.1 h.1
  refine List.Perm.eq_of_pairwise (le := fun x y => x.1 < y.1) (fun a b _ _ hab hba => ?_) (sorted h) (sorted h') ?_
  · exact absurd (lt_trans hab hba) (lt_irrefl _)
  · refine (List.perm_ext_iff_of_nodup ?_ ?_).2 fun c => ⟨key h h' e c, key h' h (fun a => (e a).symm) c⟩
    · exact (sorted h).imp fun hab hEq => by subst hEq; exact lt_irrefl _ hab
    · exact (sorted h').imp fun hab hEq => by subst hEq; exact lt_irrefl _ hab

end Sys2Proof.Machine
end

