-- ==== Sys2Proof/Laws/State.lean ====
section
/-!
SUPPORT. Sys2Proof/Laws/State.lean: what each update of the state leaves as it was, one lemma per field and update, and
what it changes, in terms of the accessors.
-/

namespace Sys2Proof.Machine

/-! ## Fields an update leaves as they were -/

section writeGr
variable (s : State) (r : GReg) (v : Word)

@[simp] theorem State.writeGr_sr : (s.writeGr r v).sr = s.sr := by unfold State.writeGr; split <;> rfl
@[simp] theorem State.writeGr_cr : (s.writeGr r v).cr = s.cr := by unfold State.writeGr; split <;> rfl
@[simp] theorem State.writeGr_psw : (s.writeGr r v).psw = s.psw := by unfold State.writeGr; split <;> rfl
@[simp] theorem State.writeGr_reservation : (s.writeGr r v).reservation = s.reservation := by unfold State.writeGr; split <;> rfl
@[simp] theorem State.writeGr_itlb : (s.writeGr r v).itlb = s.itlb := by unfold State.writeGr; split <;> rfl
@[simp] theorem State.writeGr_dtlb : (s.writeGr r v).dtlb = s.dtlb := by unfold State.writeGr; split <;> rfl
@[simp] theorem State.writeGr_ic : (s.writeGr r v).ic = s.ic := by unfold State.writeGr; split <;> rfl
@[simp] theorem State.writeGr_dc : (s.writeGr r v).dc = s.dc := by unfold State.writeGr; split <;> rfl
@[simp] theorem State.writeGr_mem : (s.writeGr r v).mem = s.mem := by unfold State.writeGr; split <;> rfl
@[simp] theorem State.writeGr_history : (s.writeGr r v).history = s.history := by unfold State.writeGr; split <;> rfl
@[simp] theorem State.writeGr_io : (s.writeGr r v).io = s.io := by unfold State.writeGr; split <;> rfl
@[simp] theorem State.writeGr_tick : (s.writeGr r v).tick = s.tick := by unfold State.writeGr; split <;> rfl
@[simp] theorem State.writeGr_params : (s.writeGr r v).params = s.params := by unfold State.writeGr; split <;> rfl

end writeGr

section writeSr
variable (s : State) (n : BitVec 3) (v : SegId)

@[simp] theorem State.writeSr_gr : (s.writeSr n v).gr = s.gr := rfl
@[simp] theorem State.writeSr_cr : (s.writeSr n v).cr = s.cr := rfl
@[simp] theorem State.writeSr_psw : (s.writeSr n v).psw = s.psw := rfl
@[simp] theorem State.writeSr_reservation : (s.writeSr n v).reservation = s.reservation := rfl
@[simp] theorem State.writeSr_itlb : (s.writeSr n v).itlb = s.itlb := rfl
@[simp] theorem State.writeSr_dtlb : (s.writeSr n v).dtlb = s.dtlb := rfl
@[simp] theorem State.writeSr_ic : (s.writeSr n v).ic = s.ic := rfl
@[simp] theorem State.writeSr_dc : (s.writeSr n v).dc = s.dc := rfl
@[simp] theorem State.writeSr_mem : (s.writeSr n v).mem = s.mem := rfl
@[simp] theorem State.writeSr_history : (s.writeSr n v).history = s.history := rfl
@[simp] theorem State.writeSr_io : (s.writeSr n v).io = s.io := rfl
@[simp] theorem State.writeSr_tick : (s.writeSr n v).tick = s.tick := rfl
@[simp] theorem State.writeSr_params : (s.writeSr n v).params = s.params := rfl

end writeSr

section writeCr
variable (s : State) (n : BitVec 5) (v : Word)

@[simp] theorem State.writeCr_gr : (s.writeCr n v).gr = s.gr := rfl
@[simp] theorem State.writeCr_sr : (s.writeCr n v).sr = s.sr := rfl
@[simp] theorem State.writeCr_psw : (s.writeCr n v).psw = s.psw := rfl
@[simp] theorem State.writeCr_reservation : (s.writeCr n v).reservation = s.reservation := rfl
@[simp] theorem State.writeCr_itlb : (s.writeCr n v).itlb = s.itlb := rfl
@[simp] theorem State.writeCr_dtlb : (s.writeCr n v).dtlb = s.dtlb := rfl
@[simp] theorem State.writeCr_ic : (s.writeCr n v).ic = s.ic := rfl
@[simp] theorem State.writeCr_dc : (s.writeCr n v).dc = s.dc := rfl
@[simp] theorem State.writeCr_mem : (s.writeCr n v).mem = s.mem := rfl
@[simp] theorem State.writeCr_history : (s.writeCr n v).history = s.history := rfl
@[simp] theorem State.writeCr_io : (s.writeCr n v).io = s.io := rfl
@[simp] theorem State.writeCr_tick : (s.writeCr n v).tick = s.tick := rfl
@[simp] theorem State.writeCr_params : (s.writeCr n v).params = s.params := rfl

end writeCr

section setOfs
variable (s : State) (v : Word)

@[simp] theorem State.setOfs_gr : (s.setOfs v).gr = s.gr := rfl
@[simp] theorem State.setOfs_sr : (s.setOfs v).sr = s.sr := rfl
@[simp] theorem State.setOfs_cr : (s.setOfs v).cr = s.cr := rfl
@[simp] theorem State.setOfs_reservation : (s.setOfs v).reservation = s.reservation := rfl
@[simp] theorem State.setOfs_itlb : (s.setOfs v).itlb = s.itlb := rfl
@[simp] theorem State.setOfs_dtlb : (s.setOfs v).dtlb = s.dtlb := rfl
@[simp] theorem State.setOfs_ic : (s.setOfs v).ic = s.ic := rfl
@[simp] theorem State.setOfs_dc : (s.setOfs v).dc = s.dc := rfl
@[simp] theorem State.setOfs_mem : (s.setOfs v).mem = s.mem := rfl
@[simp] theorem State.setOfs_history : (s.setOfs v).history = s.history := rfl
@[simp] theorem State.setOfs_io : (s.setOfs v).io = s.io := rfl
@[simp] theorem State.setOfs_tick : (s.setOfs v).tick = s.tick := rfl
@[simp] theorem State.setOfs_params : (s.setOfs v).params = s.params := rfl

end setOfs

section advance
variable (s : State)

@[simp] theorem State.advance_gr : (s.advance).gr = s.gr := rfl
@[simp] theorem State.advance_sr : (s.advance).sr = s.sr := rfl
@[simp] theorem State.advance_cr : (s.advance).cr = s.cr := rfl
@[simp] theorem State.advance_reservation : (s.advance).reservation = s.reservation := rfl
@[simp] theorem State.advance_itlb : (s.advance).itlb = s.itlb := rfl
@[simp] theorem State.advance_dtlb : (s.advance).dtlb = s.dtlb := rfl
@[simp] theorem State.advance_ic : (s.advance).ic = s.ic := rfl
@[simp] theorem State.advance_dc : (s.advance).dc = s.dc := rfl
@[simp] theorem State.advance_mem : (s.advance).mem = s.mem := rfl
@[simp] theorem State.advance_history : (s.advance).history = s.history := rfl
@[simp] theorem State.advance_io : (s.advance).io = s.io := rfl
@[simp] theorem State.advance_tick : (s.advance).tick = s.tick := rfl
@[simp] theorem State.advance_params : (s.advance).params = s.params := rfl

end advance

section setSeg
variable (s : State) (v : SegId)

@[simp] theorem State.setSeg_gr : (s.setSeg v).gr = s.gr := rfl
@[simp] theorem State.setSeg_sr : (s.setSeg v).sr = s.sr := rfl
@[simp] theorem State.setSeg_cr : (s.setSeg v).cr = s.cr := rfl
@[simp] theorem State.setSeg_reservation : (s.setSeg v).reservation = s.reservation := rfl
@[simp] theorem State.setSeg_itlb : (s.setSeg v).itlb = s.itlb := rfl
@[simp] theorem State.setSeg_dtlb : (s.setSeg v).dtlb = s.dtlb := rfl
@[simp] theorem State.setSeg_ic : (s.setSeg v).ic = s.ic := rfl
@[simp] theorem State.setSeg_dc : (s.setSeg v).dc = s.dc := rfl
@[simp] theorem State.setSeg_mem : (s.setSeg v).mem = s.mem := rfl
@[simp] theorem State.setSeg_history : (s.setSeg v).history = s.history := rfl
@[simp] theorem State.setSeg_io : (s.setSeg v).io = s.io := rfl
@[simp] theorem State.setSeg_tick : (s.setSeg v).tick = s.tick := rfl
@[simp] theorem State.setSeg_params : (s.setSeg v).params = s.params := rfl

end setSeg

section setLevel
variable (s : State) (v : Level)

@[simp] theorem State.setLevel_gr : (s.setLevel v).gr = s.gr := rfl
@[simp] theorem State.setLevel_sr : (s.setLevel v).sr = s.sr := rfl
@[simp] theorem State.setLevel_cr : (s.setLevel v).cr = s.cr := rfl
@[simp] theorem State.setLevel_reservation : (s.setLevel v).reservation = s.reservation := rfl
@[simp] theorem State.setLevel_itlb : (s.setLevel v).itlb = s.itlb := rfl
@[simp] theorem State.setLevel_dtlb : (s.setLevel v).dtlb = s.dtlb := rfl
@[simp] theorem State.setLevel_ic : (s.setLevel v).ic = s.ic := rfl
@[simp] theorem State.setLevel_dc : (s.setLevel v).dc = s.dc := rfl
@[simp] theorem State.setLevel_mem : (s.setLevel v).mem = s.mem := rfl
@[simp] theorem State.setLevel_history : (s.setLevel v).history = s.history := rfl
@[simp] theorem State.setLevel_io : (s.setLevel v).io = s.io := rfl
@[simp] theorem State.setLevel_tick : (s.setLevel v).tick = s.tick := rfl
@[simp] theorem State.setLevel_params : (s.setLevel v).params = s.params := rfl

end setLevel

section setCarry
variable (s : State) (v : Option Bool)

@[simp] theorem State.setCarry_gr : (s.setCarry v).gr = s.gr := by cases v <;> rfl
@[simp] theorem State.setCarry_sr : (s.setCarry v).sr = s.sr := by cases v <;> rfl
@[simp] theorem State.setCarry_cr : (s.setCarry v).cr = s.cr := by cases v <;> rfl
@[simp] theorem State.setCarry_reservation : (s.setCarry v).reservation = s.reservation := by cases v <;> rfl
@[simp] theorem State.setCarry_itlb : (s.setCarry v).itlb = s.itlb := by cases v <;> rfl
@[simp] theorem State.setCarry_dtlb : (s.setCarry v).dtlb = s.dtlb := by cases v <;> rfl
@[simp] theorem State.setCarry_ic : (s.setCarry v).ic = s.ic := by cases v <;> rfl
@[simp] theorem State.setCarry_dc : (s.setCarry v).dc = s.dc := by cases v <;> rfl
@[simp] theorem State.setCarry_mem : (s.setCarry v).mem = s.mem := by cases v <;> rfl
@[simp] theorem State.setCarry_history : (s.setCarry v).history = s.history := by cases v <;> rfl
@[simp] theorem State.setCarry_io : (s.setCarry v).io = s.io := by cases v <;> rfl
@[simp] theorem State.setCarry_tick : (s.setCarry v).tick = s.tick := by cases v <;> rfl
@[simp] theorem State.setCarry_params : (s.setCarry v).params = s.params := by cases v <;> rfl

end setCarry

section setV
variable (s : State) (v : Bool)

@[simp] theorem State.setV_gr : (s.setV v).gr = s.gr := rfl
@[simp] theorem State.setV_sr : (s.setV v).sr = s.sr := rfl
@[simp] theorem State.setV_cr : (s.setV v).cr = s.cr := rfl
@[simp] theorem State.setV_reservation : (s.setV v).reservation = s.reservation := rfl
@[simp] theorem State.setV_itlb : (s.setV v).itlb = s.itlb := rfl
@[simp] theorem State.setV_dtlb : (s.setV v).dtlb = s.dtlb := rfl
@[simp] theorem State.setV_ic : (s.setV v).ic = s.ic := rfl
@[simp] theorem State.setV_dc : (s.setV v).dc = s.dc := rfl
@[simp] theorem State.setV_mem : (s.setV v).mem = s.mem := rfl
@[simp] theorem State.setV_history : (s.setV v).history = s.history := rfl
@[simp] theorem State.setV_io : (s.setV v).io = s.io := rfl
@[simp] theorem State.setV_tick : (s.setV v).tick = s.tick := rfl
@[simp] theorem State.setV_params : (s.setV v).params = s.params := rfl

end setV

section clearN
variable (s : State)

@[simp] theorem State.clearN_gr : (s.clearN).gr = s.gr := rfl
@[simp] theorem State.clearN_sr : (s.clearN).sr = s.sr := rfl
@[simp] theorem State.clearN_cr : (s.clearN).cr = s.cr := rfl
@[simp] theorem State.clearN_reservation : (s.clearN).reservation = s.reservation := rfl
@[simp] theorem State.clearN_itlb : (s.clearN).itlb = s.itlb := rfl
@[simp] theorem State.clearN_dtlb : (s.clearN).dtlb = s.dtlb := rfl
@[simp] theorem State.clearN_ic : (s.clearN).ic = s.ic := rfl
@[simp] theorem State.clearN_dc : (s.clearN).dc = s.dc := rfl
@[simp] theorem State.clearN_mem : (s.clearN).mem = s.mem := rfl
@[simp] theorem State.clearN_history : (s.clearN).history = s.history := rfl
@[simp] theorem State.clearN_io : (s.clearN).io = s.io := rfl
@[simp] theorem State.clearN_tick : (s.clearN).tick = s.tick := rfl
@[simp] theorem State.clearN_params : (s.clearN).params = s.params := rfl

end clearN

section setSystemMask
variable (s : State) (v : BitVec 4)

@[simp] theorem State.setSystemMask_gr : (s.setSystemMask v).gr = s.gr := rfl
@[simp] theorem State.setSystemMask_sr : (s.setSystemMask v).sr = s.sr := rfl
@[simp] theorem State.setSystemMask_cr : (s.setSystemMask v).cr = s.cr := rfl
@[simp] theorem State.setSystemMask_reservation : (s.setSystemMask v).reservation = s.reservation := rfl
@[simp] theorem State.setSystemMask_itlb : (s.setSystemMask v).itlb = s.itlb := rfl
@[simp] theorem State.setSystemMask_dtlb : (s.setSystemMask v).dtlb = s.dtlb := rfl
@[simp] theorem State.setSystemMask_ic : (s.setSystemMask v).ic = s.ic := rfl
@[simp] theorem State.setSystemMask_dc : (s.setSystemMask v).dc = s.dc := rfl
@[simp] theorem State.setSystemMask_mem : (s.setSystemMask v).mem = s.mem := rfl
@[simp] theorem State.setSystemMask_history : (s.setSystemMask v).history = s.history := rfl
@[simp] theorem State.setSystemMask_io : (s.setSystemMask v).io = s.io := rfl
@[simp] theorem State.setSystemMask_tick : (s.setSystemMask v).tick = s.tick := rfl
@[simp] theorem State.setSystemMask_params : (s.setSystemMask v).params = s.params := rfl

end setSystemMask

section takeTrap
variable (s : State) (t : TrapReq)

@[simp] theorem State.takeTrap_gr : (s.takeTrap t).gr = s.gr := rfl
@[simp] theorem State.takeTrap_sr : (s.takeTrap t).sr = s.sr := rfl
@[simp] theorem State.takeTrap_itlb : (s.takeTrap t).itlb = s.itlb := rfl
@[simp] theorem State.takeTrap_dtlb : (s.takeTrap t).dtlb = s.dtlb := rfl
@[simp] theorem State.takeTrap_ic : (s.takeTrap t).ic = s.ic := rfl
@[simp] theorem State.takeTrap_dc : (s.takeTrap t).dc = s.dc := rfl
@[simp] theorem State.takeTrap_mem : (s.takeTrap t).mem = s.mem := rfl
@[simp] theorem State.takeTrap_history : (s.takeTrap t).history = s.history := rfl
@[simp] theorem State.takeTrap_io : (s.takeTrap t).io = s.io := rfl
@[simp] theorem State.takeTrap_tick : (s.takeTrap t).tick = s.tick := rfl
@[simp] theorem State.takeTrap_params : (s.takeTrap t).params = s.params := rfl

end takeTrap

section returnFromTrap
variable (s : State)

@[simp] theorem State.returnFromTrap_gr : (s.returnFromTrap).gr = s.gr := rfl
@[simp] theorem State.returnFromTrap_sr : (s.returnFromTrap).sr = s.sr := rfl
@[simp] theorem State.returnFromTrap_cr : (s.returnFromTrap).cr = s.cr := rfl
@[simp] theorem State.returnFromTrap_itlb : (s.returnFromTrap).itlb = s.itlb := rfl
@[simp] theorem State.returnFromTrap_dtlb : (s.returnFromTrap).dtlb = s.dtlb := rfl
@[simp] theorem State.returnFromTrap_ic : (s.returnFromTrap).ic = s.ic := rfl
@[simp] theorem State.returnFromTrap_dc : (s.returnFromTrap).dc = s.dc := rfl
@[simp] theorem State.returnFromTrap_mem : (s.returnFromTrap).mem = s.mem := rfl
@[simp] theorem State.returnFromTrap_history : (s.returnFromTrap).history = s.history := rfl
@[simp] theorem State.returnFromTrap_io : (s.returnFromTrap).io = s.io := rfl
@[simp] theorem State.returnFromTrap_tick : (s.returnFromTrap).tick = s.tick := rfl
@[simp] theorem State.returnFromTrap_params : (s.returnFromTrap).params = s.params := rfl

end returnFromTrap

section logIo
variable (s : State) (e : IoEvent)

@[simp] theorem State.logIo_gr : (s.logIo e).gr = s.gr := rfl
@[simp] theorem State.logIo_sr : (s.logIo e).sr = s.sr := rfl
@[simp] theorem State.logIo_cr : (s.logIo e).cr = s.cr := rfl
@[simp] theorem State.logIo_psw : (s.logIo e).psw = s.psw := rfl
@[simp] theorem State.logIo_reservation : (s.logIo e).reservation = s.reservation := rfl
@[simp] theorem State.logIo_itlb : (s.logIo e).itlb = s.itlb := rfl
@[simp] theorem State.logIo_dtlb : (s.logIo e).dtlb = s.dtlb := rfl
@[simp] theorem State.logIo_ic : (s.logIo e).ic = s.ic := rfl
@[simp] theorem State.logIo_dc : (s.logIo e).dc = s.dc := rfl
@[simp] theorem State.logIo_mem : (s.logIo e).mem = s.mem := rfl
@[simp] theorem State.logIo_history : (s.logIo e).history = s.history := rfl
@[simp] theorem State.logIo_tick : (s.logIo e).tick = s.tick := rfl
@[simp] theorem State.logIo_params : (s.logIo e).params = s.params := rfl

end logIo

section breakReservation
variable (s : State) (a : Nat)

@[simp] theorem State.breakReservation_gr : (s.breakReservation a).gr = s.gr := by unfold State.breakReservation; split <;> [split; skip] <;> rfl
@[simp] theorem State.breakReservation_sr : (s.breakReservation a).sr = s.sr := by unfold State.breakReservation; split <;> [split; skip] <;> rfl
@[simp] theorem State.breakReservation_cr : (s.breakReservation a).cr = s.cr := by unfold State.breakReservation; split <;> [split; skip] <;> rfl
@[simp] theorem State.breakReservation_psw : (s.breakReservation a).psw = s.psw := by unfold State.breakReservation; split <;> [split; skip] <;> rfl
@[simp] theorem State.breakReservation_itlb : (s.breakReservation a).itlb = s.itlb := by unfold State.breakReservation; split <;> [split; skip] <;> rfl
@[simp] theorem State.breakReservation_dtlb : (s.breakReservation a).dtlb = s.dtlb := by unfold State.breakReservation; split <;> [split; skip] <;> rfl
@[simp] theorem State.breakReservation_ic : (s.breakReservation a).ic = s.ic := by unfold State.breakReservation; split <;> [split; skip] <;> rfl
@[simp] theorem State.breakReservation_dc : (s.breakReservation a).dc = s.dc := by unfold State.breakReservation; split <;> [split; skip] <;> rfl
@[simp] theorem State.breakReservation_mem : (s.breakReservation a).mem = s.mem := by unfold State.breakReservation; split <;> [split; skip] <;> rfl
@[simp] theorem State.breakReservation_history : (s.breakReservation a).history = s.history := by unfold State.breakReservation; split <;> [split; skip] <;> rfl
@[simp] theorem State.breakReservation_io : (s.breakReservation a).io = s.io := by unfold State.breakReservation; split <;> [split; skip] <;> rfl
@[simp] theorem State.breakReservation_tick : (s.breakReservation a).tick = s.tick := by unfold State.breakReservation; split <;> [split; skip] <;> rfl
@[simp] theorem State.breakReservation_params : (s.breakReservation a).params = s.params := by unfold State.breakReservation; split <;> [split; skip] <;> rfl

end breakReservation

section setDataByte
variable (s : State) (a : Nat) (v : Byte)

@[simp] theorem State.setDataByte_gr : (s.setDataByte a v).gr = s.gr := by unfold State.setDataByte; split <;> rfl
@[simp] theorem State.setDataByte_sr : (s.setDataByte a v).sr = s.sr := by unfold State.setDataByte; split <;> rfl
@[simp] theorem State.setDataByte_cr : (s.setDataByte a v).cr = s.cr := by unfold State.setDataByte; split <;> rfl
@[simp] theorem State.setDataByte_psw : (s.setDataByte a v).psw = s.psw := by unfold State.setDataByte; split <;> rfl
@[simp] theorem State.setDataByte_reservation : (s.setDataByte a v).reservation = s.reservation := by unfold State.setDataByte; split <;> rfl
@[simp] theorem State.setDataByte_itlb : (s.setDataByte a v).itlb = s.itlb := by unfold State.setDataByte; split <;> rfl
@[simp] theorem State.setDataByte_dtlb : (s.setDataByte a v).dtlb = s.dtlb := by unfold State.setDataByte; split <;> rfl
@[simp] theorem State.setDataByte_ic : (s.setDataByte a v).ic = s.ic := by unfold State.setDataByte; split <;> rfl
@[simp] theorem State.setDataByte_history : (s.setDataByte a v).history = s.history := by unfold State.setDataByte; split <;> rfl
@[simp] theorem State.setDataByte_io : (s.setDataByte a v).io = s.io := by unfold State.setDataByte; split <;> rfl
@[simp] theorem State.setDataByte_tick : (s.setDataByte a v).tick = s.tick := by unfold State.setDataByte; split <;> rfl
@[simp] theorem State.setDataByte_params : (s.setDataByte a v).params = s.params := by unfold State.setDataByte; split <;> rfl

end setDataByte

section purgeInstrLine
variable (s : State) (a : Nat)

@[simp] theorem State.purgeInstrLine_gr : (s.purgeInstrLine a).gr = s.gr := rfl
@[simp] theorem State.purgeInstrLine_sr : (s.purgeInstrLine a).sr = s.sr := rfl
@[simp] theorem State.purgeInstrLine_cr : (s.purgeInstrLine a).cr = s.cr := rfl
@[simp] theorem State.purgeInstrLine_psw : (s.purgeInstrLine a).psw = s.psw := rfl
@[simp] theorem State.purgeInstrLine_reservation : (s.purgeInstrLine a).reservation = s.reservation := rfl
@[simp] theorem State.purgeInstrLine_itlb : (s.purgeInstrLine a).itlb = s.itlb := rfl
@[simp] theorem State.purgeInstrLine_dtlb : (s.purgeInstrLine a).dtlb = s.dtlb := rfl
@[simp] theorem State.purgeInstrLine_dc : (s.purgeInstrLine a).dc = s.dc := rfl
@[simp] theorem State.purgeInstrLine_mem : (s.purgeInstrLine a).mem = s.mem := rfl
@[simp] theorem State.purgeInstrLine_history : (s.purgeInstrLine a).history = s.history := rfl
@[simp] theorem State.purgeInstrLine_io : (s.purgeInstrLine a).io = s.io := rfl
@[simp] theorem State.purgeInstrLine_tick : (s.purgeInstrLine a).tick = s.tick := rfl
@[simp] theorem State.purgeInstrLine_params : (s.purgeInstrLine a).params = s.params := rfl

end purgeInstrLine

section purgeDataLine
variable (s : State) (a : Nat)

@[simp] theorem State.purgeDataLine_gr : (s.purgeDataLine a).gr = s.gr := rfl
@[simp] theorem State.purgeDataLine_sr : (s.purgeDataLine a).sr = s.sr := rfl
@[simp] theorem State.purgeDataLine_cr : (s.purgeDataLine a).cr = s.cr := rfl
@[simp] theorem State.purgeDataLine_psw : (s.purgeDataLine a).psw = s.psw := rfl
@[simp] theorem State.purgeDataLine_reservation : (s.purgeDataLine a).reservation = s.reservation := rfl
@[simp] theorem State.purgeDataLine_itlb : (s.purgeDataLine a).itlb = s.itlb := rfl
@[simp] theorem State.purgeDataLine_dtlb : (s.purgeDataLine a).dtlb = s.dtlb := rfl
@[simp] theorem State.purgeDataLine_ic : (s.purgeDataLine a).ic = s.ic := rfl
@[simp] theorem State.purgeDataLine_mem : (s.purgeDataLine a).mem = s.mem := rfl
@[simp] theorem State.purgeDataLine_history : (s.purgeDataLine a).history = s.history := rfl
@[simp] theorem State.purgeDataLine_io : (s.purgeDataLine a).io = s.io := rfl
@[simp] theorem State.purgeDataLine_tick : (s.purgeDataLine a).tick = s.tick := rfl
@[simp] theorem State.purgeDataLine_params : (s.purgeDataLine a).params = s.params := rfl

end purgeDataLine

section writeBackLine
variable (s : State) (a : Nat)

@[simp] theorem State.writeBackLine_gr : (s.writeBackLine a).gr = s.gr := by unfold State.writeBackLine; split <;> [split; skip] <;> rfl
@[simp] theorem State.writeBackLine_sr : (s.writeBackLine a).sr = s.sr := by unfold State.writeBackLine; split <;> [split; skip] <;> rfl
@[simp] theorem State.writeBackLine_cr : (s.writeBackLine a).cr = s.cr := by unfold State.writeBackLine; split <;> [split; skip] <;> rfl
@[simp] theorem State.writeBackLine_psw : (s.writeBackLine a).psw = s.psw := by unfold State.writeBackLine; split <;> [split; skip] <;> rfl
@[simp] theorem State.writeBackLine_reservation : (s.writeBackLine a).reservation = s.reservation := by unfold State.writeBackLine; split <;> [split; skip] <;> rfl
@[simp] theorem State.writeBackLine_itlb : (s.writeBackLine a).itlb = s.itlb := by unfold State.writeBackLine; split <;> [split; skip] <;> rfl
@[simp] theorem State.writeBackLine_dtlb : (s.writeBackLine a).dtlb = s.dtlb := by unfold State.writeBackLine; split <;> [split; skip] <;> rfl
@[simp] theorem State.writeBackLine_ic : (s.writeBackLine a).ic = s.ic := by unfold State.writeBackLine; split <;> [split; skip] <;> rfl
@[simp] theorem State.writeBackLine_history : (s.writeBackLine a).history = s.history := by unfold State.writeBackLine; split <;> [split; skip] <;> rfl
@[simp] theorem State.writeBackLine_io : (s.writeBackLine a).io = s.io := by unfold State.writeBackLine; split <;> [split; skip] <;> rfl
@[simp] theorem State.writeBackLine_tick : (s.writeBackLine a).tick = s.tick := by unfold State.writeBackLine; split <;> [split; skip] <;> rfl
@[simp] theorem State.writeBackLine_params : (s.writeBackLine a).params = s.params := by unfold State.writeBackLine; split <;> [split; skip] <;> rfl

end writeBackLine

section loseTranslations
variable (s : State)

@[simp] theorem State.loseTranslations_gr : (s.loseTranslations).gr = s.gr := by unfold State.loseTranslations; split <;> rfl
@[simp] theorem State.loseTranslations_sr : (s.loseTranslations).sr = s.sr := by unfold State.loseTranslations; split <;> rfl
@[simp] theorem State.loseTranslations_cr : (s.loseTranslations).cr = s.cr := by unfold State.loseTranslations; split <;> rfl
@[simp] theorem State.loseTranslations_psw : (s.loseTranslations).psw = s.psw := by unfold State.loseTranslations; split <;> rfl
@[simp] theorem State.loseTranslations_reservation : (s.loseTranslations).reservation = s.reservation := by unfold State.loseTranslations; split <;> rfl
@[simp] theorem State.loseTranslations_ic : (s.loseTranslations).ic = s.ic := by unfold State.loseTranslations; split <;> rfl
@[simp] theorem State.loseTranslations_dc : (s.loseTranslations).dc = s.dc := by unfold State.loseTranslations; split <;> rfl
@[simp] theorem State.loseTranslations_mem : (s.loseTranslations).mem = s.mem := by unfold State.loseTranslations; split <;> rfl
@[simp] theorem State.loseTranslations_history : (s.loseTranslations).history = s.history := by unfold State.loseTranslations; split <;> rfl
@[simp] theorem State.loseTranslations_io : (s.loseTranslations).io = s.io := by unfold State.loseTranslations; split <;> rfl
@[simp] theorem State.loseTranslations_tick : (s.loseTranslations).tick = s.tick := by unfold State.loseTranslations; split <;> rfl
@[simp] theorem State.loseTranslations_params : (s.loseTranslations).params = s.params := by unfold State.loseTranslations; split <;> rfl

end loseTranslations

section loseReservation
variable (s : State)

@[simp] theorem State.loseReservation_gr : (s.loseReservation).gr = s.gr := by unfold State.loseReservation; split <;> rfl
@[simp] theorem State.loseReservation_sr : (s.loseReservation).sr = s.sr := by unfold State.loseReservation; split <;> rfl
@[simp] theorem State.loseReservation_cr : (s.loseReservation).cr = s.cr := by unfold State.loseReservation; split <;> rfl
@[simp] theorem State.loseReservation_psw : (s.loseReservation).psw = s.psw := by unfold State.loseReservation; split <;> rfl
@[simp] theorem State.loseReservation_itlb : (s.loseReservation).itlb = s.itlb := by unfold State.loseReservation; split <;> rfl
@[simp] theorem State.loseReservation_dtlb : (s.loseReservation).dtlb = s.dtlb := by unfold State.loseReservation; split <;> rfl
@[simp] theorem State.loseReservation_ic : (s.loseReservation).ic = s.ic := by unfold State.loseReservation; split <;> rfl
@[simp] theorem State.loseReservation_dc : (s.loseReservation).dc = s.dc := by unfold State.loseReservation; split <;> rfl
@[simp] theorem State.loseReservation_mem : (s.loseReservation).mem = s.mem := by unfold State.loseReservation; split <;> rfl
@[simp] theorem State.loseReservation_history : (s.loseReservation).history = s.history := by unfold State.loseReservation; split <;> rfl
@[simp] theorem State.loseReservation_io : (s.loseReservation).io = s.io := by unfold State.loseReservation; split <;> rfl
@[simp] theorem State.loseReservation_tick : (s.loseReservation).tick = s.tick := by unfold State.loseReservation; split <;> rfl
@[simp] theorem State.loseReservation_params : (s.loseReservation).params = s.params := by unfold State.loseReservation; split <;> rfl

end loseReservation

section modifyBase
variable (s : State) (m : Bool) (b : GReg) (u : Word)

@[simp] theorem State.modifyBase_sr : (s.modifyBase m b u).sr = s.sr := by unfold State.modifyBase; split <;> simp
@[simp] theorem State.modifyBase_cr : (s.modifyBase m b u).cr = s.cr := by unfold State.modifyBase; split <;> simp
@[simp] theorem State.modifyBase_psw : (s.modifyBase m b u).psw = s.psw := by unfold State.modifyBase; split <;> simp
@[simp] theorem State.modifyBase_reservation : (s.modifyBase m b u).reservation = s.reservation := by unfold State.modifyBase; split <;> simp
@[simp] theorem State.modifyBase_itlb : (s.modifyBase m b u).itlb = s.itlb := by unfold State.modifyBase; split <;> simp
@[simp] theorem State.modifyBase_dtlb : (s.modifyBase m b u).dtlb = s.dtlb := by unfold State.modifyBase; split <;> simp
@[simp] theorem State.modifyBase_ic : (s.modifyBase m b u).ic = s.ic := by unfold State.modifyBase; split <;> simp
@[simp] theorem State.modifyBase_dc : (s.modifyBase m b u).dc = s.dc := by unfold State.modifyBase; split <;> simp
@[simp] theorem State.modifyBase_mem : (s.modifyBase m b u).mem = s.mem := by unfold State.modifyBase; split <;> simp
@[simp] theorem State.modifyBase_history : (s.modifyBase m b u).history = s.history := by unfold State.modifyBase; split <;> simp
@[simp] theorem State.modifyBase_io : (s.modifyBase m b u).io = s.io := by unfold State.modifyBase; split <;> simp
@[simp] theorem State.modifyBase_tick : (s.modifyBase m b u).tick = s.tick := by unfold State.modifyBase; split <;> simp
@[simp] theorem State.modifyBase_params : (s.modifyBase m b u).params = s.params := by unfold State.modifyBase; split <;> simp

end modifyBase

section setDataValue
variable (s : State) (a : Nat) (n : Width) (v : Word)

@[simp] theorem State.setDataValue_gr : (s.setDataValue a n v).gr = s.gr := by cases n <;> simp [State.setDataValue]
@[simp] theorem State.setDataValue_sr : (s.setDataValue a n v).sr = s.sr := by cases n <;> simp [State.setDataValue]
@[simp] theorem State.setDataValue_cr : (s.setDataValue a n v).cr = s.cr := by cases n <;> simp [State.setDataValue]
@[simp] theorem State.setDataValue_psw : (s.setDataValue a n v).psw = s.psw := by cases n <;> simp [State.setDataValue]
@[simp] theorem State.setDataValue_reservation : (s.setDataValue a n v).reservation = s.reservation := by cases n <;> simp [State.setDataValue]
@[simp] theorem State.setDataValue_itlb : (s.setDataValue a n v).itlb = s.itlb := by cases n <;> simp [State.setDataValue]
@[simp] theorem State.setDataValue_dtlb : (s.setDataValue a n v).dtlb = s.dtlb := by cases n <;> simp [State.setDataValue]
@[simp] theorem State.setDataValue_ic : (s.setDataValue a n v).ic = s.ic := by cases n <;> simp [State.setDataValue]
@[simp] theorem State.setDataValue_history : (s.setDataValue a n v).history = s.history := by cases n <;> simp [State.setDataValue]
@[simp] theorem State.setDataValue_io : (s.setDataValue a n v).io = s.io := by cases n <;> simp [State.setDataValue]
@[simp] theorem State.setDataValue_tick : (s.setDataValue a n v).tick = s.tick := by cases n <;> simp [State.setDataValue]
@[simp] theorem State.setDataValue_params : (s.setDataValue a n v).params = s.params := by cases n <;> simp [State.setDataValue]

end setDataValue

section recordStore
variable (s : State) (page a : Nat) (n : Width)

@[simp] theorem State.recordStore_gr : (s.recordStore page a n).gr = s.gr := by unfold State.recordStore; split <;> rfl
@[simp] theorem State.recordStore_sr : (s.recordStore page a n).sr = s.sr := by unfold State.recordStore; split <;> rfl
@[simp] theorem State.recordStore_cr : (s.recordStore page a n).cr = s.cr := by unfold State.recordStore; split <;> rfl
@[simp] theorem State.recordStore_psw : (s.recordStore page a n).psw = s.psw := by unfold State.recordStore; split <;> rfl
@[simp] theorem State.recordStore_reservation : (s.recordStore page a n).reservation = s.reservation := by unfold State.recordStore; split <;> rfl
@[simp] theorem State.recordStore_itlb : (s.recordStore page a n).itlb = s.itlb := by unfold State.recordStore; split <;> rfl
@[simp] theorem State.recordStore_dtlb : (s.recordStore page a n).dtlb = s.dtlb := by unfold State.recordStore; split <;> rfl
@[simp] theorem State.recordStore_ic : (s.recordStore page a n).ic = s.ic := by unfold State.recordStore; split <;> rfl
@[simp] theorem State.recordStore_dc : (s.recordStore page a n).dc = s.dc := by unfold State.recordStore; split <;> rfl
@[simp] theorem State.recordStore_mem : (s.recordStore page a n).mem = s.mem := by unfold State.recordStore; split <;> rfl
@[simp] theorem State.recordStore_io : (s.recordStore page a n).io = s.io := by unfold State.recordStore; split <;> rfl
@[simp] theorem State.recordStore_tick : (s.recordStore page a n).tick = s.tick := by unfold State.recordStore; split <;> rfl
@[simp] theorem State.recordStore_params : (s.recordStore page a n).params = s.params := by unfold State.recordStore; split <;> rfl

end recordStore

section diagStore
variable (s : State) (a : Nat) (v : Byte)

@[simp] theorem State.diagStore_gr : (s.diagStore a v).gr = s.gr := by unfold State.diagStore; split <;> simp
@[simp] theorem State.diagStore_sr : (s.diagStore a v).sr = s.sr := by unfold State.diagStore; split <;> simp
@[simp] theorem State.diagStore_cr : (s.diagStore a v).cr = s.cr := by unfold State.diagStore; split <;> simp
@[simp] theorem State.diagStore_psw : (s.diagStore a v).psw = s.psw := by unfold State.diagStore; split <;> simp
@[simp] theorem State.diagStore_itlb : (s.diagStore a v).itlb = s.itlb := by unfold State.diagStore; split <;> simp
@[simp] theorem State.diagStore_dtlb : (s.diagStore a v).dtlb = s.dtlb := by unfold State.diagStore; split <;> simp
@[simp] theorem State.diagStore_ic : (s.diagStore a v).ic = s.ic := by unfold State.diagStore; split <;> simp
@[simp] theorem State.diagStore_history : (s.diagStore a v).history = s.history := by unfold State.diagStore; split <;> simp
@[simp] theorem State.diagStore_io : (s.diagStore a v).io = s.io := by unfold State.diagStore; split <;> simp
@[simp] theorem State.diagStore_tick : (s.diagStore a v).tick = s.tick := by unfold State.diagStore; split <;> simp
@[simp] theorem State.diagStore_params : (s.diagStore a v).params = s.params := by unfold State.diagStore; split <;> simp

end diagStore

section purgeCache
variable (s : State) (t f : Bool) (a : Nat)

@[simp] theorem State.purgeCache_gr : (s.purgeCache t f a).gr = s.gr := by unfold State.purgeCache; split <;> [skip; split <;> [skip; split]] <;> simp
@[simp] theorem State.purgeCache_sr : (s.purgeCache t f a).sr = s.sr := by unfold State.purgeCache; split <;> [skip; split <;> [skip; split]] <;> simp
@[simp] theorem State.purgeCache_cr : (s.purgeCache t f a).cr = s.cr := by unfold State.purgeCache; split <;> [skip; split <;> [skip; split]] <;> simp
@[simp] theorem State.purgeCache_psw : (s.purgeCache t f a).psw = s.psw := by unfold State.purgeCache; split <;> [skip; split <;> [skip; split]] <;> simp
@[simp] theorem State.purgeCache_reservation : (s.purgeCache t f a).reservation = s.reservation := by unfold State.purgeCache; split <;> [skip; split <;> [skip; split]] <;> simp
@[simp] theorem State.purgeCache_itlb : (s.purgeCache t f a).itlb = s.itlb := by unfold State.purgeCache; split <;> [skip; split <;> [skip; split]] <;> simp
@[simp] theorem State.purgeCache_dtlb : (s.purgeCache t f a).dtlb = s.dtlb := by unfold State.purgeCache; split <;> [skip; split <;> [skip; split]] <;> simp
@[simp] theorem State.purgeCache_history : (s.purgeCache t f a).history = s.history := by unfold State.purgeCache; split <;> [skip; split <;> [skip; split]] <;> simp
@[simp] theorem State.purgeCache_io : (s.purgeCache t f a).io = s.io := by unfold State.purgeCache; split <;> [skip; split <;> [skip; split]] <;> simp
@[simp] theorem State.purgeCache_tick : (s.purgeCache t f a).tick = s.tick := by unfold State.purgeCache; split <;> [skip; split <;> [skip; split]] <;> simp
@[simp] theorem State.purgeCache_params : (s.purgeCache t f a).params = s.params := by unfold State.purgeCache; split <;> [skip; split <;> [skip; split]] <;> simp

end purgeCache

section cacheAction
variable (s : State) (x : Config.CacheAction)

@[simp] theorem State.cacheAction_gr : (s.cacheAction x).gr = s.gr := by
  cases x <;> simp only [State.cacheAction] <;> (try split) <;> (try split) <;> simp
@[simp] theorem State.cacheAction_sr : (s.cacheAction x).sr = s.sr := by
  cases x <;> simp only [State.cacheAction] <;> (try split) <;> (try split) <;> simp
@[simp] theorem State.cacheAction_cr : (s.cacheAction x).cr = s.cr := by
  cases x <;> simp only [State.cacheAction] <;> (try split) <;> (try split) <;> simp
@[simp] theorem State.cacheAction_psw : (s.cacheAction x).psw = s.psw := by
  cases x <;> simp only [State.cacheAction] <;> (try split) <;> (try split) <;> simp
@[simp] theorem State.cacheAction_reservation : (s.cacheAction x).reservation = s.reservation := by
  cases x <;> simp only [State.cacheAction] <;> (try split) <;> (try split) <;> simp
@[simp] theorem State.cacheAction_itlb : (s.cacheAction x).itlb = s.itlb := by
  cases x <;> simp only [State.cacheAction] <;> (try split) <;> (try split) <;> simp
@[simp] theorem State.cacheAction_dtlb : (s.cacheAction x).dtlb = s.dtlb := by
  cases x <;> simp only [State.cacheAction] <;> (try split) <;> (try split) <;> simp
@[simp] theorem State.cacheAction_history : (s.cacheAction x).history = s.history := by
  cases x <;> simp only [State.cacheAction] <;> (try split) <;> (try split) <;> simp
@[simp] theorem State.cacheAction_io : (s.cacheAction x).io = s.io := by
  cases x <;> simp only [State.cacheAction] <;> (try split) <;> (try split) <;> simp
@[simp] theorem State.cacheAction_tick : (s.cacheAction x).tick = s.tick := by
  cases x <;> simp only [State.cacheAction] <;> (try split) <;> (try split) <;> simp
@[simp] theorem State.cacheAction_params : (s.cacheAction x).params = s.params := by
  cases x <;> simp only [State.cacheAction] <;> (try split) <;> (try split) <;> simp

end cacheAction

@[simp] theorem State.runCacheActions_gr (s : State) (l : List Config.CacheAction) : (s.runCacheActions l).gr = s.gr := by
  induction l generalizing s with
  | nil => rfl
  | cons x l ih => rw [State.runCacheActions, ih]; simp
@[simp] theorem State.runCacheActions_sr (s : State) (l : List Config.CacheAction) : (s.runCacheActions l).sr = s.sr := by
  induction l generalizing s with
  | nil => rfl
  | cons x l ih => rw [State.runCacheActions, ih]; simp
@[simp] theorem State.runCacheActions_cr (s : State) (l : List Config.CacheAction) : (s.runCacheActions l).cr = s.cr := by
  induction l generalizing s with
  | nil => rfl
  | cons x l ih => rw [State.runCacheActions, ih]; simp
@[simp] theorem State.runCacheActions_psw (s : State) (l : List Config.CacheAction) : (s.runCacheActions l).psw = s.psw := by
  induction l generalizing s with
  | nil => rfl
  | cons x l ih => rw [State.runCacheActions, ih]; simp
@[simp] theorem State.runCacheActions_reservation (s : State) (l : List Config.CacheAction) : (s.runCacheActions l).reservation = s.reservation := by
  induction l generalizing s with
  | nil => rfl
  | cons x l ih => rw [State.runCacheActions, ih]; simp
@[simp] theorem State.runCacheActions_itlb (s : State) (l : List Config.CacheAction) : (s.runCacheActions l).itlb = s.itlb := by
  induction l generalizing s with
  | nil => rfl
  | cons x l ih => rw [State.runCacheActions, ih]; simp
@[simp] theorem State.runCacheActions_dtlb (s : State) (l : List Config.CacheAction) : (s.runCacheActions l).dtlb = s.dtlb := by
  induction l generalizing s with
  | nil => rfl
  | cons x l ih => rw [State.runCacheActions, ih]; simp
@[simp] theorem State.runCacheActions_history (s : State) (l : List Config.CacheAction) : (s.runCacheActions l).history = s.history := by
  induction l generalizing s with
  | nil => rfl
  | cons x l ih => rw [State.runCacheActions, ih]; simp
@[simp] theorem State.runCacheActions_io (s : State) (l : List Config.CacheAction) : (s.runCacheActions l).io = s.io := by
  induction l generalizing s with
  | nil => rfl
  | cons x l ih => rw [State.runCacheActions, ih]; simp
@[simp] theorem State.runCacheActions_tick (s : State) (l : List Config.CacheAction) : (s.runCacheActions l).tick = s.tick := by
  induction l generalizing s with
  | nil => rfl
  | cons x l ih => rw [State.runCacheActions, ih]; simp
@[simp] theorem State.runCacheActions_params (s : State) (l : List Config.CacheAction) : (s.runCacheActions l).params = s.params := by
  induction l generalizing s with
  | nil => rfl
  | cons x l ih => rw [State.runCacheActions, ih]; simp
@[simp] theorem State.agentWrites_gr (s : State) (l : List (Nat × Byte)) : (s.agentWrites l).gr = s.gr := by
  induction l generalizing s with
  | nil => rfl
  | cons x l ih => rw [State.agentWrites, ih]; split <;> simp
@[simp] theorem State.agentWrites_sr (s : State) (l : List (Nat × Byte)) : (s.agentWrites l).sr = s.sr := by
  induction l generalizing s with
  | nil => rfl
  | cons x l ih => rw [State.agentWrites, ih]; split <;> simp
@[simp] theorem State.agentWrites_cr (s : State) (l : List (Nat × Byte)) : (s.agentWrites l).cr = s.cr := by
  induction l generalizing s with
  | nil => rfl
  | cons x l ih => rw [State.agentWrites, ih]; split <;> simp
@[simp] theorem State.agentWrites_psw (s : State) (l : List (Nat × Byte)) : (s.agentWrites l).psw = s.psw := by
  induction l generalizing s with
  | nil => rfl
  | cons x l ih => rw [State.agentWrites, ih]; split <;> simp
@[simp] theorem State.agentWrites_itlb (s : State) (l : List (Nat × Byte)) : (s.agentWrites l).itlb = s.itlb := by
  induction l generalizing s with
  | nil => rfl
  | cons x l ih => rw [State.agentWrites, ih]; split <;> simp
@[simp] theorem State.agentWrites_dtlb (s : State) (l : List (Nat × Byte)) : (s.agentWrites l).dtlb = s.dtlb := by
  induction l generalizing s with
  | nil => rfl
  | cons x l ih => rw [State.agentWrites, ih]; split <;> simp
@[simp] theorem State.agentWrites_ic (s : State) (l : List (Nat × Byte)) : (s.agentWrites l).ic = s.ic := by
  induction l generalizing s with
  | nil => rfl
  | cons x l ih => rw [State.agentWrites, ih]; split <;> simp
@[simp] theorem State.agentWrites_dc (s : State) (l : List (Nat × Byte)) : (s.agentWrites l).dc = s.dc := by
  induction l generalizing s with
  | nil => rfl
  | cons x l ih => rw [State.agentWrites, ih]; split <;> simp
@[simp] theorem State.agentWrites_history (s : State) (l : List (Nat × Byte)) : (s.agentWrites l).history = s.history := by
  induction l generalizing s with
  | nil => rfl
  | cons x l ih => rw [State.agentWrites, ih]; split <;> simp
@[simp] theorem State.agentWrites_io (s : State) (l : List (Nat × Byte)) : (s.agentWrites l).io = s.io := by
  induction l generalizing s with
  | nil => rfl
  | cons x l ih => rw [State.agentWrites, ih]; split <;> simp
@[simp] theorem State.agentWrites_tick (s : State) (l : List (Nat × Byte)) : (s.agentWrites l).tick = s.tick := by
  induction l generalizing s with
  | nil => rfl
  | cons x l ih => rw [State.agentWrites, ih]; split <;> simp
@[simp] theorem State.agentWrites_params (s : State) (l : List (Nat × Byte)) : (s.agentWrites l).params = s.params := by
  induction l generalizing s with
  | nil => rfl
  | cons x l ih => rw [State.agentWrites, ih]; split <;> simp
@[simp] theorem State.cacheHardware_gr (s : State) : s.cacheHardware.gr = s.gr := by
  unfold State.cacheHardware; split <;> simp
@[simp] theorem State.ioAgents_gr (s : State) : s.ioAgents.gr = s.gr := by
  unfold State.ioAgents; split <;> simp
@[simp] theorem State.betweenSteps_gr (s : State) : s.betweenSteps.gr = s.gr := by simp [State.betweenSteps]
@[simp] theorem State.cacheHardware_sr (s : State) : s.cacheHardware.sr = s.sr := by
  unfold State.cacheHardware; split <;> simp
@[simp] theorem State.ioAgents_sr (s : State) : s.ioAgents.sr = s.sr := by
  unfold State.ioAgents; split <;> simp
@[simp] theorem State.betweenSteps_sr (s : State) : s.betweenSteps.sr = s.sr := by simp [State.betweenSteps]
@[simp] theorem State.cacheHardware_cr (s : State) : s.cacheHardware.cr = s.cr := by
  unfold State.cacheHardware; split <;> simp
@[simp] theorem State.ioAgents_cr (s : State) : s.ioAgents.cr = s.cr := by
  unfold State.ioAgents; split <;> simp
@[simp] theorem State.betweenSteps_cr (s : State) : s.betweenSteps.cr = s.cr := by simp [State.betweenSteps]
@[simp] theorem State.cacheHardware_psw (s : State) : s.cacheHardware.psw = s.psw := by
  unfold State.cacheHardware; split <;> simp
@[simp] theorem State.ioAgents_psw (s : State) : s.ioAgents.psw = s.psw := by
  unfold State.ioAgents; split <;> simp
@[simp] theorem State.betweenSteps_psw (s : State) : s.betweenSteps.psw = s.psw := by simp [State.betweenSteps]
@[simp] theorem State.cacheHardware_reservation (s : State) : s.cacheHardware.reservation = s.reservation := by
  unfold State.cacheHardware; split <;> simp
@[simp] theorem State.cacheHardware_itlb (s : State) : s.cacheHardware.itlb = s.itlb := by
  unfold State.cacheHardware; split <;> simp
@[simp] theorem State.ioAgents_itlb (s : State) : s.ioAgents.itlb = s.itlb := by
  unfold State.ioAgents; split <;> simp
@[simp] theorem State.cacheHardware_dtlb (s : State) : s.cacheHardware.dtlb = s.dtlb := by
  unfold State.cacheHardware; split <;> simp
@[simp] theorem State.ioAgents_dtlb (s : State) : s.ioAgents.dtlb = s.dtlb := by
  unfold State.ioAgents; split <;> simp
@[simp] theorem State.ioAgents_ic (s : State) : s.ioAgents.ic = s.ic := by
  unfold State.ioAgents; split <;> simp
@[simp] theorem State.ioAgents_dc (s : State) : s.ioAgents.dc = s.dc := by
  unfold State.ioAgents; split <;> simp
@[simp] theorem State.cacheHardware_history (s : State) : s.cacheHardware.history = s.history := by
  unfold State.cacheHardware; split <;> simp
@[simp] theorem State.ioAgents_history (s : State) : s.ioAgents.history = s.history := by
  unfold State.ioAgents; split <;> simp
@[simp] theorem State.betweenSteps_history (s : State) : s.betweenSteps.history = s.history := by simp [State.betweenSteps]
@[simp] theorem State.cacheHardware_io (s : State) : s.cacheHardware.io = s.io := by
  unfold State.cacheHardware; split <;> simp
@[simp] theorem State.ioAgents_io (s : State) : s.ioAgents.io = s.io := by
  unfold State.ioAgents; split <;> simp
@[simp] theorem State.betweenSteps_io (s : State) : s.betweenSteps.io = s.io := by simp [State.betweenSteps]
@[simp] theorem State.cacheHardware_tick (s : State) : s.cacheHardware.tick = s.tick := by
  unfold State.cacheHardware; split <;> simp
@[simp] theorem State.ioAgents_tick (s : State) : s.ioAgents.tick = s.tick := by
  unfold State.ioAgents; split <;> simp
@[simp] theorem State.cacheHardware_params (s : State) : s.cacheHardware.params = s.params := by
  unfold State.cacheHardware; split <;> simp
@[simp] theorem State.ioAgents_params (s : State) : s.ioAgents.params = s.params := by
  unfold State.ioAgents; split <;> simp
@[simp] theorem State.betweenSteps_params (s : State) : s.betweenSteps.params = s.params := by simp [State.betweenSteps]
@[simp] theorem State.betweenSteps_tick (s : State) : s.betweenSteps.tick = s.tick + 1 := rfl
@[simp] theorem State.diagEffect_params (s : State) (e : Config.DiagEffect) : (s.diagEffect e).params = s.params := by
  cases e with
  | insertTlb d _ _ _ | purgeTlb d _ _ => cases d <;> rfl
  | cache x => dsimp only [State.diagEffect]; split <;> simp
  | _ => simp [State.diagEffect]
@[simp] theorem State.diagEffects_params (s : State) (l : List Config.DiagEffect) : (s.diagEffects l).params = s.params := by
  induction l generalizing s with
  | nil => rfl
  | cons x l ih => rw [State.diagEffects, ih]; simp
@[simp] theorem State.diagEffect_tick (s : State) (e : Config.DiagEffect) : (s.diagEffect e).tick = s.tick := by
  cases e with
  | insertTlb d _ _ _ | purgeTlb d _ _ => cases d <;> rfl
  | cache x => dsimp only [State.diagEffect]; split <;> simp
  | _ => simp [State.diagEffect]
@[simp] theorem State.diagEffects_tick (s : State) (l : List Config.DiagEffect) : (s.diagEffects l).tick = s.tick := by
  induction l generalizing s with
  | nil => rfl
  | cons x l ih => rw [State.diagEffects, ih]; simp
/-- The right half of two joined half-words. -/
theorem bits_append_low (v w : BitVec 16) : bits (v ++ w : Word) 0 16 = w := by
  refine BitVec.eq_of_getLsbD_eq fun i hi => ?_
  unfold bits
  rw [BitVec.getLsbD_extractLsb', BitVec.getLsbD_append]
  simp [hi]

/-- A DIAG command leaves the instruction address as it was (R480). -/
theorem State.diagEffects_address (s : State) (l : List Config.DiagEffect) :
    (s.diagEffects l).psw.seg = s.psw.seg ∧ (s.diagEffects l).psw.ofs = s.psw.ofs := by
  induction l generalizing s with
  | nil => exact ⟨rfl, rfl⟩
  | cons x l ih =>
    have h : (s.diagEffect x).psw.seg = s.psw.seg ∧ (s.diagEffect x).psw.ofs = s.psw.ofs := by
      cases x with
      | insertTlb d _ _ _ | purgeTlb d _ _ => cases d <;> exact ⟨rfl, rfl⟩
      | cache x => dsimp only [State.diagEffect]; split <;> simp
      | status v => exact ⟨bits_append_low v s.psw.seg, rfl⟩
      | _ => simp [State.diagEffect]
    rw [State.diagEffects, (ih _).1, (ih _).2]; exact h

/-! ## What the register updates change -/

@[simp] theorem State.readGr_zero (s : State) : s.readGr 0#4 = 0#32 := rfl

/-- Reading a general register after one was written: GR0 stays zero (R31). -/
theorem State.readGr_writeGr (s : State) (r k : GReg) (v : Word) :
    (s.writeGr r v).readGr k = if k = r ∧ r ≠ 0#4 then v else s.readGr k := by
  unfold State.readGr State.writeGr
  by_cases hr : r = 0#4
  · subst hr; simp
  · by_cases hk : k = 0#4
    · subst hk; simp [hr, Ne.symm hr]
    · simp only [hr, hk, if_false, Vector.getElem_set, BitVec.toNat_inj]
      by_cases h : k = r
      · subst h; simp [hr]
      · simp [h, Ne.symm h]

/-- Reading a register other than the one written. -/
theorem State.readGr_writeGr_other {r k : GReg} (h : k ≠ r) (s : State) (v : Word) :
    (s.writeGr r v).readGr k = s.readGr k := by rw [State.readGr_writeGr, if_neg fun c => h c.1]

/-- Reading the register written. -/
theorem State.readGr_writeGr_same (s : State) (r : GReg) (v : Word) :
    (s.writeGr r v).readGr r = if r = 0#4 then 0#32 else v := by
  rw [State.readGr_writeGr]; by_cases h : r = 0#4 <;> simp [h]

theorem State.readSr_writeSr (s : State) (n k : BitVec 3) (v : SegId) :
    (s.writeSr n v).readSr k = if k = n then v else s.readSr k := by
  unfold State.readSr State.writeSr
  simp only [Vector.getElem_set, BitVec.toNat_inj]
  by_cases h : k = n
  · subst h; simp
  · simp [h, Ne.symm h]

@[simp] theorem crValue_crValue (n : BitVec 5) (v : Word) : crValue n (crValue n v) = crValue n v := by
  unfold crValue; split <;> [(rw [BitVec.and_assoc]; rfl); rfl]

theorem State.readCr_writeCr (s : State) (n k : BitVec 5) (v : Word) :
    (s.writeCr n v).readCr k = if k = n then crValue n v else s.readCr k := by
  unfold State.readCr State.writeCr
  simp only [Vector.getElem_set, BitVec.toNat_inj]
  by_cases h : k = n
  · subst h; simp
  · simp [h, Ne.symm h]

/-! ## Accessors through updates that do not concern them -/

@[simp] theorem State.writeGr_readSr (s : State) (r : GReg) (v : Word) (k : BitVec 3) : (s.writeGr r v).readSr k = s.readSr k := by
  simp [State.readSr]
@[simp] theorem State.writeGr_readCr (s : State) (r : GReg) (v : Word) (k : BitVec 5) : (s.writeGr r v).readCr k = s.readCr k := by
  simp [State.readCr]
@[simp] theorem State.writeSr_readGr (s : State) (n : BitVec 3) (v : SegId) (k : GReg) : (s.writeSr n v).readGr k = s.readGr k := by
  simp [State.readGr]
@[simp] theorem State.writeSr_readCr (s : State) (n : BitVec 3) (v : SegId) (k : BitVec 5) : (s.writeSr n v).readCr k = s.readCr k := by
  simp [State.readCr]
@[simp] theorem State.writeCr_readGr (s : State) (n : BitVec 5) (v : Word) (k : GReg) : (s.writeCr n v).readGr k = s.readGr k := by
  simp [State.readGr]
@[simp] theorem State.writeCr_readSr (s : State) (n : BitVec 5) (v : Word) (k : BitVec 3) : (s.writeCr n v).readSr k = s.readSr k := by
  simp [State.readSr]
@[simp] theorem State.setOfs_readGr (s : State) (v : Word) (k : GReg) : (s.setOfs v).readGr k = s.readGr k := by
  simp [State.readGr]
@[simp] theorem State.setOfs_readSr (s : State) (v : Word) (k : BitVec 3) : (s.setOfs v).readSr k = s.readSr k := by
  simp [State.readSr]
@[simp] theorem State.setOfs_readCr (s : State) (v : Word) (k : BitVec 5) : (s.setOfs v).readCr k = s.readCr k := by
  simp [State.readCr]
@[simp] theorem State.advance_readGr (s : State) (k : GReg) : (s.advance).readGr k = s.readGr k := by
  simp [State.readGr]
@[simp] theorem State.advance_readSr (s : State) (k : BitVec 3) : (s.advance).readSr k = s.readSr k := by
  simp [State.readSr]
@[simp] theorem State.advance_readCr (s : State) (k : BitVec 5) : (s.advance).readCr k = s.readCr k := by
  simp [State.readCr]
@[simp] theorem State.setSeg_readGr (s : State) (v : SegId) (k : GReg) : (s.setSeg v).readGr k = s.readGr k := by
  simp [State.readGr]
@[simp] theorem State.setSeg_readSr (s : State) (v : SegId) (k : BitVec 3) : (s.setSeg v).readSr k = s.readSr k := by
  simp [State.readSr]
@[simp] theorem State.setSeg_readCr (s : State) (v : SegId) (k : BitVec 5) : (s.setSeg v).readCr k = s.readCr k := by
  simp [State.readCr]
@[simp] theorem State.setLevel_readGr (s : State) (v : Level) (k : GReg) : (s.setLevel v).readGr k = s.readGr k := by
  simp [State.readGr]
@[simp] theorem State.setLevel_readSr (s : State) (v : Level) (k : BitVec 3) : (s.setLevel v).readSr k = s.readSr k := by
  simp [State.readSr]
@[simp] theorem State.setLevel_readCr (s : State) (v : Level) (k : BitVec 5) : (s.setLevel v).readCr k = s.readCr k := by
  simp [State.readCr]
@[simp] theorem State.setCarry_readGr (s : State) (v : Option Bool) (k : GReg) : (s.setCarry v).readGr k = s.readGr k := by
  simp [State.readGr]
@[simp] theorem State.setCarry_readSr (s : State) (v : Option Bool) (k : BitVec 3) : (s.setCarry v).readSr k = s.readSr k := by
  simp [State.readSr]
@[simp] theorem State.setCarry_readCr (s : State) (v : Option Bool) (k : BitVec 5) : (s.setCarry v).readCr k = s.readCr k := by
  simp [State.readCr]
@[simp] theorem State.setV_readGr (s : State) (v : Bool) (k : GReg) : (s.setV v).readGr k = s.readGr k := by
  simp [State.readGr]
@[simp] theorem State.setV_readSr (s : State) (v : Bool) (k : BitVec 3) : (s.setV v).readSr k = s.readSr k := by
  simp [State.readSr]
@[simp] theorem State.setV_readCr (s : State) (v : Bool) (k : BitVec 5) : (s.setV v).readCr k = s.readCr k := by
  simp [State.readCr]
@[simp] theorem State.clearN_readGr (s : State) (k : GReg) : (s.clearN).readGr k = s.readGr k := by
  simp [State.readGr]
@[simp] theorem State.clearN_readSr (s : State) (k : BitVec 3) : (s.clearN).readSr k = s.readSr k := by
  simp [State.readSr]
@[simp] theorem State.clearN_readCr (s : State) (k : BitVec 5) : (s.clearN).readCr k = s.readCr k := by
  simp [State.readCr]
@[simp] theorem State.setSystemMask_readGr (s : State) (v : BitVec 4) (k : GReg) : (s.setSystemMask v).readGr k = s.readGr k := by
  simp [State.readGr]
@[simp] theorem State.setSystemMask_readSr (s : State) (v : BitVec 4) (k : BitVec 3) : (s.setSystemMask v).readSr k = s.readSr k := by
  simp [State.readSr]
@[simp] theorem State.setSystemMask_readCr (s : State) (v : BitVec 4) (k : BitVec 5) : (s.setSystemMask v).readCr k = s.readCr k := by
  simp [State.readCr]
@[simp] theorem State.takeTrap_readGr (s : State) (t : TrapReq) (k : GReg) : (s.takeTrap t).readGr k = s.readGr k := by
  simp [State.readGr]
@[simp] theorem State.takeTrap_readSr (s : State) (t : TrapReq) (k : BitVec 3) : (s.takeTrap t).readSr k = s.readSr k := by
  simp [State.readSr]
@[simp] theorem State.returnFromTrap_readGr (s : State) (k : GReg) : (s.returnFromTrap).readGr k = s.readGr k := by
  simp [State.readGr]
@[simp] theorem State.returnFromTrap_readSr (s : State) (k : BitVec 3) : (s.returnFromTrap).readSr k = s.readSr k := by
  simp [State.readSr]
@[simp] theorem State.returnFromTrap_readCr (s : State) (k : BitVec 5) : (s.returnFromTrap).readCr k = s.readCr k := by
  simp [State.readCr]
@[simp] theorem State.logIo_readGr (s : State) (e : IoEvent) (k : GReg) : (s.logIo e).readGr k = s.readGr k := by
  simp [State.readGr]
@[simp] theorem State.logIo_readSr (s : State) (e : IoEvent) (k : BitVec 3) : (s.logIo e).readSr k = s.readSr k := by
  simp [State.readSr]
@[simp] theorem State.logIo_readCr (s : State) (e : IoEvent) (k : BitVec 5) : (s.logIo e).readCr k = s.readCr k := by
  simp [State.readCr]
@[simp] theorem State.breakReservation_readGr (s : State) (a : Nat) (k : GReg) : (s.breakReservation a).readGr k = s.readGr k := by
  simp [State.readGr]
@[simp] theorem State.breakReservation_readSr (s : State) (a : Nat) (k : BitVec 3) : (s.breakReservation a).readSr k = s.readSr k := by
  simp [State.readSr]
@[simp] theorem State.breakReservation_readCr (s : State) (a : Nat) (k : BitVec 5) : (s.breakReservation a).readCr k = s.readCr k := by
  simp [State.readCr]
@[simp] theorem State.setDataByte_readGr (s : State) (a : Nat) (v : Byte) (k : GReg) : (s.setDataByte a v).readGr k = s.readGr k := by
  simp [State.readGr]
@[simp] theorem State.setDataByte_readSr (s : State) (a : Nat) (v : Byte) (k : BitVec 3) : (s.setDataByte a v).readSr k = s.readSr k := by
  simp [State.readSr]
@[simp] theorem State.setDataByte_readCr (s : State) (a : Nat) (v : Byte) (k : BitVec 5) : (s.setDataByte a v).readCr k = s.readCr k := by
  simp [State.readCr]
@[simp] theorem State.purgeInstrLine_readGr (s : State) (a : Nat) (k : GReg) : (s.purgeInstrLine a).readGr k = s.readGr k := by
  simp [State.readGr]
@[simp] theorem State.purgeInstrLine_readSr (s : State) (a : Nat) (k : BitVec 3) : (s.purgeInstrLine a).readSr k = s.readSr k := by
  simp [State.readSr]
@[simp] theorem State.purgeInstrLine_readCr (s : State) (a : Nat) (k : BitVec 5) : (s.purgeInstrLine a).readCr k = s.readCr k := by
  simp [State.readCr]
@[simp] theorem State.purgeDataLine_readGr (s : State) (a : Nat) (k : GReg) : (s.purgeDataLine a).readGr k = s.readGr k := by
  simp [State.readGr]
@[simp] theorem State.purgeDataLine_readSr (s : State) (a : Nat) (k : BitVec 3) : (s.purgeDataLine a).readSr k = s.readSr k := by
  simp [State.readSr]
@[simp] theorem State.purgeDataLine_readCr (s : State) (a : Nat) (k : BitVec 5) : (s.purgeDataLine a).readCr k = s.readCr k := by
  simp [State.readCr]
@[simp] theorem State.writeBackLine_readGr (s : State) (a : Nat) (k : GReg) : (s.writeBackLine a).readGr k = s.readGr k := by
  simp [State.readGr]
@[simp] theorem State.writeBackLine_readSr (s : State) (a : Nat) (k : BitVec 3) : (s.writeBackLine a).readSr k = s.readSr k := by
  simp [State.readSr]
@[simp] theorem State.writeBackLine_readCr (s : State) (a : Nat) (k : BitVec 5) : (s.writeBackLine a).readCr k = s.readCr k := by
  simp [State.readCr]
@[simp] theorem State.loseTranslations_readGr (s : State) (k : GReg) : (s.loseTranslations).readGr k = s.readGr k := by
  simp [State.readGr]
@[simp] theorem State.loseTranslations_readSr (s : State) (k : BitVec 3) : (s.loseTranslations).readSr k = s.readSr k := by
  simp [State.readSr]
@[simp] theorem State.loseTranslations_readCr (s : State) (k : BitVec 5) : (s.loseTranslations).readCr k = s.readCr k := by
  simp [State.readCr]
@[simp] theorem State.loseReservation_readGr (s : State) (k : GReg) : (s.loseReservation).readGr k = s.readGr k := by
  simp [State.readGr]
@[simp] theorem State.loseReservation_readSr (s : State) (k : BitVec 3) : (s.loseReservation).readSr k = s.readSr k := by
  simp [State.readSr]
@[simp] theorem State.loseReservation_readCr (s : State) (k : BitVec 5) : (s.loseReservation).readCr k = s.readCr k := by
  simp [State.readCr]
@[simp] theorem State.modifyBase_readSr (s : State) (m : Bool) (b : GReg) (u : Word) (k : BitVec 3) : (s.modifyBase m b u).readSr k = s.readSr k := by
  simp [State.readSr]
@[simp] theorem State.modifyBase_readCr (s : State) (m : Bool) (b : GReg) (u : Word) (k : BitVec 5) : (s.modifyBase m b u).readCr k = s.readCr k := by
  simp [State.readCr]
@[simp] theorem State.setDataValue_readGr (s : State) (a : Nat) (n : Width) (v : Word) (k : GReg) : (s.setDataValue a n v).readGr k = s.readGr k := by
  simp [State.readGr]
@[simp] theorem State.setDataValue_readSr (s : State) (a : Nat) (n : Width) (v : Word) (k : BitVec 3) : (s.setDataValue a n v).readSr k = s.readSr k := by
  simp [State.readSr]
@[simp] theorem State.setDataValue_readCr (s : State) (a : Nat) (n : Width) (v : Word) (k : BitVec 5) : (s.setDataValue a n v).readCr k = s.readCr k := by
  simp [State.readCr]
@[simp] theorem State.recordStore_readGr (s : State) (page a : Nat) (n : Width) (k : GReg) : (s.recordStore page a n).readGr k = s.readGr k := by
  simp [State.readGr]
@[simp] theorem State.recordStore_readSr (s : State) (page a : Nat) (n : Width) (k : BitVec 3) : (s.recordStore page a n).readSr k = s.readSr k := by
  simp [State.readSr]
@[simp] theorem State.recordStore_readCr (s : State) (page a : Nat) (n : Width) (k : BitVec 5) : (s.recordStore page a n).readCr k = s.readCr k := by
  simp [State.readCr]
@[simp] theorem State.diagStore_readGr (s : State) (a : Nat) (v : Byte) (k : GReg) : (s.diagStore a v).readGr k = s.readGr k := by
  simp [State.readGr]
@[simp] theorem State.diagStore_readSr (s : State) (a : Nat) (v : Byte) (k : BitVec 3) : (s.diagStore a v).readSr k = s.readSr k := by
  simp [State.readSr]
@[simp] theorem State.diagStore_readCr (s : State) (a : Nat) (v : Byte) (k : BitVec 5) : (s.diagStore a v).readCr k = s.readCr k := by
  simp [State.readCr]
@[simp] theorem State.purgeCache_readGr (s : State) (t f : Bool) (a : Nat) (k : GReg) : (s.purgeCache t f a).readGr k = s.readGr k := by
  simp [State.readGr]
@[simp] theorem State.purgeCache_readSr (s : State) (t f : Bool) (a : Nat) (k : BitVec 3) : (s.purgeCache t f a).readSr k = s.readSr k := by
  simp [State.readSr]
@[simp] theorem State.purgeCache_readCr (s : State) (t f : Bool) (a : Nat) (k : BitVec 5) : (s.purgeCache t f a).readCr k = s.readCr k := by
  simp [State.readCr]
@[simp] theorem State.cacheAction_readGr (s : State) (x : Config.CacheAction) (k : GReg) : (s.cacheAction x).readGr k = s.readGr k := by
  simp [State.readGr]
@[simp] theorem State.cacheAction_readSr (s : State) (x : Config.CacheAction) (k : BitVec 3) : (s.cacheAction x).readSr k = s.readSr k := by
  simp [State.readSr]
@[simp] theorem State.cacheAction_readCr (s : State) (x : Config.CacheAction) (k : BitVec 5) : (s.cacheAction x).readCr k = s.readCr k := by
  simp [State.readCr]
@[simp] theorem State.cacheHardware_readGr (s : State) (k : GReg) : s.cacheHardware.readGr k = s.readGr k := by
  simp [State.readGr]
@[simp] theorem State.cacheHardware_readSr (s : State) (k : BitVec 3) : s.cacheHardware.readSr k = s.readSr k := by
  simp [State.readSr]
@[simp] theorem State.cacheHardware_readCr (s : State) (k : BitVec 5) : s.cacheHardware.readCr k = s.readCr k := by
  simp [State.readCr]
@[simp] theorem State.ioAgents_readGr (s : State) (k : GReg) : s.ioAgents.readGr k = s.readGr k := by
  simp [State.readGr]
@[simp] theorem State.ioAgents_readSr (s : State) (k : BitVec 3) : s.ioAgents.readSr k = s.readSr k := by
  simp [State.readSr]
@[simp] theorem State.ioAgents_readCr (s : State) (k : BitVec 5) : s.ioAgents.readCr k = s.readCr k := by
  simp [State.readCr]
@[simp] theorem State.betweenSteps_readGr (s : State) (k : GReg) : s.betweenSteps.readGr k = s.readGr k := by
  simp [State.readGr]
@[simp] theorem State.betweenSteps_readSr (s : State) (k : BitVec 3) : s.betweenSteps.readSr k = s.readSr k := by
  simp [State.readSr]
@[simp] theorem State.betweenSteps_readCr (s : State) (k : BitVec 5) : s.betweenSteps.readCr k = s.readCr k := by
  simp [State.readCr]

/-! ## The processor status word -/

@[simp] theorem State.setOfs_psw (s : State) (v : Word) : (s.setOfs v).psw = { s.psw with ofs := v } := rfl
@[simp] theorem State.advance_psw (s : State) : s.advance.psw = { s.psw with ofs := s.psw.ofs + 4#32 } := rfl
@[simp] theorem State.setSeg_psw (s : State) (v : SegId) : (s.setSeg v).psw = { s.psw with seg := v } := rfl
@[simp] theorem State.setLevel_psw (s : State) (v : Level) : (s.setLevel v).psw = { s.psw with x := v } := rfl
@[simp] theorem State.setV_psw (s : State) (v : Bool) : (s.setV v).psw = { s.psw with v := v } := rfl
@[simp] theorem State.clearN_psw (s : State) : s.clearN.psw = { s.psw with n := false } := rfl
@[simp] theorem State.setCarry_some_psw (s : State) (c : Bool) : (s.setCarry (some c)).psw = { s.psw with cb := c } := rfl
@[simp] theorem State.setCarry_none (s : State) : s.setCarry none = s := rfl
@[simp] theorem State.takeTrap_psw (s : State) (t : TrapReq) : (s.takeTrap t).psw = trapPsw (s.readCr 16#5) t.num := rfl
@[simp] theorem State.takeTrap_reservation (s : State) (t : TrapReq) : (s.takeTrap t).reservation = none := rfl
@[simp] theorem State.returnFromTrap_psw (s : State) :
    s.returnFromTrap.psw = Psw.ofWords (s.readCr 17#5) (s.readCr 18#5) := rfl
@[simp] theorem State.returnFromTrap_reservation (s : State) : s.returnFromTrap.reservation = none := rfl
@[simp] theorem State.logIo_io (s : State) (e : IoEvent) : (s.logIo e).io = e :: s.io := rfl

/-- An aligned word is a multiple of four. -/
theorem alignWord_mod (v : Word) : (alignWord v).toNat % 4 = 0 := by
  have h : (alignWord v).extractLsb' 0 2 = 0#2 := by
    ext i hi; interval_cases i <;> simp [alignWord]
  have h2 := congrArg BitVec.toNat h
  simpa [BitVec.extractLsb'_toNat] using h2

/-- A multiple of four is left as it is. -/
theorem alignWord_of_mod {v : Word} (h : v.toNat % 4 = 0) : alignWord v = v := by
  have mask : ∀ j : Fin 32, 2 ≤ j.1 → (0xFFFFFFFC#32).getLsbD j.1 = true := by decide
  refine BitVec.eq_of_getLsbD_eq fun i hi => ?_
  rw [alignWord, BitVec.getLsbD_and]
  by_cases h2 : 2 ≤ i
  · rw [mask ⟨i, hi⟩ h2, Bool.and_true]
  · have : v.getLsbD i = false := by
      rw [BitVec.getLsbD]
      interval_cases i <;> simp [Nat.testBit, Nat.shiftRight_eq_div_pow] <;> omega
    simp [this]


end Sys2Proof.Machine
end

