-- ==== Sys2Proof/Laws/Cache.lean ====
section
/-!
SUPPORT. Sys2Proof/Laws/Cache.lean: a data read after a data write, whatever the cache holds (20_memory.md R162), and what
the data writes and the cache actions keep.
-/

namespace Sys2Proof.Machine

/-! ## Cache lines -/

theorem lineBase_add_index (p : Params) (a : Nat) : lineBase p a + lineIndex p a = a := by
  unfold lineBase lineIndex; exact Nat.div_add_mod' a p.cacheLineBytes

theorem lineIndex_lt {p : Params} (h : 0 < p.cacheLineBytes) (a : Nat) : lineIndex p a < p.cacheLineBytes :=
  Nat.mod_lt _ h

theorem lineBase_mod (p : Params) (a : Nat) : lineBase p a % p.cacheLineBytes = 0 := Nat.mul_mod_left _ _

/-- An address within a line's length of a line address belongs to that line. -/
theorem lineBase_of_within {p : Params} {k a : Nat} (hk : k % p.cacheLineBytes = 0) (h1 : k ≤ a)
    (h2 : a < k + p.cacheLineBytes) : lineBase p a = k := by
  obtain ⟨c, rfl⟩ := Nat.dvd_of_mod_eq_zero hk
  have hL : 0 < p.cacheLineBytes := by omega
  have : a / p.cacheLineBytes = c := by
    rw [Nat.div_eq_iff hL]; constructor <;> [rw [Nat.mul_comm]; (rw [Nat.mul_comm c]; omega)]
    exact h1
  rw [lineBase, this, Nat.mul_comm]

@[simp] theorem length_lineFromMem (p : Params) (mem : List Host.Cell) (base : Nat) :
    (lineFromMem p mem base).length = p.cacheLineBytes := by simp [lineFromMem]

theorem getD_lineFromMem {p : Params} (mem : List Host.Cell) (base : Nat) {i : Nat} (h : i < p.cacheLineBytes) (d : Byte) :
    (lineFromMem p mem base).getD i d = memByte mem (base + i) := by
  simp [lineFromMem, List.getD, h]

/-- The data cache is usable: well formed, and with lines of at least one byte where it is visible. -/
def DataCacheOk (s : State) : Prop :=
  DataCacheWf s.params s.dc ∧ (s.params.cacheVisible = true → 0 < s.params.cacheLineBytes)

theorem Inv.dataCacheOk {s : State} (h : Inv s) : DataCacheOk s := ⟨h.dc, h.line⟩

theorem length_dataLineFor {s : State} (h : DataCacheWf s.params s.dc) (a : Nat) :
    (s.dataLineFor a).data.length = s.params.cacheLineBytes := by
  unfold State.dataLineFor
  cases hf : mapFind (lineBase s.params a) s.dc with
  | none => simp
  | some ln => exact (h.2 _ (mapFind_mem hf)).1

/-- The byte a line brought in for an address holds is the byte a data read sees there. -/
theorem getD_dataLineFor {s : State} (hv : s.params.cacheVisible = true) (hL : 0 < s.params.cacheLineBytes) {a a' : Nat}
    (hb : lineBase s.params a' = lineBase s.params a) :
    (s.dataLineFor a).data.getD (lineIndex s.params a') memDefault = s.dataByte a' := by
  unfold State.dataLineFor State.dataByte
  rw [if_pos hv, hb]
  cases mapFind (lineBase s.params a) s.dc with
  | some ln => rfl
  | none =>
    rw [Option.getD_none, getD_lineFromMem _ _ (lineIndex_lt hL a'), ← hb, lineBase_add_index]

/-! ## A data read after a data write -/

/-- Reading a byte after a data write of a byte (R162). -/
theorem dataByte_setDataByte {s : State} (h : DataCacheOk s) (a a' : Nat) (v : Byte) :
    (s.setDataByte a v).dataByte a' = if a' = a then v else s.dataByte a' := by
  cases hv : s.params.cacheVisible with
  | false => simp [State.setDataByte, State.dataByte, hv, memByte_set]
  | true =>
    have hL := h.2 hv
    have hlen := length_dataLineFor h.1 a
    by_cases hb : lineBase s.params a' = lineBase s.params a
    · have hread : (s.setDataByte a v).dataByte a' =
          ((s.dataLineFor a).data.set (lineIndex s.params a) v).getD (lineIndex s.params a') memDefault := by
        simp [State.setDataByte, State.dataByte, hv, hb, mapFind_set_same]
      have hi := lineIndex_lt hL a
      have h1 := lineBase_add_index s.params a
      have h2 := lineBase_add_index s.params a'
      rw [hread, ← getD_dataLineFor hv hL hb]
      by_cases he : a' = a
      · subst he; simp [List.getD, hlen, hi]
      · have hne : lineIndex s.params a ≠ lineIndex s.params a' := by omega
        simp [List.getD, List.getElem?_set_ne hne, he]
    · have he : a' ≠ a := fun e => hb (by rw [e])
      simp [State.setDataByte, State.dataByte, hv, mapFind_set_other hb, he]

/-- A data write of a byte keeps the data cache well formed. -/
theorem dataCacheWf_setDataByte {s : State} (h : DataCacheWf s.params s.dc) (a : Nat) (v : Byte) :
    DataCacheWf s.params (s.setDataByte a v).dc := by
  unfold State.setDataByte
  split
  · refine ⟨mapWf_set _ _ h.1, fun c hc => ?_⟩
    rcases mem_mapSet hc with hc | hc
    · subst hc; exact ⟨by simpa using length_dataLineFor h a, lineBase_mod _ _⟩
    · exact h.2 c hc
  · exact h

theorem DataCacheOk.setDataByte {s : State} (h : DataCacheOk s) (a : Nat) (v : Byte) : DataCacheOk (s.setDataByte a v) :=
  ⟨by simpa using dataCacheWf_setDataByte h.1 a v, by simpa using h.2⟩

/-- The byte number k, counted from the first address, of the low n bytes of a value (R101). -/
def storedByte (n : Width) (v : Word) (k : Nat) : Byte := v.extractLsb' (8 * (n.bytes - 1 - k)) 8

/-- Reading a byte after a data write of one, two or four bytes (R101, R162). -/
theorem dataByte_setDataValue {s : State} (h : DataCacheOk s) (a : Nat) (n : Width) (v : Word) (a' : Nat) :
    (s.setDataValue a n v).dataByte a' =
      if a ≤ a' ∧ a' < a + n.bytes then storedByte n v (a' - a) else s.dataByte a' := by
  cases n with
  | byte =>
    rw [State.setDataValue, dataByte_setDataByte h]
    by_cases he : a' = a
    · subst he; simp [Width.bytes, storedByte]
    · rw [if_neg he, if_neg (by simp only [Width.bytes]; omega)]
  | half =>
    rw [State.setDataValue, dataByte_setDataByte (h.setDataByte _ _), dataByte_setDataByte h]
    by_cases h1 : a' = a + 1
    · subst h1; simp [Width.bytes, storedByte]
    · by_cases h0 : a' = a
      · subst h0; simp [Width.bytes, storedByte]
      · rw [if_neg h1, if_neg h0, if_neg (by simp only [Width.bytes]; omega)]
  | word =>
    rw [State.setDataValue, dataByte_setDataByte (((h.setDataByte _ _).setDataByte _ _).setDataByte _ _),
      dataByte_setDataByte ((h.setDataByte _ _).setDataByte _ _), dataByte_setDataByte (h.setDataByte _ _),
      dataByte_setDataByte h]
    by_cases h3 : a' = a + 3
    · subst h3; simp [Width.bytes, storedByte]
    · by_cases h2 : a' = a + 2
      · subst h2; simp [Width.bytes, storedByte]
      · by_cases h1 : a' = a + 1
        · subst h1; simp [Width.bytes, storedByte]
        · by_cases h0 : a' = a
          · subst h0; simp [Width.bytes, storedByte]
          · rw [if_neg h3, if_neg h2, if_neg h1, if_neg h0, if_neg (by simp only [Width.bytes]; omega)]

/-- What a data write of one, two or four bytes keeps of the data cache. -/
theorem DataCacheOk.setDataValue {s : State} (h : DataCacheOk s) (a : Nat) (n : Width) (v : Word) :
    DataCacheOk (s.setDataValue a n v) := by
  cases n with
  | byte => exact h.setDataByte _ _
  | half => exact (h.setDataByte _ _).setDataByte _ _
  | word => exact (((h.setDataByte _ _).setDataByte _ _).setDataByte _ _).setDataByte _ _

/-! ## Values and their bytes -/

theorem half_of_bytes (v : Word) : (v.extractLsb' 8 8 ++ v.extractLsb' 0 8).setWidth 32 = v &&& 0xFFFF#32 := by
  refine BitVec.eq_of_getLsbD_eq fun i hi => ?_
  simp only [BitVec.getLsbD_setWidth, BitVec.getLsbD_append, BitVec.getLsbD_extractLsb', BitVec.getLsbD_and]
  interval_cases i <;> simp

theorem word_of_bytes (v : Word) :
    wordOfBytes (v.extractLsb' 24 8) (v.extractLsb' 16 8) (v.extractLsb' 8 8) (v.extractLsb' 0 8) = v := by
  unfold wordOfBytes
  refine BitVec.eq_of_getLsbD_eq fun i hi => ?_
  simp only [BitVec.getLsbD_append, BitVec.getLsbD_extractLsb']
  interval_cases i <;> simp

theorem byte_of_bytes (v : Word) : (v.extractLsb' 0 8).setWidth 32 = v &&& 0xFF#32 := by
  refine BitVec.eq_of_getLsbD_eq fun i hi => ?_
  simp only [BitVec.getLsbD_setWidth, BitVec.getLsbD_extractLsb', BitVec.getLsbD_and]
  interval_cases i <;> simp

/-- A read of the same width at the same address returns the value written, cut to the width (R101, R162, R265). -/
theorem dataValue_setDataValue {s : State} (h : DataCacheOk s) (a : Nat) (n : Width) (v : Word) :
    (s.setDataValue a n v).dataValue a n = truncate n v := by
  have h1 : ∀ k, 0 < k → ¬ (a + k ≤ a) := by omega
  cases n with
  | byte => simpa [State.dataValue, bytesValue, dataByte_setDataValue h, Width.bytes, storedByte, truncate] using byte_of_bytes v
  | half => simpa [State.dataValue, bytesValue, dataByte_setDataValue h, Width.bytes, storedByte, truncate] using half_of_bytes v
  | word => simpa [State.dataValue, bytesValue, dataByte_setDataValue h, Width.bytes, storedByte, truncate] using word_of_bytes v

end Sys2Proof.Machine
end

