-- ==== Sys2Proof/Laws/Invariant.lean ====
section
/-!
SUPPORT. Sys2Proof/Laws/Invariant.lean: every named operation keeps the invariant of the machine, in particular the
canonical form of memory, one lemma per operation.
-/

namespace Sys2Proof.Machine

/-- An update that leaves memory, translations, caches, store records and parameters as they were. -/
theorem Inv.update {s t : State} (h : Inv s) (hm : t.mem = s.mem) (hi : t.itlb = s.itlb) (hd : t.dtlb = s.dtlb)
    (hic : t.ic = s.ic) (hdc : t.dc = s.dc) (hp : t.params = s.params) (hh : t.history = s.history)
    (hz : t.gr[0] = 0#32) (hc : t.cr[2].toNat < 32) (hr : ∀ a, t.reservation = some a → a.toNat % 4 = 0) : Inv t where
  memory := hm ▸ h.memory
  itlb := hi ▸ h.itlb
  dtlb := hd ▸ h.dtlb
  ic := by rw [hp, hic]; exact h.ic
  dc := by rw [hp, hdc]; exact h.dc
  line := by rw [hp]; exact h.line
  coherent := by rw [hp, hdc, hm]; exact h.coherent
  transparent := by rw [hp, hdc, hic]; exact h.transparent
  unrecorded := by rw [hp, hh]; exact h.unrecorded
  zero := hz
  shamt := hc
  reservation := hr

section registers
variable {s : State} (h : Inv s)
include h

theorem Inv.writeGr (r : GReg) (v : Word) : Inv (s.writeGr r v) := by
  refine h.update (by simp) (by simp) (by simp) (by simp) (by simp) (by simp) (by simp) ?_
    (by simpa using h.shamt) (by simpa using h.reservation)
  unfold State.writeGr
  split
  · exact h.zero
  · next hr =>
    have : r.toNat ≠ 0 := fun c => hr (BitVec.eq_of_toNat_eq c)
    simpa [Vector.getElem_set, this] using h.zero

theorem Inv.writeSr (n : BitVec 3) (v : SegId) : Inv (s.writeSr n v) :=
  h.update rfl rfl rfl rfl rfl rfl rfl h.zero h.shamt h.reservation

theorem Inv.writeCr (n : BitVec 5) (v : Word) : Inv (s.writeCr n v) := by
  refine h.update rfl rfl rfl rfl rfl rfl rfl h.zero ?_ h.reservation
  unfold State.writeCr
  rw [Vector.getElem_set]
  split
  · next hn =>
    have : n = 2#5 := BitVec.eq_of_toNat_eq hn
    subst this
    have : ∀ v : Word, (v &&& 0x1F#32).toNat < 32 := fun v => by
      rw [BitVec.toNat_and]; exact Nat.and_lt_two_pow (n := 5) _ (by decide)
    simpa [crValue] using this v
  · exact h.shamt

theorem Inv.setOfs (v : Word) : Inv (s.setOfs v) :=
  h.update rfl rfl rfl rfl rfl rfl rfl h.zero h.shamt h.reservation

theorem Inv.advance : Inv s.advance := h.setOfs _

theorem Inv.setSeg (v : SegId) : Inv (s.setSeg v) :=
  h.update rfl rfl rfl rfl rfl rfl rfl h.zero h.shamt h.reservation

theorem Inv.setLevel (v : Level) : Inv (s.setLevel v) :=
  h.update rfl rfl rfl rfl rfl rfl rfl h.zero h.shamt h.reservation

theorem Inv.setCarry (v : Option Bool) : Inv (s.setCarry v) := by
  cases v
  · exact h
  · exact h.update rfl rfl rfl rfl rfl rfl rfl h.zero h.shamt h.reservation

theorem Inv.setV (v : Bool) : Inv (s.setV v) :=
  h.update rfl rfl rfl rfl rfl rfl rfl h.zero h.shamt h.reservation

theorem Inv.clearN : Inv s.clearN := h.update rfl rfl rfl rfl rfl rfl rfl h.zero h.shamt h.reservation

theorem Inv.setSystemMask (v : BitVec 4) : Inv (s.setSystemMask v) :=
  h.update rfl rfl rfl rfl rfl rfl rfl h.zero h.shamt h.reservation

theorem Inv.modifyBase (m : Bool) (b : GReg) (u : Word) : Inv (s.modifyBase m b u) := by
  unfold State.modifyBase; split <;> [exact h.writeGr b u; exact h]

theorem Inv.logIo (e : IoEvent) : Inv (s.logIo e) :=
  h.update rfl rfl rfl rfl rfl rfl rfl h.zero h.shamt h.reservation

theorem Inv.endReservation : Inv { s with reservation := none } :=
  h.update rfl rfl rfl rfl rfl rfl rfl h.zero h.shamt (by simp)

theorem Inv.reserve {pa : PAddr} (hpa : pa.toNat % 4 = 0) : Inv { s with reservation := some pa } :=
  h.update rfl rfl rfl rfl rfl rfl rfl h.zero h.shamt (by rintro _ ⟨rfl⟩; exact hpa)

theorem Inv.breakReservation (a : Nat) : Inv (s.breakReservation a) := by
  unfold State.breakReservation
  split
  · split <;> [exact h.endReservation; exact h]
  · exact h

theorem Inv.advanceTick (n : Nat) : Inv { s with tick := n } :=
  h.update rfl rfl rfl rfl rfl rfl rfl h.zero h.shamt h.reservation

/-- Trap entry keeps the invariant (60_exceptions.md R551). -/
theorem Inv.takeTrap (t : TrapReq) : Inv (s.takeTrap t) := by
  have h5 := ((((h.writeCr 17#5 s.psw.word0).writeCr 18#5 s.psw.ofs).writeCr 19#5 (trapParm t.p0 1 s.tick)).writeCr 20#5
    (trapParm t.p1 2 s.tick)).writeCr 21#5 (trapParm t.p2 3 s.tick)
  exact h5.update rfl rfl rfl rfl rfl rfl rfl h5.zero h5.shamt (by simp [State.takeTrap])

/-- Return from a trap keeps the invariant (45_system_control.md R485). -/
theorem Inv.returnFromTrap : Inv s.returnFromTrap :=
  h.update rfl rfl rfl rfl rfl rfl rfl h.zero h.shamt (by simp [State.returnFromTrap])

end registers

section translations
variable {s : State} (h : Inv s)
include h

omit h in
theorem vpn_lt (seg : SegId) (ofs : Word) : vpn seg ofs < 2 ^ 34 := (seg ++ bits ofs 14 18).isLt

omit h in
theorem TlbWf.set {tlb : List (Nat × TlbEntry)} (h : TlbWf tlb) {k : Nat} (hk : k < 2 ^ 34) {e : TlbEntry} (he : e.v = true) :
    TlbWf (mapSet k e tlb) :=
  ⟨mapWf_set _ _ h.1, fun c hc => (mem_mapSet hc).elim (fun hc => by subst hc; exact ⟨he, hk⟩) (h.2 c)⟩

omit h in
theorem TlbWf.erase {tlb : List (Nat × TlbEntry)} (h : TlbWf tlb) (k : Nat) : TlbWf (mapErase k tlb) :=
  ⟨mapWf_erase _ h.1, fun c hc => h.2 c (mem_mapErase hc).1⟩

omit h in
theorem TlbWf.filter {tlb : List (Nat × TlbEntry)} (h : TlbWf tlb) (p : Nat × TlbEntry → Bool) : TlbWf (tlb.filter p) :=
  ⟨mapWf_filter p h.1, fun c hc => h.2 c (List.mem_filter.1 hc).1⟩

theorem Inv.setItlb {tlb : List (Nat × TlbEntry)} (ht : TlbWf tlb) : Inv { s with itlb := tlb } :=
  { h with itlb := ht }

theorem Inv.setDtlb {tlb : List (Nat × TlbEntry)} (ht : TlbWf tlb) : Inv { s with dtlb := tlb } :=
  { h with dtlb := ht }

theorem Inv.loseTranslations : Inv s.loseTranslations := by
  unfold State.loseTranslations
  split
  · exact { h with itlb := h.itlb.filter _, dtlb := h.dtlb.filter _ }
  · exact h

theorem Inv.loseReservation : Inv s.loseReservation := by
  unfold State.loseReservation; split <;> [exact h.endReservation; exact h]

end translations

section memory
variable {s : State} (h : Inv s)
include h

/-- Instruction cache lines removed or brought in whole. -/
theorem Inv.setIc {ic : List (Nat × List Byte)} (hi : InstrCacheWf s.params ic)
    (ht : s.params.cacheVisible = false → ic = []) : Inv { s with ic := ic } :=
  { h with ic := hi, transparent := fun hv => ⟨ht hv, (h.transparent hv).2⟩ }

theorem Inv.purgeInstrLine (a : Nat) : Inv (s.purgeInstrLine a) :=
  h.setIc ⟨mapWf_erase _ h.ic.1, fun c hc => h.ic.2 c (mem_mapErase hc).1⟩ fun hv => by
    rw [(h.transparent hv).1]; rfl

theorem Inv.purgeDataLine (a : Nat) : Inv (s.purgeDataLine a) :=
  { h with
    dc := ⟨mapWf_erase _ h.dc.1, fun c hc => h.dc.2 c (mem_mapErase hc).1⟩
    coherent := fun hi c hc => h.coherent hi c (mem_mapErase hc).1
    transparent := fun hv => ⟨(h.transparent hv).1, by
      show mapErase _ s.dc = []
      rw [(h.transparent hv).2]; rfl⟩ }

/-- An entry of the data cache with one line set is that line, or an old line of another address. -/
theorem mem_setLine {k : Nat} {ln : DataLine} {c : Nat × DataLine} (hc : c ∈ mapSet k ln s.dc) :
    c = (k, ln) ∨ (c ∈ s.dc ∧ c.1 ≠ k) := by
  have hf := mapFind_of_mem (mapWf_set k ln h.dc.1) hc
  rw [mapFind_set] at hf
  by_cases he : c.1 = k
  · rw [if_pos he] at hf
    exact .inl (Prod.ext he (Option.some.inj hf).symm)
  · rw [if_neg he] at hf
    exact .inr ⟨mapFind_mem hf, he⟩

/-- A data cache line set in a visible cache. -/
theorem Inv.setLine (hv : s.params.cacheVisible = true) {k : Nat} {ln : DataLine}
    (hl : ln.data.length = s.params.cacheLineBytes) (hk : k % s.params.cacheLineBytes = 0)
    (hc : s.params.ioAgents = false → ln.dirty = false →
      ∀ i < s.params.cacheLineBytes, ln.data.getD i memDefault = memByte s.mem (k + i)) :
    Inv { s with dc := mapSet k ln s.dc } :=
  { h with
    dc := ⟨mapWf_set _ _ h.dc.1, fun c hmem => (mem_mapSet hmem).elim (fun e => by subst e; exact ⟨hl, hk⟩) (h.dc.2 c)⟩
    coherent := fun hi c hmem hd => by
      rcases mem_setLine h hmem with e | ⟨hold, _⟩
      · subst e; exact hc hi hd
      · exact h.coherent hi c hold hd
    transparent := fun hf => absurd (show s.params.cacheVisible = false from hf) (by simp [hv]) }

/-- A data write of one byte keeps the invariant (20_memory.md R162). -/
theorem Inv.setDataByte (a : Nat) (v : Byte) : Inv (s.setDataByte a v) := by
  cases hv : s.params.cacheVisible with
  | true =>
    let ln : DataLine := DataLine.mk ((s.dataLineFor a).data.set (lineIndex s.params a) v) true
    have : s.setDataByte a v = { s with dc := mapSet (lineBase s.params a) ln s.dc } := by
      simp [State.setDataByte, hv, ln]
    rw [this]
    exact h.setLine hv (by simpa [ln] using length_dataLineFor h.dc a) (lineBase_mod _ _) fun _ hd => by simp [ln] at hd
  | false =>
    have : s.setDataByte a v = { s with mem := memSetByte s.mem a v } := by simp [State.setDataByte, hv]
    rw [this]
    have hdc : s.dc = [] := (h.transparent hv).2
    exact { h with
      memory := wf_memSetByte h.memory a v
      coherent := fun _ c hmem => by rw [show State.dc _ = s.dc from rfl, hdc] at hmem; cases hmem }

theorem Inv.setDataValue (a : Nat) (n : Width) (v : Word) : Inv (s.setDataValue a n v) := by
  cases n with
  | byte => exact h.setDataByte _ _
  | half => exact (h.setDataByte _ _).setDataByte _ _
  | word => exact (((h.setDataByte _ _).setDataByte _ _).setDataByte _ _).setDataByte _ _

/-- A recorded store keeps the invariant: with transparent caches none is recorded. -/
theorem Inv.recordStore (page a : Nat) (n : Width) : Inv (s.recordStore page a n) := by
  unfold State.recordStore
  split
  · next hv => exact { h with unrecorded := fun hf => absurd (show s.params.cacheVisible = false from hf) (by simp [hv]) }
  · exact h

/-- A line written back keeps the invariant: memory and the now clean line agree (20_memory.md R164). -/
theorem Inv.writeBackLine (a : Nat) : Inv (s.writeBackLine a) := by
  unfold State.writeBackLine
  split
  · next ln hf =>
    split
    · have hmem := mapFind_mem hf
      have hlen : ln.data.length = s.params.cacheLineBytes := (h.dc.2 _ hmem).1
      have hv : s.params.cacheVisible = true := by
        by_contra hv
        rw [(h.transparent (by simpa using hv)).2] at hmem; cases hmem
      exact { h with
        memory := wf_memSetBytes h.memory _ _
        dc := ⟨mapWf_set _ _ h.dc.1, fun c hc => (mem_mapSet hc).elim
          (fun e => by subst e; exact ⟨hlen, lineBase_mod _ _⟩) (h.dc.2 c)⟩
        coherent := fun hi c hc hd i hlt => by
          show c.2.data.getD i memDefault = memByte (memSetBytes s.mem (lineBase s.params a) ln.data) (c.1 + i)
          have hlt : i < s.params.cacheLineBytes := hlt
          rw [memByte_setBytes, hlen]
          rcases mem_setLine h hc with e | ⟨hold, hne⟩
          · subst e
            rw [if_pos ⟨Nat.le_add_right _ _, by simpa using hlt⟩]; simp
          · have hb := lineBase_of_within (h.dc.2 c hold).2 (Nat.le_add_right c.1 i) (by omega)
            rw [if_neg, h.coherent hi c hold hd i hlt]
            intro hw
            exact hne (hb.symm.trans (lineBase_of_within (lineBase_mod _ _) hw.1 hw.2))
        transparent := fun hf' => absurd (show s.params.cacheVisible = false from hf') (by simp [hv]) }
    · exact h
  · exact h

/-- The cache hardware's actions keep the invariant (20_memory.md R164). -/
theorem Inv.cacheAction (hv : s.params.cacheVisible = true) (x : Config.CacheAction) : Inv (s.cacheAction x) := by
  cases x with
  | fillInstr a =>
    unfold State.cacheAction
    simp only
    split
    · exact h.setIc ⟨mapWf_set _ _ h.ic.1, fun c hc => (mem_mapSet hc).elim
        (fun e => by subst e; exact ⟨length_lineFromMem _ _ _, lineBase_mod _ _⟩) (h.ic.2 c)⟩ fun hf => by simp [hv] at hf
    · exact h
  | fillData a =>
    unfold State.cacheAction
    simp only
    split
    · exact h.setLine hv (length_lineFromMem _ _ _) (lineBase_mod _ _) fun _ _ i hi => getD_lineFromMem _ _ hi _
    · exact h
  | writeBack a => exact h.writeBackLine a
  | dropData a =>
    unfold State.cacheAction
    simp only
    split
    · split <;> [exact h; exact h.purgeDataLine a]
    · exact h
  | dropInstr a => exact h.purgeInstrLine a

omit h in
theorem Inv.runCacheActions {s : State} (h : Inv s) (hv : s.params.cacheVisible = true) (l : List Config.CacheAction) :
    Inv (s.runCacheActions l) := by
  induction l generalizing s with
  | nil => exact h
  | cons x l ih => exact ih (h.cacheAction hv x) (by simpa using hv)

theorem Inv.cacheHardware : Inv s.cacheHardware := by
  unfold State.cacheHardware
  split
  · next hv => exact h.runCacheActions hv _
  · exact h

/-- A byte that an agent writes to memory keeps the invariant, since coherence is not claimed where agents write. -/
theorem Inv.agentByte (ha : s.params.ioAgents = true) (a : Nat) (v : Byte) : Inv { s with mem := memSetByte s.mem a v } :=
  { h with
    memory := wf_memSetByte h.memory a v
    coherent := fun hf => absurd (show s.params.ioAgents = false from hf) (by simp [ha]) }

omit h in
theorem Inv.agentWrites {s : State} (h : Inv s) (ha : s.params.ioAgents = true) (l : List (Nat × Byte)) :
    Inv (s.agentWrites l) := by
  induction l generalizing s with
  | nil => exact h
  | cons x l ih =>
    unfold State.agentWrites
    split
    · exact ih ((h.agentByte ha _ _).breakReservation _) (by simpa using ha)
    · exact ih h ha

theorem Inv.ioAgents : Inv s.ioAgents := by
  unfold State.ioAgents
  split
  · next ha => exact h.agentWrites ha _
  · exact h

/-- What happens between two steps keeps the invariant. -/
theorem Inv.betweenSteps : Inv s.betweenSteps :=
  h.cacheHardware.loseTranslations.loseReservation.ioAgents.advanceTick _

theorem Inv.purgeCache (t f : Bool) (pa : Nat) : Inv (s.purgeCache t f pa) := by
  unfold State.purgeCache
  split
  · exact h
  · split
    · exact h.purgeInstrLine pa
    · split <;> [exact (h.writeBackLine pa).purgeDataLine pa; exact h.purgeDataLine pa]

/-- A DIAG command's effects keep the invariant (45_system_control.md R480). -/
theorem Inv.diagEffect (e : Config.DiagEffect) : Inv (s.diagEffect e) := by
  cases e with
  | gr r v => exact h.writeGr r v
  | sr n v => exact h.writeSr n v
  | cr n v => exact h.writeCr n v
  | status v => exact h.update rfl rfl rfl rfl rfl rfl rfl h.zero h.shamt h.reservation
  | mem pa v =>
    dsimp only [State.diagEffect, State.diagStore]
    split <;> [exact (h.setDataByte _ _).breakReservation _; exact h]
  | insertTlb d seg ofs arg =>
    cases d <;> [exact h.setItlb (h.itlb.set (vpn_lt _ _) rfl); exact h.setDtlb (h.dtlb.set (vpn_lt _ _) rfl)]
  | purgeTlb d seg ofs => cases d <;> [exact h.setItlb (h.itlb.erase _); exact h.setDtlb (h.dtlb.erase _)]
  | cache x =>
    dsimp only [State.diagEffect]
    split <;> [exact h.cacheAction ‹_› x; exact h]
  | purgeData pa => exact h.purgeCache _ _ _
  | endReservation => exact h.endReservation
  | device pa v => exact h.logIo _

omit h in
theorem Inv.diagEffects {s : State} (h : Inv s) (l : List Config.DiagEffect) : Inv (s.diagEffects l) := by
  induction l generalizing s with
  | nil => exact h
  | cons x l ih => exact ih (h.diagEffect x)

end memory

section accesses
variable {s : State} (h : Inv s)
include h

theorem Inv.physRead {page : Nat} {pa : PAddr} {n : Width} {v : Word} {t : State}
    (hr : s.physRead page pa n = .ok v t) : Inv t := by
  unfold State.physRead at hr
  split at hr
  · cases hr; exact h
  · cases hr; exact h.logIo _
  · cases hr

theorem Inv.physWrite {page : Nat} {pa : PAddr} {n : Width} {v : Word} {t : State}
    (hw : s.physWrite page pa n v = .ok () t) : Inv t := by
  unfold State.physWrite at hw
  split at hw
  · cases hw; exact ((h.recordStore _ _ _).setDataValue _ _ _).breakReservation _
  · cases hw; exact (h.logIo _).breakReservation _
  · cases hw

theorem Inv.memRead {w : Word} {seg : SegId} {ofs : Word} {n : Width} {q : ReadResult} {t : State}
    (hr : s.memRead w seg ofs n = .ok q t) : Inv t := by
  unfold State.memRead at hr
  split at hr
  · cases hr
  · split at hr
    · next hp => cases hr; exact h.physRead hp
    · cases hr
    · cases hr

theorem Inv.memWrite {w : Word} {seg : SegId} {ofs : Word} {n : Width} {v : Word} {t : State}
    (hw : s.memWrite w seg ofs n v = .ok () t) : Inv t := by
  unfold State.memWrite at hw
  split at hw
  · cases hw
  · exact h.physWrite hw

theorem Inv.fetchPhys {pa : PAddr} {w : Word} {t : State} (hf : s.fetchPhys pa = .ok w t) : Inv t := by
  unfold State.fetchPhys at hf
  split at hf
  · cases hf; exact h
  · cases hf; exact h.logIo _
  · cases hf

theorem Inv.demote (e : TlbEntry) : Inv (s.demote e) := by
  unfold State.demote; split <;> [exact h.setLevel _; exact h]

theorem Inv.fetch {w : Word} {t : State} (hf : s.fetch = .ok w t) : Inv t := by
  unfold State.fetch at hf
  split at hf
  · exact h.fetchPhys hf
  · split at hf
    · cases hf
    · split at hf
      · cases hf
      · exact (h.demote _).fetchPhys hf

end accesses

/-- A translated or untranslated address of an aligned word is aligned (20_memory.md R106). -/
theorem absolute_mod {ofs : Word} (h : ofs.toNat % 4 = 0) : (absolute ofs).toNat % 4 = 0 := by
  simp [absolute, h]

theorem address_mod (e : TlbEntry) {ofs : Word} (h : ofs.toNat % 4 = 0) : (e.address ofs).toNat % 4 = 0 := by
  have h1 : (e.address ofs).toNat = e.ppn.toNat * 2 ^ 14 + ofs.toNat % 2 ^ 14 := by
    unfold TlbEntry.address bits
    rw [BitVec.toNat_append, ← Nat.shiftLeft_add_eq_or_of_lt (BitVec.isLt _), Nat.shiftLeft_eq]
    simp
  rw [h1]; omega

/-- A word read that passes the checks is at an aligned physical address. -/
theorem readCheck_mod {s : State} {w : Word} {seg : SegId} {ofs : Word} {plan : ReadPlan}
    (h : s.readCheck w seg ofs .word = .ok plan) : plan.pa.toNat % 4 = 0 := by
  unfold State.readCheck at h
  split at h
  · cases h
  · next ha =>
    have ha : ofs.toNat % 4 = 0 := by simpa [aligned, Width.bytes] using ha
    split at h
    · cases h; exact absolute_mod ha
    · repeat (split at h <;> try cases h)
      exact address_mod _ ha

end Sys2Proof.Machine
end

