-- ==== Sys2Proof/Laws/Alias.lean ====
section
/-!
SUPPORT. Sys2Proof/Laws/Alias.lean: what a data read sees of stores made through other virtual addresses of the physical
page it reads (20_memory.md R161; 93_implementation_defined.md U37).
-/

namespace Sys2Proof.Machine

/-! ## The bytes of a value -/

/-- Values of equal bytes are equal. -/
theorem bytesValue_congr {f g : Nat → Byte} {a : Nat} {n : Width} (h : ∀ k, a ≤ k → k < a + n.bytes → f k = g k) :
    bytesValue f a n = bytesValue g a n := by
  cases n with
  | byte => simp [bytesValue, h a (Nat.le_refl _) (by simp [Width.bytes])]
  | half => simp [bytesValue, h a (Nat.le_refl _) (by simp [Width.bytes]), h (a + 1) (by omega) (by simp [Width.bytes])]
  | word =>
    simp [bytesValue, h a (Nat.le_refl _) (by simp [Width.bytes]), h (a + 1) (by omega) (by simp [Width.bytes]),
      h (a + 2) (by omega) (by simp [Width.bytes]), h (a + 3) (by omega) (by simp [Width.bytes])]

/-! ## What a page sees -/

/-- Where every store to a byte went through the page itself, it sees the byte. -/
theorem aliasView_own {page upTo a : Nat} {l : List StoreRecord} (h : ∀ e ∈ l, e.pa = a → e.page = page) (cur : Byte) :
    aliasView page upTo a l cur = cur := by
  induction l with
  | nil => rfl
  | cons e l ih =>
    unfold aliasView
    by_cases he : e.pa = a
    · rw [if_pos he, if_pos (.inl (h e (.head _) he))]
    · rw [if_neg he]; exact ih fun x hx => h x (.tail _ hx)

/-- Stores to other bytes are not looked at. -/
theorem aliasView_skip {page upTo a : Nat} {l : List StoreRecord} (h : ∀ e ∈ l, e.pa ≠ a) (l' : List StoreRecord) (cur : Byte) :
    aliasView page upTo a (l ++ l') cur = aliasView page upTo a l' cur := by
  induction l with
  | nil => rfl
  | cons e l ih =>
    rw [List.cons_append, aliasView, if_neg (h e (.head _))]
    exact ih fun x hx => h x (.tail _ hx)

theorem viewByte_transparent {s : State} (h : s.params.cacheVisible = false) (page a : Nat) :
    s.viewByte page a = s.dataByte a := by simp [State.viewByte, h]

theorem viewByte_own {s : State} {page a : Nat} (h : ∀ e ∈ s.history, e.pa = a → e.page = page) :
    s.viewByte page a = s.dataByte a := by
  unfold State.viewByte; split <;> [exact aliasView_own h _; rfl]

/-- What a data read gives (20_memory.md R161, R162). -/
theorem viewValue_recent {s : State} {page pa : Nat} {n : Width}
    (h : s.params.cacheVisible = false ∨ ∀ e ∈ s.history, pa ≤ e.pa → e.pa < pa + n.bytes → e.page = page) :
    s.viewValue page pa n = s.dataValue pa n :=
  bytesValue_congr fun _ h1 h2 => h.elim (fun hv => viewByte_transparent hv _ _)
    fun hh => viewByte_own fun e he hp => hh e he (hp ▸ h1) (hp ▸ h2)

/-! ## A store through a page -/

@[simp] theorem recordStore_dataByte (s : State) (page a : Nat) (n : Width) (a' : Nat) :
    (s.recordStore page a n).dataByte a' = s.dataByte a' := by simp [State.dataByte]

theorem DataCacheOk.recordStore {s : State} (h : DataCacheOk s) (page a : Nat) (n : Width) :
    DataCacheOk (s.recordStore page a n) := by simpa [DataCacheOk] using h

/-- The record of stores after a store. -/
theorem recordStore_history (s : State) (page a : Nat) (n : Width) :
    (s.recordStore page a n).history =
      (if s.params.cacheVisible then
        (List.range n.bytes).map fun k => { pa := a + k, page := page, time := s.tick, old := s.dataByte (a + k) }
      else []) ++ s.history := by
  unfold State.recordStore; split <;> simp [*]

/-- What a page sees of a byte that another store has just been recorded for. -/
theorem aliasView_stored {page page' upTo pa a tick : Nat} {f : Nat → Byte} (l : List StoreRecord) (cur : Byte) {m : Nat}
    (h1 : pa ≤ a) (h2 : a < pa + m) :
    aliasView page upTo a (((List.range m).map fun k => StoreRecord.mk (pa + k) page' tick (f (pa + k))) ++ l) cur =
      if page' = page ∨ tick < upTo then cur else aliasView page upTo a l (f a) := by
  induction m generalizing l with
  | zero => omega
  | succ m ih =>
    rw [List.range_succ, List.map_append, List.append_assoc]
    by_cases hm : a < pa + m
    · rw [ih _ hm, aliasView_skip (by simp; omega)]
    · have ha : a = pa + m := by omega
      subst ha
      rw [aliasView_skip (by simp; omega)]
      simp [aliasView]

/-- What a page sees of a byte after a store through a page: the stored byte, or, through another page, perhaps what it saw
before (93_implementation_defined.md U37). -/
theorem viewByte_write {s : State} (h : DataCacheOk s) (page page' pa a : Nat) (n : Width) (v : Word) :
    ((s.recordStore page' pa n).setDataValue pa n v).viewByte page a =
      if (pa ≤ a ∧ a < pa + n.bytes) ∧
          (s.params.cacheVisible = false ∨ page' = page ∨ s.tick < Config.aliasTime s.tick) then
        storedByte n v (a - pa)
      else s.viewByte page a := by
  have hd := dataByte_setDataValue (h.recordStore page' pa n) pa n v a
  unfold State.viewByte
  simp only [State.setDataValue_params, State.recordStore_params, State.setDataValue_tick, State.recordStore_tick,
    State.setDataValue_history, recordStore_history, hd, recordStore_dataByte]
  by_cases hv : s.params.cacheVisible = true
  · simp only [hv, if_true, reduceCtorEq, false_or]
    by_cases hr : pa ≤ a ∧ a < pa + n.bytes
    · rw [aliasView_stored _ _ hr.1 hr.2]; simp [hr]
    · rw [aliasView_skip (by simp; omega)]; simp [hr]
  · simp [hv]

/-- The value a page sees after a store: the new one, or, through another page, perhaps what it saw before
(93_implementation_defined.md U37). -/
theorem viewValue_write {s : State} (h : DataCacheOk s) (page page' pa : Nat) (n : Width) (v : Word) :
    ((s.recordStore page' pa n).setDataValue pa n v).viewValue page pa n =
      if s.params.cacheVisible = false ∨ page' = page ∨ s.tick < Config.aliasTime s.tick then truncate n v
      else s.viewValue page pa n := by
  split
  · next hc =>
    rw [← dataValue_setDataValue (h.recordStore page' pa n) pa n v]
    refine bytesValue_congr fun k h1 h2 => ?_
    rw [viewByte_write h, dataByte_setDataValue (h.recordStore _ _ _)]
    simp [h1, h2, hc]
  · next hc => exact bytesValue_congr fun k _ _ => by rw [viewByte_write h, if_neg fun x => hc x.2]

/-- The value a page sees right after a store through it (20_memory.md R162). -/
theorem viewValue_write_same {s : State} (h : DataCacheOk s) (page pa : Nat) (n : Width) (v : Word) :
    ((s.recordStore page pa n).setDataValue pa n v).viewValue page pa n = truncate n v := by simp [viewValue_write h]

end Sys2Proof.Machine
end

