-- ==== Sys2Proof/Laws/Encoding.lean ====
section
/-!
SUPPORT. Sys2Proof/Laws/Encoding.lean: the laws of field extraction and field placement, from which the agreement of
decoder and encoder follows.
-/

namespace Sys2Proof

/-- Field extraction distributes over the union of fields. -/
@[simp] theorem bits_or (v w : Word) (lo n : Nat) : bits (v ||| w) lo n = bits v lo n ||| bits w lo n := by
  unfold bits
  refine BitVec.eq_of_getLsbD_eq fun i hi => ?_
  simp only [BitVec.getLsbD_extractLsb', BitVec.getLsbD_or]
  cases decide (i < n) <;> simp

@[simp] theorem bitAt_or (v w : Word) (i : Nat) : bitAt (v ||| w) i = (bitAt v i || bitAt w i) := by
  simp [bitAt, BitVec.getLsbD_or]

theorem getLsbD_put {m : Nat} (lo : Nat) (v : BitVec m) (i : Nat) :
    (put lo v).getLsbD i = (decide (i < 32) && decide (lo ≤ i) && v.getLsbD (i - lo)) := by
  unfold put
  rw [BitVec.getLsbD_shiftLeft, BitVec.getLsbD_setWidth]
  by_cases h1 : i < 32
  · by_cases h2 : lo ≤ i
    · simp [h1, h2, show i - lo < 32 by omega, show ¬ i < lo by omega]
    · simp [h2, show i < lo by omega]
  · simp [h1]

/-- The field read where it was placed. -/
theorem bits_put_same {n : Nat} (lo : Nat) (v : BitVec n) (h : lo + n ≤ 32) : bits (put lo v) lo n = v := by
  refine BitVec.eq_of_getLsbD_eq fun i hi => ?_
  rw [bits, BitVec.getLsbD_extractLsb', getLsbD_put]
  have h1 : lo + i < 32 := by omega
  simp [hi, h1]

/-- A field placed above the one read does not show. -/
theorem bits_put_above {m : Nat} (lo' : Nat) (v : BitVec m) (lo n : Nat) (h : lo + n ≤ lo') :
    bits (put lo' v) lo n = 0#n := by
  refine BitVec.eq_of_getLsbD_eq fun i hi => ?_
  rw [bits, BitVec.getLsbD_extractLsb', getLsbD_put]
  have h1 : ¬ lo' ≤ lo + i := by omega
  simp [h1]

/-- A field placed below the one read does not show. -/
theorem bits_put_below {m : Nat} (lo' : Nat) (v : BitVec m) (lo n : Nat) (h : lo' + m ≤ lo) :
    bits (put lo' v) lo n = 0#n := by
  refine BitVec.eq_of_getLsbD_eq fun i hi => ?_
  rw [bits, BitVec.getLsbD_extractLsb', getLsbD_put, BitVec.getLsbD_of_ge v _ (by omega)]
  simp

/-- Part of a placed field. -/
theorem bits_put_part {m : Nat} (lo : Nat) (v : BitVec m) (k n : Nat) (h : lo + m ≤ 32) (h2 : k + n ≤ m) :
    bits (put lo v) (lo + k) n = v.extractLsb' k n := by
  refine BitVec.eq_of_getLsbD_eq fun i hi => ?_
  rw [bits, BitVec.getLsbD_extractLsb', getLsbD_put, BitVec.getLsbD_extractLsb']
  have h1 : lo + k + i < 32 := by omega
  have h3 : lo ≤ lo + k + i := by omega
  have h4 : lo + k + i - lo = k + i := by omega
  simp [h1, h3, h4]

theorem bitAt_eq_bits (w : Word) (i : Nat) : bitAt w i = (bits w i 1).getLsbD 0 := by
  simp [bitAt, bits]

@[simp] theorem bit_getLsbD (c : Bool) : (bit c).getLsbD 0 = c := by cases c <;> rfl

/-- The bit read where it was placed. -/
theorem bitAt_put_bit (i : Nat) (c : Bool) (h : i < 32) : bitAt (put i (bit c)) i = c := by
  rw [bitAt_eq_bits, bits_put_same i (bit c) (by omega), bit_getLsbD]

/-- A bit outside a placed field. -/
theorem bitAt_put_outside {m : Nat} (lo : Nat) (v : BitVec m) (i : Nat) (h : i < lo ∨ lo + m ≤ i) :
    bitAt (put lo v) i = false := by
  rw [bitAt, getLsbD_put]
  rcases h with h | h
  · simp [show ¬ lo ≤ i by omega]
  · rw [BitVec.getLsbD_of_ge v _ (by omega)]; simp

@[simp] theorem Cond.ofBits_toBits (c : Cond) : Cond.ofBits c.toBits = c := by cases c <;> rfl

theorem Cond.toBits_ofBits (c : BitVec 2) : (Cond.ofBits c).toBits = c := by
  have : ∀ c : BitVec 2, (Cond.ofBits c).toBits = c := by decide
  exact this c

end Sys2Proof
end

