-- ==== Sys2Proof/Laws/Ops.lean ====
section
/-!
SUPPORT. Sys2Proof/Laws/Ops.lean: for each shared operation, once, everything it can do.
-/

namespace Sys2Proof.Machine

/-! ## Traps and answers -/

/-- A raised trap answers a next state. -/
theorem raise_eq (s : State) (q : TrapReq) : s.raise q = .next (s.takeTrap q) := rfl

theorem trapPsw_word0 (base : Word) (num : BitVec 5) : (trapPsw base num).word0 = 0#32 := by
  simp [trapPsw, Psw.ofWords, Psw.word0, bitAt, bits, bit]

/-- What trap entry does (60_exceptions.md R551). -/
theorem takeTrap_trapped (s : State) (q : TrapReq) : Trapped q s (s.takeTrap q) where
  savedStatus := by simp [State.takeTrap, State.readCr, State.writeCr, crValue]
  savedOffset := by simp [State.takeTrap, State.readCr, State.writeCr, crValue]
  p0 := by intro v h; simp [State.takeTrap, State.readCr, State.writeCr, crValue, trapParm, h]
  p1 := by intro v h; simp [State.takeTrap, State.readCr, State.writeCr, crValue, trapParm, h]
  p2 := by intro v h; simp [State.takeTrap, State.readCr, State.writeCr, crValue, trapParm, h]
  otherCr := by
    intro n h
    simp only [List.mem_cons, List.not_mem_nil, or_false, not_or] at h
    obtain ⟨h1, h2, h3, h4, h5⟩ := h
    have e : ∀ t : State, ∀ p : Psw, State.readCr { t with psw := p, reservation := none } n = t.readCr n := fun _ _ => rfl
    rw [State.takeTrap, e, State.readCr_writeCr, if_neg h5, State.readCr_writeCr, if_neg h4, State.readCr_writeCr,
      if_neg h3, State.readCr_writeCr, if_neg h2, State.readCr_writeCr, if_neg h1]
  status := trapPsw_word0 _ _
  vector := by
    refine BitVec.eq_of_toNat_eq ?_
    simp [trapPsw, BitVec.toNat_add, BitVec.toNat_mul, Nat.mod_eq_of_lt (show q.num.toNat < 4294967296 by omega)]
  reservation := rfl
  gr := rfl
  sr := rfl
  itlb := rfl
  dtlb := rfl
  ic := rfl
  dc := rfl
  data := fun _ => rfl
  backing := fun _ => rfl
  history := rfl
  io := rfl
  tick := rfl
  params := rfl

/-- Going on after an access: the access gave a value, or its trap was raised. -/
theorem run_next {α : Type} {x : Access α} {s t : State} {k : α → State → Result} (h : x.run s k = .next t) :
    (∃ a s', x = .ok a s' ∧ k a s' = .next t) ∨ ∃ q, x = .trap q ∧ t = s.takeTrap q := by
  cases x with
  | ok a s' => exact .inl ⟨a, s', rfl, h⟩
  | trap q => exact .inr ⟨q, rfl, by cases h; rfl⟩
  | fault f => cases h

/-- A privileged instruction runs in privileged mode and takes trap 6 in user mode (60_exceptions.md R562). -/
theorem ifPrivileged_next {s t : State} {w : Word} {k : Result} (h : s.ifPrivileged w k = .next t) :
    (s.psw.x = 0#1 ∧ k = .next t) ∨ (s.psw.x ≠ 0#1 ∧ t = s.takeTrap (privilegedOperation w)) := by
  unfold State.ifPrivileged State.privileged at h
  split at h
  · next hx => exact .inl ⟨by simpa using hx, h⟩
  · next hx => exact .inr ⟨by simpa using hx, by cases h; rfl⟩

/-- An instruction ends, or takes the trap a data read left (60_exceptions.md R567). -/
theorem finish_next {s t : State} {late : Option TrapReq} (h : s.finish late = .next t) :
    (late = none ∧ t = s) ∨ ∃ q, late = some q ∧ t = s.takeTrap q := by
  cases late with
  | none => exact .inl ⟨rfl, by cases h; rfl⟩
  | some q => exact .inr ⟨q, rfl, by cases h; rfl⟩

/-! ## Physical accesses -/

/-- A physical read leaves the state as it was, or records one access to I/O space (20_memory.md R152). -/
theorem physRead_ok {s t : State} {page : Nat} {pa : PAddr} {n : Width} {v : Word}
    (h : s.physRead page pa n = .ok v t) :
    (regionOf s.params pa.toNat n.bytes = .memory ∧ v = s.viewValue page pa.toNat n ∧ t = s) ∨
    (regionOf s.params pa.toNat n.bytes = .io ∧ t = s.logIo (.read pa.toNat n)) := by
  unfold State.physRead at h
  split at h
  · next hr => cases h; exact .inl ⟨hr, rfl, rfl⟩
  · next hr => cases h; exact .inr ⟨hr, rfl⟩
  · cases h

/-- A physical access raises no trap. -/
theorem physRead_no_trap (s : State) (page : Nat) (pa : PAddr) (n : Width) (q : TrapReq) : s.physRead page pa n ≠ .trap q := by
  unfold State.physRead; split <;> simp

theorem physWrite_no_trap (s : State) (page : Nat) (pa : PAddr) (n : Width) (v : Word) (q : TrapReq) :
    s.physWrite page pa n v ≠ .trap q := by
  unfold State.physWrite; split <;> simp

/-- A physical write stores to memory or records one access to I/O space, and ends a reservation on its word
(20_memory.md R151, R152). -/
theorem physWrite_ok {s t : State} {page : Nat} {pa : PAddr} {n : Width} {v : Word}
    (h : s.physWrite page pa n v = .ok () t) :
    (regionOf s.params pa.toNat n.bytes = .memory ∧
      t = ((s.recordStore page pa.toNat n).setDataValue pa.toNat n v).breakReservation pa.toNat) ∨
    (regionOf s.params pa.toNat n.bytes = .io ∧
      t = (s.logIo (.write pa.toNat n (truncate n v))).breakReservation pa.toNat) := by
  unfold State.physWrite at h
  split at h
  · next hr => cases h; exact .inl ⟨hr, rfl⟩
  · next hr => cases h; exact .inr ⟨hr, rfl⟩
  · cases h

/-- A data read gives the value its checks lead to (20_memory.md R150). -/
theorem memRead_ok {s t : State} {w : Word} {seg : SegId} {ofs : Word} {n : Width} {q : ReadResult}
    (h : s.memRead w seg ofs n = .ok q t) :
    s.readCheck w seg ofs n = .ok { pa := q.pa, late := q.late } ∧ s.physRead (s.pageKey seg ofs) q.pa n = .ok q.value t := by
  unfold State.memRead at h
  split at h
  · cases h
  · next plan hp =>
    split at h
    · next v s' hr => cases h; exact ⟨hp, hr⟩
    · cases h
    · cases h

/-- A data read traps only where its checks do (20_memory.md R150). -/
theorem memRead_trap {s : State} {w : Word} {seg : SegId} {ofs : Word} {n : Width} {q : TrapReq} :
    s.memRead w seg ofs n = .trap q ↔ s.readCheck w seg ofs n = .error q := by
  unfold State.memRead
  split
  · next t ht => simp [ht]
  · next plan hp =>
    rw [hp]
    split
    · simp
    · next t ht => exact absurd ht (physRead_no_trap _ _ _ _ _)
    · simp

/-- A reservation after a write (40_memory_reference.md R281). -/
theorem breakReservation_after (s : State) (a : Nat) : ReservationAfterWrite a s (s.breakReservation a) where
  ended := by intro r h1 h2; simp [State.breakReservation, h1, sameWord, h2]
  kept := by intro r h1 h2; simp [State.breakReservation, h1, sameWord, h2]
  none := by intro h; simp [State.breakReservation, h]

@[simp] theorem breakReservation_dataByte (s : State) (a a' : Nat) : (s.breakReservation a).dataByte a' = s.dataByte a' := by
  simp [State.dataByte]

@[simp] theorem breakReservation_dataValue (s : State) (a a' : Nat) (n : Width) :
    (s.breakReservation a).dataValue a' n = s.dataValue a' n := by
  cases n <;> simp [State.dataValue, bytesValue]

@[simp] theorem breakReservation_viewByte (s : State) (a page a' : Nat) :
    (s.breakReservation a).viewByte page a' = s.viewByte page a' := by simp [State.viewByte]

@[simp] theorem breakReservation_viewValue (s : State) (a page a' : Nat) (n : Width) :
    (s.breakReservation a).viewValue page a' n = s.viewValue page a' n := by
  cases n <;> simp [State.viewValue, bytesValue]

/-- Data memory after a data write to memory (20_memory.md R101, R161, R162). -/
theorem physWrite_stores {s : State} (h : DataCacheOk s) (page : Nat) (pa : PAddr) (n : Width) (v : Word) :
    Stores page pa.toNat n v s
      (((s.recordStore page pa.toNat n).setDataValue pa.toNat n v).breakReservation pa.toNat) where
  value := by rw [breakReservation_dataValue]; exact dataValue_setDataValue (h.recordStore _ _ _) _ _ _
  seen := by rw [breakReservation_viewValue]; exact viewValue_write_same h _ _ _ _
  outside := fun a' ha => by
    rw [breakReservation_dataByte, dataByte_setDataValue (h.recordStore _ _ _), if_neg ha, recordStore_dataByte]
  history := by simp [recordStore_history]

/-! ## Operands and results -/

/-- An operand is an immediate, a register or a memory operand (43_computational_operand.md R371); fetching it leaves the
state as it was, or records one access to I/O space. -/
theorem operand_ok {s t : State} {w : Word} {r : GReg} {opd : Operand} {q : Inputs} (h : s.operand w r opd = .ok q t) :
    t = s ∨ ∃ e, t = s.logIo e := by
  have mem : ∀ dw ofs, s.memOperand w r dw ofs = .ok q t → t = s ∨ ∃ e, t = s.logIo e := by
    intro dw ofs h
    unfold State.memOperand at h
    split at h
    · cases h
    · split at h
      · next hm =>
        cases h
        rcases physRead_ok (memRead_ok hm).2 with ⟨_, _, e⟩ | ⟨_, e⟩
        · exact .inl e
        · exact .inr ⟨_, e⟩
      · cases h
      · cases h
  cases opd with
  | imm val => cases h; exact .inl rfl
  | reg a b => cases h; exact .inl rfl
  | indexed dw a b => exact mem _ _ h
  | offset dw ofs b => exact mem _ _ h

/-- An arithmetic result is written, or its overflow trap is taken (43_computational_operand.md R372). -/
theorem writeAlu_next {s t : State} {w : Word} {r : GReg} {o : Bool} {q : AluResult} {late : Option TrapReq}
    (h : s.writeAlu w r o q late = .next t) :
    ((o && q.overflow) = true ∧ t = s.takeTrap (overflowTrap w)) ∨
    ((o && q.overflow) = false ∧ (((s.writeGr r q.res).setCarry q.carry).advance).finish late = .next t) := by
  unfold State.writeAlu at h
  split at h
  · next ho => exact .inl ⟨ho, by cases h; rfl⟩
  · next ho => exact .inr ⟨by simpa using ho, h⟩

/-- An arithmetic instruction fetches its operand and writes its result, or traps. -/
theorem runAlu_next {s t : State} {w : Word} {r : GReg} {o : Bool} {opd : Operand} {f : Word → Word → AluResult}
    (h : s.runAlu w r o opd f = .next t) :
    (∃ q s', s.operand w r opd = .ok q s' ∧ s'.writeAlu w r o (f q.a q.b) q.late = .next t) ∨
    ∃ q, s.operand w r opd = .trap q ∧ t = s.takeTrap q := run_next h

/-- A logical or compare instruction fetches its operand and writes its result, or traps. -/
theorem runLogic_next {s t : State} {w : Word} {r : GReg} {opd : Operand} {f : Word → Word → Word}
    (h : s.runLogic w r opd f = .next t) :
    (∃ q s', s.operand w r opd = .ok q s' ∧ ((s'.writeGr r (f q.a q.b)).advance).finish q.late = .next t) ∨
    ∃ q, s.operand w r opd = .trap q ∧ t = s.takeTrap q := run_next h

/-- The registers after a base was modified (40_memory_reference.md R262). -/
theorem modifyBase_result (m : Bool) (b : GReg) (u : Word) (s : State) : BaseResult m b u s (s.modifyBase m b u) where
  base := by intro h; subst h; exact State.readGr_writeGr_same s b u
  kept := by intro h; subst h; rfl
  others := by
    intro k hk
    have hk : k ≠ b := by simpa using hk
    cases m
    · rfl
    · exact State.readGr_writeGr_other hk s u

/-- The effect of writing one register and advancing. -/
theorem writeGr_advance_result (s : State) (r : GReg) (v : Word) :
    RegisterResult r v s.psw.next s (s.writeGr r v).advance where
  dest := by simpa [Holds] using State.readGr_writeGr_same s r v
  others := fun k hk => by simpa using State.readGr_writeGr_other (by simpa using hk) s v
  psw := by simp [Psw.next]
  reservation := by simp
  system := by constructor <;> simp [State.dataByte]

/-! ## The fetch -/

/-- A fetch that succeeds leaves the state as it was but for a demotion and a recorded access (20_memory.md R148, R153). -/
theorem fetch_ok {s t : State} {w : Word} (h : s.fetch = .ok w t) :
    ∃ u, (u = s ∨ ∃ e, tlbFind s.itlb s.psw.seg s.psw.ofs = some e ∧ u = s.demote e) ∧
      (t = u ∨ ∃ a, t = u.logIo (.fetch a)) := by
  have phys : ∀ u : State, ∀ pa, u.fetchPhys pa = .ok w t → t = u ∨ ∃ a, t = u.logIo (.fetch a) := by
    intro u pa h
    unfold State.fetchPhys at h
    split at h
    · cases h; exact .inl rfl
    · cases h; exact .inr ⟨_, rfl⟩
    · cases h
  unfold State.fetch at h
  split at h
  · exact ⟨s, .inl rfl, phys _ _ h⟩
  · split at h
    · cases h
    · next e he =>
      split at h
      · cases h
      · exact ⟨s.demote e, .inr ⟨e, he, rfl⟩, phys _ _ h⟩

end Sys2Proof.Machine
end

