-- ==== Sys2Proof/Laws/PerInstr.lean ====
section
/-!
SUPPORT. Sys2Proof/Laws/PerInstr.lean: for every instruction, the opcode field of its encoding is the one the opcode map
gives it (30_encoding.md R192, R235), one lemma per instruction.
-/

namespace Sys2Proof.Laws

-- The proofs are elaborated one after another: side by side they all wait for the equations of `encode`.
set_option Elab.async false

/-- The opcode of an instruction (30_encoding.md R235). -/
def opcodeOf : Instr → BitVec 6
  | .brk _ _ => 0x00#6
  | .ldil _ _ => 0x01#6
  | .addil _ _ => 0x02#6
  | .ldo _ _ _ => 0x03#6
  | .lsid _ _ => 0x04#6
  | .extr _ _ _ _ _ _ => 0x05#6
  | .dep _ _ _ _ _ _ => 0x06#6
  | .dsr _ _ _ _ _ => 0x07#6
  | .shla _ _ _ _ _ _ => 0x08#6
  | .cmr _ _ _ _ => 0x09#6
  | .mr _ _ _ => 0x0a#6
  | .mst _ _ => 0x0b#6
  | .ds _ _ _ => 0x0c#6
  | .add _ _ _ _ => 0x10#6
  | .adc _ _ _ _ => 0x11#6
  | .sub _ _ _ _ => 0x12#6
  | .sbc _ _ _ _ => 0x13#6
  | .and _ _ _ _ => 0x14#6
  | .or _ _ _ _ => 0x15#6
  | .xor _ _ _ => 0x16#6
  | .cmp _ _ _ => 0x17#6
  | .cmpu _ _ _ => 0x18#6
  | .b _ _ => 0x20#6
  | .gate _ _ => 0x21#6
  | .br _ _ => 0x22#6
  | .bv _ _ => 0x23#6
  | .be _ _ _ _ => 0x24#6
  | .bve _ _ _ => 0x25#6
  | .cbr _ _ _ _ => 0x26#6
  | .cbru _ _ _ _ => 0x27#6
  | .ld _ _ _ _ _ _ => 0x30#6
  | .st _ _ _ _ _ _ => 0x31#6
  | .lda _ _ _ _ => 0x32#6
  | .sta _ _ _ _ => 0x33#6
  | .ldr _ _ _ _ => 0x34#6
  | .stc _ _ _ _ => 0x35#6
  | .ldpa _ _ _ _ => 0x39#6
  | .prb _ _ _ _ _ _ => 0x3a#6
  | .itlb _ _ _ _ => 0x3b#6
  | .ptlb _ _ _ _ _ => 0x3c#6
  | .pca _ _ _ _ _ _ => 0x3d#6
  | .diag _ _ _ _ => 0x3e#6
  | .rfi => 0x3f#6

/-- The opcode field <0..5> of the encoding of an instruction is its opcode. -/
def EncodeOpcode.Statement (i : Instr) : Prop := bits (encode i) 26 6 = opcodeOf i

theorem EncodeOpcode.brk (info1 : BitVec 4) (info2 : BitVec 16) : EncodeOpcode.Statement (.brk info1 info2) := by
  unfold EncodeOpcode.Statement; simp (disch := omega) [encode, opc, opcodeOf, bits_put_same, bits_put_below]
theorem EncodeOpcode.ldil (r : GReg) (val : BitVec 22) : EncodeOpcode.Statement (.ldil r val) := by
  unfold EncodeOpcode.Statement; simp (disch := omega) [encode, opc, opcodeOf, bits_put_same, bits_put_below]
theorem EncodeOpcode.addil (r : GReg) (val : BitVec 22) : EncodeOpcode.Statement (.addil r val) := by
  unfold EncodeOpcode.Statement; simp (disch := omega) [encode, opc, opcodeOf, bits_put_same, bits_put_below]
theorem EncodeOpcode.ldo (r : GReg) (ofs : BitVec 18) (b : GReg) : EncodeOpcode.Statement (.ldo r ofs b) := by
  unfold EncodeOpcode.Statement; simp (disch := omega) [encode, opc, opcodeOf, bits_put_same, bits_put_below]
theorem EncodeOpcode.lsid (r b : GReg) : EncodeOpcode.Statement (.lsid r b) := by
  unfold EncodeOpcode.Statement; simp (disch := omega) [encode, opc, opcodeOf, bits_put_same, bits_put_below]
theorem EncodeOpcode.extr (r : GReg) (sx useShamt : Bool) (len pos : BitVec 5) (b : GReg) : EncodeOpcode.Statement (.extr r sx useShamt len pos b) := by
  unfold EncodeOpcode.Statement; simp (disch := omega) [encode, opc, opcodeOf, bits_put_same, bits_put_below]
theorem EncodeOpcode.dep (r : GReg) (z useShamt : Bool) (len pos : BitVec 5) (src : DepSrc) : EncodeOpcode.Statement (.dep r z useShamt len pos src) := by
  unfold EncodeOpcode.Statement; cases src <;> simp (disch := omega) [encode, encodeDepSrc, opc, opcodeOf, bits_put_same, bits_put_below]
theorem EncodeOpcode.dsr (r : GReg) (useShamt : Bool) (shamt : BitVec 5) (a b : GReg) : EncodeOpcode.Statement (.dsr r useShamt shamt a b) := by
  unfold EncodeOpcode.Statement; simp (disch := omega) [encode, opc, opcodeOf, bits_put_same, bits_put_below]
theorem EncodeOpcode.shla (r : GReg) (l o : Bool) (sa : BitVec 2) (a b : GReg) : EncodeOpcode.Statement (.shla r l o sa a b) := by
  unfold EncodeOpcode.Statement; simp (disch := omega) [encode, opc, opcodeOf, bits_put_same, bits_put_below]
theorem EncodeOpcode.cmr (r : GReg) (cond : BitVec 4) (a b : GReg) : EncodeOpcode.Statement (.cmr r cond a b) := by
  unfold EncodeOpcode.Statement; simp (disch := omega) [encode, opc, opcodeOf, bits_put_same, bits_put_below]
theorem EncodeOpcode.mr (r : GReg) (d : Bool) (reg : SysReg) : EncodeOpcode.Statement (.mr r d reg) := by
  unfold EncodeOpcode.Statement; cases reg <;> simp (disch := omega) [encode, encodeSysReg, opc, opcodeOf, bits_put_same, bits_put_below]
theorem EncodeOpcode.mst (r : GReg) (arg : MstArg) : EncodeOpcode.Statement (.mst r arg) := by
  unfold EncodeOpcode.Statement; cases arg <;> simp (disch := omega) [encode, encodeMstArg, opc, opcodeOf, bits_put_same, bits_put_below]
theorem EncodeOpcode.ds (r a b : GReg) : EncodeOpcode.Statement (.ds r a b) := by
  unfold EncodeOpcode.Statement; simp (disch := omega) [encode, opc, opcodeOf, bits_put_same, bits_put_below]
theorem EncodeOpcode.add (r : GReg) (l o : Bool) (opd : Operand) : EncodeOpcode.Statement (.add r l o opd) := by
  unfold EncodeOpcode.Statement; cases opd <;> simp (disch := omega) [encode, encodeOperand, opc, opcodeOf, bits_put_same, bits_put_below]
theorem EncodeOpcode.adc (r : GReg) (l o : Bool) (opd : Operand) : EncodeOpcode.Statement (.adc r l o opd) := by
  unfold EncodeOpcode.Statement; cases opd <;> simp (disch := omega) [encode, encodeOperand, opc, opcodeOf, bits_put_same, bits_put_below]
theorem EncodeOpcode.sub (r : GReg) (l o : Bool) (opd : Operand) : EncodeOpcode.Statement (.sub r l o opd) := by
  unfold EncodeOpcode.Statement; cases opd <;> simp (disch := omega) [encode, encodeOperand, opc, opcodeOf, bits_put_same, bits_put_below]
theorem EncodeOpcode.sbc (r : GReg) (l o : Bool) (opd : Operand) : EncodeOpcode.Statement (.sbc r l o opd) := by
  unfold EncodeOpcode.Statement; cases opd <;> simp (disch := omega) [encode, encodeOperand, opc, opcodeOf, bits_put_same, bits_put_below]
theorem EncodeOpcode.and (r : GReg) (n c : Bool) (opd : Operand) : EncodeOpcode.Statement (.and r n c opd) := by
  unfold EncodeOpcode.Statement; cases opd <;> simp (disch := omega) [encode, encodeOperand, opc, opcodeOf, bits_put_same, bits_put_below]
theorem EncodeOpcode.or (r : GReg) (n c : Bool) (opd : Operand) : EncodeOpcode.Statement (.or r n c opd) := by
  unfold EncodeOpcode.Statement; cases opd <;> simp (disch := omega) [encode, encodeOperand, opc, opcodeOf, bits_put_same, bits_put_below]
theorem EncodeOpcode.xor (r : GReg) (n : Bool) (opd : Operand) : EncodeOpcode.Statement (.xor r n opd) := by
  unfold EncodeOpcode.Statement; cases opd <;> simp (disch := omega) [encode, encodeOperand, opc, opcodeOf, bits_put_same, bits_put_below]
theorem EncodeOpcode.cmp (r : GReg) (cond : Cond) (opd : Operand) : EncodeOpcode.Statement (.cmp r cond opd) := by
  unfold EncodeOpcode.Statement; cases opd <;> simp (disch := omega) [encode, encodeOperand, opc, opcodeOf, bits_put_same, bits_put_below]
theorem EncodeOpcode.cmpu (r : GReg) (cond : Cond) (opd : Operand) : EncodeOpcode.Statement (.cmpu r cond opd) := by
  unfold EncodeOpcode.Statement; cases opd <;> simp (disch := omega) [encode, encodeOperand, opc, opcodeOf, bits_put_same, bits_put_below]
theorem EncodeOpcode.b (r : GReg) (ofs : BitVec 22) : EncodeOpcode.Statement (.b r ofs) := by
  unfold EncodeOpcode.Statement; simp (disch := omega) [encode, opc, opcodeOf, bits_put_same, bits_put_below]
theorem EncodeOpcode.gate (r : GReg) (ofs : BitVec 22) : EncodeOpcode.Statement (.gate r ofs) := by
  unfold EncodeOpcode.Statement; simp (disch := omega) [encode, opc, opcodeOf, bits_put_same, bits_put_below]
theorem EncodeOpcode.br (r b : GReg) : EncodeOpcode.Statement (.br r b) := by
  unfold EncodeOpcode.Statement; simp (disch := omega) [encode, opc, opcodeOf, bits_put_same, bits_put_below]
theorem EncodeOpcode.bv (r b : GReg) : EncodeOpcode.Statement (.bv r b) := by
  unfold EncodeOpcode.Statement; simp (disch := omega) [encode, opc, opcodeOf, bits_put_same, bits_put_below]
theorem EncodeOpcode.be (r : GReg) (ofs : BitVec 14) (a : BitVec 4) (b : GReg) : EncodeOpcode.Statement (.be r ofs a b) := by
  unfold EncodeOpcode.Statement; simp (disch := omega) [encode, opc, opcodeOf, bits_put_same, bits_put_below]
theorem EncodeOpcode.bve (r a b : GReg) : EncodeOpcode.Statement (.bve r a b) := by
  unfold EncodeOpcode.Statement; simp (disch := omega) [encode, opc, opcodeOf, bits_put_same, bits_put_below]
theorem EncodeOpcode.cbr (cond : Cond) (ofs : BitVec 16) (a b : GReg) : EncodeOpcode.Statement (.cbr cond ofs a b) := by
  unfold EncodeOpcode.Statement; simp (disch := omega) [encode, opc, opcodeOf, bits_put_same, bits_put_below]
theorem EncodeOpcode.cbru (cond : Cond) (ofs : BitVec 16) (a b : GReg) : EncodeOpcode.Statement (.cbru cond ofs a b) := by
  unfold EncodeOpcode.Statement; simp (disch := omega) [encode, opc, opcodeOf, bits_put_same, bits_put_below]
theorem EncodeOpcode.ld (r : GReg) (m : Bool) (seg dw : BitVec 2) (disp : Disp) (b : GReg) : EncodeOpcode.Statement (.ld r m seg dw disp b) := by
  unfold EncodeOpcode.Statement; cases disp <;> simp (disch := omega) [encode, encodeDisp, opc, opcodeOf, bits_put_same, bits_put_below]
theorem EncodeOpcode.st (r : GReg) (m : Bool) (seg dw : BitVec 2) (disp : Disp) (b : GReg) : EncodeOpcode.Statement (.st r m seg dw disp b) := by
  unfold EncodeOpcode.Statement; cases disp <;> simp (disch := omega) [encode, encodeDisp, opc, opcodeOf, bits_put_same, bits_put_below]
theorem EncodeOpcode.lda (r : GReg) (m : Bool) (disp : Disp) (b : GReg) : EncodeOpcode.Statement (.lda r m disp b) := by
  unfold EncodeOpcode.Statement; cases disp <;> simp (disch := omega) [encode, encodeDisp, opc, opcodeOf, bits_put_same, bits_put_below]
theorem EncodeOpcode.sta (r : GReg) (m : Bool) (disp : Disp) (b : GReg) : EncodeOpcode.Statement (.sta r m disp b) := by
  unfold EncodeOpcode.Statement; cases disp <;> simp (disch := omega) [encode, encodeDisp, opc, opcodeOf, bits_put_same, bits_put_below]
theorem EncodeOpcode.ldr (r : GReg) (seg : BitVec 2) (ofs : BitVec 12) (b : GReg) : EncodeOpcode.Statement (.ldr r seg ofs b) := by
  unfold EncodeOpcode.Statement; simp (disch := omega) [encode, opc, opcodeOf, bits_put_same, bits_put_below]
theorem EncodeOpcode.stc (r : GReg) (seg : BitVec 2) (ofs : BitVec 12) (b : GReg) : EncodeOpcode.Statement (.stc r seg ofs b) := by
  unfold EncodeOpcode.Statement; simp (disch := omega) [encode, opc, opcodeOf, bits_put_same, bits_put_below]
theorem EncodeOpcode.ldpa (r : GReg) (seg : BitVec 2) (a b : GReg) : EncodeOpcode.Statement (.ldpa r seg a b) := by
  unfold EncodeOpcode.Statement; simp (disch := omega) [encode, opc, opcodeOf, bits_put_same, bits_put_below]
theorem EncodeOpcode.prb (r : GReg) (w i : Bool) (seg : BitVec 2) (a b : GReg) : EncodeOpcode.Statement (.prb r w i seg a b) := by
  unfold EncodeOpcode.Statement; simp (disch := omega) [encode, opc, opcodeOf, bits_put_same, bits_put_below]
theorem EncodeOpcode.itlb (r : GReg) (t : Bool) (a : BitVec 3) (b : GReg) : EncodeOpcode.Statement (.itlb r t a b) := by
  unfold EncodeOpcode.Statement; simp (disch := omega) [encode, opc, opcodeOf, bits_put_same, bits_put_below]
theorem EncodeOpcode.ptlb (t m : Bool) (seg : BitVec 2) (a b : GReg) : EncodeOpcode.Statement (.ptlb t m seg a b) := by
  unfold EncodeOpcode.Statement; simp (disch := omega) [encode, opc, opcodeOf, bits_put_same, bits_put_below]
theorem EncodeOpcode.pca (t m : Bool) (seg : BitVec 2) (f : Bool) (a b : GReg) : EncodeOpcode.Statement (.pca t m seg f a b) := by
  unfold EncodeOpcode.Statement; simp (disch := omega) [encode, opc, opcodeOf, bits_put_same, bits_put_below]
theorem EncodeOpcode.diag (r : GReg) (info : BitVec 4) (a b : GReg) : EncodeOpcode.Statement (.diag r info a b) := by
  unfold EncodeOpcode.Statement; simp (disch := omega) [encode, opc, opcodeOf, bits_put_same, bits_put_below]
theorem EncodeOpcode.rfi : EncodeOpcode.Statement (.rfi) := by
  unfold EncodeOpcode.Statement; simp (disch := omega) [encode, opc, opcodeOf, bits_put_same]

/-- The opcode field of the encoding of any instruction is its opcode. -/
theorem encode_opcode (i : Instr) : bits (encode i) 26 6 = opcodeOf i :=
  match i with
  | .brk .. => EncodeOpcode.brk ..
  | .ldil .. => EncodeOpcode.ldil ..
  | .addil .. => EncodeOpcode.addil ..
  | .ldo .. => EncodeOpcode.ldo ..
  | .lsid .. => EncodeOpcode.lsid ..
  | .extr .. => EncodeOpcode.extr ..
  | .dep .. => EncodeOpcode.dep ..
  | .dsr .. => EncodeOpcode.dsr ..
  | .shla .. => EncodeOpcode.shla ..
  | .cmr .. => EncodeOpcode.cmr ..
  | .mr .. => EncodeOpcode.mr ..
  | .mst .. => EncodeOpcode.mst ..
  | .ds .. => EncodeOpcode.ds ..
  | .add .. => EncodeOpcode.add ..
  | .adc .. => EncodeOpcode.adc ..
  | .sub .. => EncodeOpcode.sub ..
  | .sbc .. => EncodeOpcode.sbc ..
  | .and .. => EncodeOpcode.and ..
  | .or .. => EncodeOpcode.or ..
  | .xor .. => EncodeOpcode.xor ..
  | .cmp .. => EncodeOpcode.cmp ..
  | .cmpu .. => EncodeOpcode.cmpu ..
  | .b .. => EncodeOpcode.b ..
  | .gate .. => EncodeOpcode.gate ..
  | .br .. => EncodeOpcode.br ..
  | .bv .. => EncodeOpcode.bv ..
  | .be .. => EncodeOpcode.be ..
  | .bve .. => EncodeOpcode.bve ..
  | .cbr .. => EncodeOpcode.cbr ..
  | .cbru .. => EncodeOpcode.cbru ..
  | .ld .. => EncodeOpcode.ld ..
  | .st .. => EncodeOpcode.st ..
  | .lda .. => EncodeOpcode.lda ..
  | .sta .. => EncodeOpcode.sta ..
  | .ldr .. => EncodeOpcode.ldr ..
  | .stc .. => EncodeOpcode.stc ..
  | .ldpa .. => EncodeOpcode.ldpa ..
  | .prb .. => EncodeOpcode.prb ..
  | .itlb .. => EncodeOpcode.itlb ..
  | .ptlb .. => EncodeOpcode.ptlb ..
  | .pca .. => EncodeOpcode.pca ..
  | .diag .. => EncodeOpcode.diag ..
  | .rfi => EncodeOpcode.rfi

end Sys2Proof.Laws
end

