-- ==== Sys2Proof/Laws/Run.lean ====
section
/-!
SUPPORT. Sys2Proof/Laws/Run.lean: what a run to an end address is (00_scope.md R23).
-/

namespace Sys2Proof.Machine

/-- A run that starts at the end address has ended, whatever stands there. -/
theorem runTo_atEnd {s : State} {e : EndAddress} (h : s.atEnd e = true) (k : Nat) : s.runTo e k = .ended s := by
  cases k <;> simp [State.runTo, h]

/-- The end state of a run is at the end address. -/
theorem atEnd_of_endsIn {e : EndAddress} {k : Nat} {s t : State} (h : EndsIn e k s t) : t.atEnd e = true := by
  unfold EndsIn at h
  induction k generalizing s with
  | zero => unfold State.runTo at h; split at h <;> cases h; assumption
  | succ k ih =>
    unfold State.runTo at h
    split at h
    · cases h; assumption
    · split at h <;> [exact ih h; cases h; cases h]

/-- A run that has ended in k steps ends in the same state when more steps are allowed. -/
theorem endsIn_more {e : EndAddress} {k : Nat} {s t : State} (h : EndsIn e k s t) (j : Nat) : EndsIn e (k + j) s t := by
  unfold EndsIn at *
  induction k generalizing s with
  | zero =>
    unfold State.runTo at h
    split at h <;> cases h
    exact runTo_atEnd ‹_› _
  | succ k ih =>
    rw [Nat.add_right_comm]
    unfold State.runTo at h ⊢
    split at h
    · simp_all
    · rw [if_neg ‹_›]
      split at h
      · exact ih h
      · cases h
      · cases h

/-- A run that has ended met no fault and no refusal on its way. -/
theorem safeRun_of_endsIn {e : EndAddress} {k : Nat} {s t : State} (h : EndsIn e k s t) :
    ∃ j ≤ k, Sys2Proof.core.run j s = .next t := by
  unfold EndsIn at h
  induction k generalizing s with
  | zero => unfold State.runTo at h; split at h <;> cases h; exact ⟨0, Nat.le_refl _, rfl⟩
  | succ k ih =>
    unfold State.runTo at h
    split at h
    · cases h; exact ⟨0, Nat.zero_le _, rfl⟩
    · split at h
      · next u hu =>
        obtain ⟨j, hj, hr⟩ := ih h
        exact ⟨j + 1, Nat.succ_le_succ hj, by
          simp only [Host.Core.run]; rw [show Sys2Proof.core.step s = .next u from hu]; exact hr⟩
      · cases h
      · cases h

end Sys2Proof.Machine
end

