-- ==== Sys2Proof/Tests/Slice0.lean ====
section
/-!
SUPPORT. Sys2Proof/Tests/Slice0.lean: the model's own tests. Expected results are those of spec/95_test_vectors.md, cited by
their numbers V<n>, or of the manual's tables. The last part shows for every statement with hypotheses a state that meets
them.
-/

namespace Sys2Proof.Tests

open Sys2Proof Sys2Proof.Machine

/-! ## Helpers -/

/-- The default start state of spec/95_test_vectors.md (CR16 = 0x8000, pc = 0x1000) with general registers set. -/
def start (gr : List (GReg × Word)) : State :=
  gr.foldl (fun s p => s.writeGr p.1 p.2)
    { State.reset with psw := { State.reset.psw with ofs := 0x1000#32 }, cr := State.reset.cr.set 16 0x8000#32 }

/-- The same in user mode. -/
def user (gr : List (GReg × Word)) : State := (start gr).setLevel 1#1

/-- A state with bytes stored in memory. -/
def withMem (s : State) (a : Nat) (l : List Byte) : State := { s with mem := memSetBytes s.mem a l }

/-- GR[k] after a result. -/
def grAfter (r : Result) (k : GReg) : Option Word :=
  match r with
  | .next t => some (t.readGr k)
  | .fault _ => none
  | .refused _ => none

/-- CR[k] after a result. -/
def crAfter (r : Result) (k : BitVec 5) : Option Word :=
  match r with
  | .next t => some (t.readCr k)
  | .fault _ => none
  | .refused _ => none

/-- SR[k] after a result. -/
def srAfter (r : Result) (k : BitVec 3) : Option SegId :=
  match r with
  | .next t => some (t.readSr k)
  | .fault _ => none
  | .refused _ => none

/-- PSW-0 and PSW-1 after a result. -/
def pswAfter (r : Result) : Option (Word × Word) :=
  match r with
  | .next t => some (t.psw.word0, t.psw.ofs)
  | .fault _ => none
  | .refused _ => none

/-- The word in data memory at an address after a result. -/
def memAfter (r : Result) (a : Nat) : Option Word :=
  match r with
  | .next t => some (t.dataValue a .word)
  | .fault _ => none
  | .refused _ => none

/-- What a result stopped with. -/
def stopOf (r : Result) : Option (Fault ⊕ Refusal) :=
  match r with
  | .next _ => none
  | .fault f => some (.inl f)
  | .refused q => some (.inr q)

/-! ## WellFormed: an ill-formed term for each check -/

theorem test_wf_and : (Instr.and 1#4 true true (.reg 2#4 3#4)).wellFormed = false := by decide
theorem test_wf_or : (Instr.or 1#4 true true (.reg 2#4 3#4)).wellFormed = false := by decide
theorem test_wf_extr_empty : (Instr.extr 1#4 false false 0#5 31#5 2#4).wellFormed = false := by decide
theorem test_wf_extr_long : (Instr.extr 1#4 false false 8#5 3#5 2#4).wellFormed = false := by decide
theorem test_wf_dep_empty : (Instr.dep 1#4 false true 0#5 31#5 (.reg 2#4)).wellFormed = false := by decide
theorem test_wf_dep_long : (Instr.dep 1#4 false false 5#5 3#5 (.imm 2#4)).wellFormed = false := by decide
theorem test_wf_dep_fits : (Instr.dep 1#4 false false 4#5 3#5 (.imm 2#4)).wellFormed = true := by decide

/-! ## Decoding: one written word for every instruction -/

/-- V68. -/
theorem test_decode_brk : decode 0x00400002#32 = .ok (.brk 1#4 2#16) := by decide
/-- V1. -/
theorem test_decode_ldil : decode 0x06812345#32 = .ok (.ldil 10#4 0x12345#22) := by decide
/-- V4. -/
theorem test_decode_addil : decode 0x0AC00048#32 = .ok (.addil 11#4 0x48#22) := by decide
/-- V7. -/
theorem test_decode_ldo : decode 0x0CBFF9C0#32 = .ok (.ldo 2#4 (BitVec.ofInt 18 (-100)) 0#4) := by decide
/-- V163. -/
theorem test_decode_lsid : decode 0x10C00004#32 = .ok (.lsid 3#4 4#4) := by decide
/-- V167. -/
theorem test_decode_extr : decode 0x14602072#32 = .ok (.extr 1#4 true false 8#5 7#5 2#4) := by decide
/-- V180. -/
theorem test_decode_dep : decode 0x184820F7#32 = .ok (.dep 1#4 false false 8#5 15#5 (.imm 7#4)) := by decide
/-- V183. -/
theorem test_decode_dsr : decode 0x1C402032#32 = .ok (.dsr 1#4 false 8#5 3#4 2#4) := by decide
/-- V195. -/
theorem test_decode_shla : decode 0x20700423#32 = .ok (.shla 1#4 true true 1#2 2#4 3#4) := by decide
/-- V197. -/
theorem test_decode_cmr : decode 0x24500041#32 = .ok (.cmr 1#4 4#4 4#4 1#4) := by decide
/-- V218. -/
theorem test_decode_mr : decode 0x29300010#32 = .ok (.mr 4#4 true (.cr 16#5)) := by decide
/-- V214. -/
theorem test_decode_mr_sr : decode 0x28E00005#32 = .ok (.mr 3#4 true (.sr 5#3)) := by decide
/-- V226. -/
theorem test_decode_mst : decode 0x2C500004#32 = .ok (.mst 1#4 (.set 4#4)) := by decide
/-- V211. -/
theorem test_decode_ds : decode 0x30400023#32 = .ok (.ds 1#4 2#4 3#4) := by decide
/-- V105. -/
theorem test_decode_add : decode 0x40740023#32 = .ok (.add 1#4 true true (.reg 2#4 3#4)) := by decide
/-- V122. -/
theorem test_decode_adc : decode 0x44540023#32 = .ok (.adc 1#4 false true (.reg 2#4 3#4)) := by decide
/-- V130. -/
theorem test_decode_sub : decode 0x49000001#32 = .ok (.sub 4#4 false false (.imm 1#18)) := by decide
/-- V131. -/
theorem test_decode_sbc : decode 0x4C440023#32 = .ok (.sbc 1#4 false false (.reg 2#4 3#4)) := by decide
/-- V143. -/
theorem test_decode_and : decode 0x514D0024#32 = .ok (.and 5#4 false false (.offset 1#2 2#12 4#4)) := by decide
/-- V145. -/
theorem test_decode_or : decode 0x54640023#32 = .ok (.or 1#4 true false (.reg 2#4 3#4)) := by decide
/-- V150. -/
theorem test_decode_xor : decode 0x58640023#32 = .ok (.xor 1#4 true (.reg 2#4 3#4)) := by decide
/-- V157. -/
theorem test_decode_cmp : decode 0x5D33FFFF#32 = .ok (.cmp 4#4 .le (.imm 0x3FFFF#18)) := by decide
/-- V154. -/
theorem test_decode_cmpu : decode 0x60540026#32 = .ok (.cmpu 1#4 .lt (.reg 2#4 6#4)) := by decide
/-- V69. -/
theorem test_decode_b : decode 0x83800006#32 = .ok (.b 14#4 6#22) := by decide
/-- V88. -/
theorem test_decode_gate : decode 0x84800010#32 = .ok (.gate 2#4 16#22) := by decide
/-- V73. -/
theorem test_decode_br : decode 0x8B800005#32 = .ok (.br 14#4 5#4) := by decide
/-- V75. -/
theorem test_decode_bv : decode 0x8C00000E#32 = .ok (.bv 0#4 14#4) := by decide
/-- V78. -/
theorem test_decode_be : decode 0x93801541#32 = .ok (.be 14#4 21#14 4#4 1#4) := by decide
/-- V80. -/
theorem test_decode_bve : decode 0x97800034#32 = .ok (.bve 14#4 3#4 4#4) := by decide
/-- V81. -/
theorem test_decode_cbr : decode 0x99FFFD26#32 = .ok (.cbr .lt 0xFFFD#16 2#4 6#4) := by decide
/-- V86. -/
theorem test_decode_cbru : decode 0x9F000212#32 = .ok (.cbru .le 2#16 1#4 2#4) := by decide
/-- V20. -/
theorem test_decode_ld : decode 0xC0F20054#32 = .ok (.ld 3#4 true 0#2 2#2 (.index 5#4) 4#4) := by decide
/-- V29. -/
theorem test_decode_st : decode 0xC4D2FFC4#32 = .ok (.st 3#4 true 0#2 2#2 (.ofs 0xFFC#12) 4#4) := by decide
/-- V35. -/
theorem test_decode_lda : decode 0xC8F20054#32 = .ok (.lda 3#4 true (.index 5#4) 4#4) := by decide
/-- V36. -/
theorem test_decode_sta : decode 0xCCC20104#32 = .ok (.sta 3#4 false (.ofs 16#12) 4#4) := by decide
/-- V60. -/
theorem test_decode_ldr : decode 0xD0C20004#32 = .ok (.ldr 3#4 0#2 0#12 4#4) := by decide
/-- V63. -/
theorem test_decode_stc : decode 0xD5420044#32 = .ok (.stc 5#4 0#2 4#12 4#4) := by decide
/-- V229. -/
theorem test_decode_ldpa : decode 0xE5440024#32 = .ok (.ldpa 5#4 1#2 2#4 4#4) := by decide
/-- V234. -/
theorem test_decode_prb : decode 0xE9F40004#32 = .ok (.prb 7#4 true true 1#2 0#4 4#4) := by decide
/-- V239. -/
theorem test_decode_itlb : decode 0xECE00014#32 = .ok (.itlb 3#4 true 1#3 4#4) := by decide
/-- V244. -/
theorem test_decode_ptlb : decode 0xF0340054#32 = .ok (.ptlb true true 1#2 5#4 4#4) := by decide
/-- V250. -/
theorem test_decode_pca : decode 0xF4360054#32 = .ok (.pca true true 1#2 true 5#4 4#4) := by decide
/-- V254. -/
theorem test_decode_diag : decode 0xF8540023#32 = .ok (.diag 1#4 5#4 2#4 3#4) := by decide
/-- V256. -/
theorem test_decode_rfi : decode 0xFC000000#32 = .ok .rfi := by decide

/-- V262, V269: unassigned opcodes; V24, V116: a reserved width is an instruction that traps. -/
theorem test_decode_illegal : decode 0x34000123#32 = .illegal ∧ decode 0xE0000123#32 = .illegal := by decide
/-- V151: bit 11 of XOR is reserved; the register field of PTLB is reserved. -/
theorem test_decode_undefined : decode 0x58540023#32 = .undefined ∧ decode 0xF0640004#32 = .undefined := by decide
/-- R242 before R241 (R246): condition 8 of CMR with a reserved bit set, and MST mode 3 with one. -/
theorem test_decode_order : decode 0x24600145#32 = .illegal ∧ decode 0x2C700012#32 = .illegal ∧
    decode 0x24400145#32 = .undefined := by decide
/-- The bytes of V1 in memory order, and the same word through decodeTableWord. -/
theorem test_decode_bytes : decodeBytes [0x06#8, 0x81#8, 0x23#8, 0x45#8] = .ok (.ldil 10#4 0x12345#22) ∧
    decodeTableWord 32 0x06812345 = some (.ldil 10#4 0x12345#22) ∧ decodeTableWord 32 0x34000123 = none := by decide

/-! ## One step of each instruction -/

/-- V1. -/
theorem test_ldil : grAfter (State.runWord (start []) 0x06812345#32) 10#4 = some 0x048D1400#32 ∧
    pswAfter (State.runWord (start []) 0x06812345#32) = some (0#32, 0x1004#32) := by decide
/-- V5. -/
theorem test_addil : grAfter (State.runWord (start [(2#4, 0x800#32), (1#4, 0x55#32)]) 0x08BFFFFF#32) 1#4 = some 0x400#32 ∧
    pswAfter (State.runWord (start [(2#4, 0x800#32), (1#4, 0x55#32)]) 0x08BFFFFF#32) = some (0#32, 0x1004#32) := by decide
/-- V10. -/
theorem test_ldo : grAfter (State.runWord (start [(4#4, 0x10000#32)]) 0x0CE00004#32) 3#4 = some 0xFFFF0000#32 ∧
    pswAfter (State.runWord (start [(4#4, 0x10000#32)]) 0x0CE00004#32) = some (0#32, 0x1004#32) := by decide
/-- V163. -/
theorem test_lsid : grAfter (State.runWord ((start [(4#4, 0xC0001234#32)]).writeSr 7#3 0x44#16) 0x10C00004#32) 3#4 =
    some 0x44#32 := by decide
/-- V167. -/
theorem test_extr : grAfter (State.runWord (start [(2#4, 0x92345678#32)]) 0x14602072#32) 1#4 = some 0xFFFFFF92#32 ∧
    pswAfter (State.runWord (start [(2#4, 0x92345678#32)]) 0x14602072#32) = some (0#32, 0x1004#32) := by decide
/-- V173. -/
theorem test_extr_shamt : grAfter (State.runWord ((start [(2#4, 0x12345678#32)]).writeCr 2#5 15#32) 0x14502002#32) 1#4 =
    some 0x34#32 := by decide
/-- V172, V174. -/
theorem test_extr_stops : stopOf (State.runWord (start []) 0x144001F2#32) = some (.inl .undefinedOperation) ∧
    stopOf (State.runWord (start []) 0x14402032#32) = some (.inl .undefinedOperation) := by decide
/-- V175. -/
theorem test_dep : grAfter (State.runWord (start [(1#4, 0xFFFFFFFF#32), (2#4, 0x123456AB#32)]) 0x18402172#32) 1#4 = some 0xFFFFABFF#32 ∧
    pswAfter (State.runWord (start [(1#4, 0xFFFFFFFF#32), (2#4, 0x123456AB#32)]) 0x18402172#32) = some (0#32, 0x1004#32) := by decide
/-- V179. -/
theorem test_dep_imm : grAfter (State.runWord (start []) 0x184820FF#32) 1#4 = some 0x00FF0000#32 ∧
    pswAfter (State.runWord (start []) 0x184820FF#32) = some (0#32, 0x1004#32) := by decide
/-- V183. -/
theorem test_dsr : grAfter (State.runWord (start [(2#4, 0x12345678#32), (3#4, 0x9ABCDEF0#32)]) 0x1C402032#32) 1#4 = some 0x789ABCDE#32 ∧
    pswAfter (State.runWord (start [(2#4, 0x12345678#32), (3#4, 0x9ABCDEF0#32)]) 0x1C402032#32) = some (0#32, 0x1004#32) := by decide
/-- V188. -/
theorem test_shla : grAfter (State.runWord (start [(2#4, 5#32), (3#4, 7#32)]) 0x20400823#32) 1#4 = some 0x1B#32 ∧
    pswAfter (State.runWord (start [(2#4, 5#32), (3#4, 7#32)]) 0x20400823#32) = some (0#32, 0x1004#32) := by decide
/-- V194. -/
theorem test_shla_overflow : crAfter (State.runWord (start [(2#4, 0x3FFFFFFF#32), (3#4, 2#32)]) 0x20500423#32) 17#5 = some 0#32 ∧ crAfter (State.runWord (start [(2#4, 0x3FFFFFFF#32), (3#4, 2#32)]) 0x20500423#32) 18#5 = some 0x1000#32 ∧
    crAfter (State.runWord (start [(2#4, 0x3FFFFFFF#32), (3#4, 2#32)]) 0x20500423#32) 19#5 = some 0x20500423#32 ∧ pswAfter (State.runWord (start [(2#4, 0x3FFFFFFF#32), (3#4, 2#32)]) 0x20500423#32) = some (0#32, 0x8100#32) := by decide
/-- V200. -/
theorem test_cmr : grAfter (State.runWord (start [(1#4, 0x1111#32), (4#4, 0x4444#32), (5#4, 0x80000000#32)]) 0x24440045#32) 1#4 = some 0x4444#32 ∧
    pswAfter (State.runWord (start [(1#4, 0x1111#32), (4#4, 0x4444#32), (5#4, 0x80000000#32)]) 0x24440045#32) = some (0#32, 0x1004#32) := by decide
/-- V210. -/
theorem test_cmr_illegal : crAfter (State.runWord (start []) 0x24600045#32) 17#5 = some 0#32 ∧ crAfter (State.runWord (start []) 0x24600045#32) 18#5 = some 0x1000#32 ∧
    crAfter (State.runWord (start []) 0x24600045#32) 19#5 = some 0x24600045#32 ∧ pswAfter (State.runWord (start []) 0x24600045#32) = some (0#32, 0x80A0#32) := by decide
/-- V216, V218. -/
theorem test_mr : crAfter (State.runWord (user [(3#4, 0xABCD1237#32)]) 0x28F00002#32) 2#5 = some 0x17#32 ∧
    srAfter (State.runWord (start [(3#4, 0xABCD1234#32)]) 0x28E00005#32) 5#3 = some 0x1234#16 := by decide
/-- V218. -/
theorem test_mr_privileged : crAfter (State.runWord (user [(4#4, 0x4000#32)]) 0x29300010#32) 17#5 = some 0x40000000#32 ∧ crAfter (State.runWord (user [(4#4, 0x4000#32)]) 0x29300010#32) 18#5 = some 0x1000#32 ∧
    crAfter (State.runWord (user [(4#4, 0x4000#32)]) 0x29300010#32) 19#5 = some 0x29300010#32 ∧ pswAfter (State.runWord (user [(4#4, 0x4000#32)]) 0x29300010#32) = some (0#32, 0x80C0#32) := by decide
/-- V223. -/
theorem test_mst : grAfter (State.runWord ((start [(2#4, 0xFFFFFFF2#32)]).setSystemMask 5#4) 0x2C400002#32) 1#4 = some 5#32 ∧
    pswAfter (State.runWord ((start [(2#4, 0xFFFFFFF2#32)]).setSystemMask 5#4) 0x2C400002#32) =
      some (0x20000#32, 0x1004#32) := by decide
/-- V101, with CB cleared. -/
theorem test_add : grAfter (State.runWord (start [(2#4, 0x7FFFFFFF#32), (3#4, 1#32)]) 0x40440023#32) 1#4 = some 0x80000000#32 ∧
    pswAfter (State.runWord (start [(2#4, 0x7FFFFFFF#32), (3#4, 1#32)]) 0x40440023#32) = some (0#32, 0x1004#32) := by decide
/-- V105. -/
theorem test_add_overflow : crAfter (State.runWord (start [(2#4, 0xFFFFFFFF#32), (3#4, 1#32)]) 0x40740023#32) 17#5 = some 0#32 ∧ crAfter (State.runWord (start [(2#4, 0xFFFFFFFF#32), (3#4, 1#32)]) 0x40740023#32) 18#5 = some 0x1000#32 ∧
    crAfter (State.runWord (start [(2#4, 0xFFFFFFFF#32), (3#4, 1#32)]) 0x40740023#32) 19#5 = some 0x40740023#32 ∧ pswAfter (State.runWord (start [(2#4, 0xFFFFFFFF#32), (3#4, 1#32)]) 0x40740023#32) = some (0#32, 0x8100#32) := by decide
/-- V120. -/
theorem test_adc : grAfter (State.runWord (State.setCarry (start [(2#4, 5#32), (3#4, 7#32)]) (some true)) 0x44440023#32) 1#4 = some 0xD#32 ∧
    pswAfter (State.runWord (State.setCarry (start [(2#4, 5#32), (3#4, 7#32)]) (some true)) 0x44440023#32) = some (0#32, 0x1004#32) := by decide
/-- V125. -/
theorem test_sub : grAfter (State.runWord (start [(2#4, 3#32), (3#4, 10#32)]) 0x48440023#32) 1#4 = some 0xFFFFFFF9#32 ∧
    pswAfter (State.runWord (start [(2#4, 3#32), (3#4, 10#32)]) 0x48440023#32) = some (0x4000000#32, 0x1004#32) := by decide
/-- V133. -/
theorem test_sbc : grAfter (State.runWord (State.setCarry (start []) (some true)) 0x4C440023#32) 1#4 = some 0xFFFFFFFF#32 ∧
    pswAfter (State.runWord (State.setCarry (start []) (some true)) 0x4C440023#32) = some (0x4000000#32, 0x1004#32) := by decide
/-- V138. -/
theorem test_and : grAfter (State.runWord (start [(2#4, 0xFF00FF00#32), (3#4, 0x0FF00FF0#32)]) 0x50540023#32) 1#4 = some 0xF000F000#32 ∧
    pswAfter (State.runWord (start [(2#4, 0xFF00FF00#32), (3#4, 0x0FF00FF0#32)]) 0x50540023#32) = some (0#32, 0x1004#32) := by decide
/-- V143. -/
theorem test_and_memory : grAfter (State.runWord (withMem (start [(4#4, 0x2000#32), (5#4, 0xFFFFFFFF#32)]) 0x2000 [0x80#8, 0x91#8, 0xA2#8, 0xB3#8]) 0x514D0024#32) 5#4 = some 0xA2B3#32 ∧
    pswAfter (State.runWord (withMem (start [(4#4, 0x2000#32), (5#4, 0xFFFFFFFF#32)]) 0x2000 [0x80#8, 0x91#8, 0xA2#8, 0xB3#8]) 0x514D0024#32) = some (0#32, 0x1004#32) := by decide
/-- V145. -/
theorem test_or : grAfter (State.runWord (start [(2#4, 0xFF00FF00#32), (3#4, 0x0FF00FF0#32)]) 0x54640023#32) 1#4 = some 0x000F000F#32 ∧
    pswAfter (State.runWord (start [(2#4, 0xFF00FF00#32), (3#4, 0x0FF00FF0#32)]) 0x54640023#32) = some (0#32, 0x1004#32) := by decide
/-- V150. -/
theorem test_xor : grAfter (State.runWord (start [(2#4, 0xFF00FF00#32), (3#4, 0x0FF00FF0#32)]) 0x58640023#32) 1#4 = some 0x0F0F0F0F#32 ∧
    pswAfter (State.runWord (start [(2#4, 0xFF00FF00#32), (3#4, 0x0FF00FF0#32)]) 0x58640023#32) = some (0#32, 0x1004#32) := by decide
/-- V153. -/
theorem test_cmp : grAfter (State.runWord (start [(2#4, 0xFFFFFFFF#32), (6#4, 1#32)]) 0x5C540026#32) 1#4 = some 1#32 ∧
    pswAfter (State.runWord (start [(2#4, 0xFFFFFFFF#32), (6#4, 1#32)]) 0x5C540026#32) = some (0#32, 0x1004#32) := by decide
/-- V154. -/
theorem test_cmpu : grAfter (State.runWord (start [(2#4, 0xFFFFFFFF#32), (6#4, 1#32), (1#4, 0x55#32)]) 0x60540026#32) 1#4 = some 0#32 ∧
    pswAfter (State.runWord (start [(2#4, 0xFFFFFFFF#32), (6#4, 1#32), (1#4, 0x55#32)]) 0x60540026#32) = some (0#32, 0x1004#32) := by decide
/-- V70, with a link. -/
theorem test_b : grAfter (State.runWord (start []) 0x83BFFFFE#32) 14#4 = some 0x1004#32 ∧
    pswAfter (State.runWord (start []) 0x83BFFFFE#32) = some (0#32, 0xFF8#32) := by decide
/-- V73. -/
theorem test_br : grAfter (State.runWord (State.setOfs (start [(5#4, 0xFFFFFFFE#32)]) 0x3000#32) 0x8B800005#32) 14#4 = some 0x3004#32 ∧
    pswAfter (State.runWord (State.setOfs (start [(5#4, 0xFFFFFFFE#32)]) 0x3000#32) 0x8B800005#32) = some (0#32, 0x2FF8#32) := by decide
/-- V77. -/
theorem test_bv : grAfter (State.runWord (start [(14#4, 0x2000#32)]) 0x8F80000E#32) 14#4 = some 0x1004#32 ∧
    pswAfter (State.runWord (start [(14#4, 0x2000#32)]) 0x8F80000E#32) = some (0#32, 0x2000#32) := by decide
/-- V97: the new segment from SR4, the old one into SR0. -/
theorem test_be :
    let s := ((start [(1#4, 0x123400#32)]).writeSr 4#3 5#16).setSeg 9#16
    let r := State.runWord ({ s with psw := Psw.ofWords 0x20000009#32 0x1000#32 })
      0x93801541#32
    srAfter r 0#3 = some 9#16 ∧ pswAfter r = some (0x20000005#32, 0x123454#32) ∧ grAfter r 14#4 = some 0x1004#32 := by decide
/-- V80. -/
theorem test_bve : srAfter (State.runWord ((start [(4#4, 0x40002000#32), (3#4, 0x10#32)]).setSeg 5#16) 0x97800034#32) 0#3 =
      some 5#16 ∧
    pswAfter (State.runWord ((start [(4#4, 0x40002000#32), (3#4, 0x10#32)]).setSeg 5#16) 0x97800034#32) =
      some (5#32, 0x40002010#32) := by decide
/-- V85. -/
theorem test_cbr : pswAfter (State.runWord (start [(1#4, 0x80000000#32), (2#4, 0x7FFFFFFF#32)]) 0x9B000212#32) =
    some (0#32, 0x1008#32) := by decide
/-- V86. -/
theorem test_cbru : pswAfter (State.runWord (start [(1#4, 0x80000000#32), (2#4, 0x7FFFFFFF#32)]) 0x9F000212#32) =
    some (0#32, 0x1004#32) := by decide
/-- D22: GATE in a bypassed segment 0, with code translation on. -/
theorem test_gate_bypassed : pswAfter (exec (.gate 2#4 16#22) { user [] with psw := { (user []).psw with c := true } }) =
    some (0x20000000#32, 0x1040#32) := by decide
/-- V88. -/
theorem test_gate : pswAfter (State.runWord (user []) 0x84800010#32) = some (0#32, 0x1040#32) := by decide
/-- V12. -/
theorem test_ld : grAfter (State.runWord (withMem (start [(4#4, 0x2000#32)]) 0x2000 [0x80#8, 0x91#8, 0xA2#8, 0xB3#8, 0x11#8, 0x22#8, 0x33#8, 0x44#8]) 0xC0C10024#32) 3#4 = some 0xA2B3#32 ∧
    pswAfter (State.runWord (withMem (start [(4#4, 0x2000#32)]) 0x2000 [0x80#8, 0x91#8, 0xA2#8, 0xB3#8, 0x11#8, 0x22#8, 0x33#8, 0x44#8]) 0xC0C10024#32) = some (0#32, 0x1004#32) := by decide
/-- V18. -/
theorem test_ld_modify_wins : grAfter (State.runWord (withMem (start [(4#4, 0x2000#32)]) 0x2000 [0x80#8, 0x91#8, 0xA2#8, 0xB3#8, 0x11#8, 0x22#8, 0x33#8, 0x44#8]) 0xC1120044#32) 4#4 = some 0x8091A2B3#32 ∧
    pswAfter (State.runWord (withMem (start [(4#4, 0x2000#32)]) 0x2000 [0x80#8, 0x91#8, 0xA2#8, 0xB3#8, 0x11#8, 0x22#8, 0x33#8, 0x44#8]) 0xC1120044#32) = some (0#32, 0x1004#32) := by decide
/-- V29. -/
theorem test_st : memAfter (State.runWord (start [(4#4, 0x2008#32), (3#4, 0x11223344#32)]) 0xC4D2FFC4#32) 0x2004 =
      some 0x11223344#32 ∧
    grAfter (State.runWord (start [(4#4, 0x2008#32), (3#4, 0x11223344#32)]) 0xC4D2FFC4#32) 4#4 = some 0x2004#32 := by decide
/-- V26, with the neighbouring bytes. -/
theorem test_st_half : memAfter (State.runWord (withMem (start [(4#4, 0x2000#32), (3#4, 0x11223344#32)]) 0x2000 [0x80#8, 0x91#8, 0xA2#8, 0xB3#8, 0x11#8, 0x22#8, 0x33#8, 0x44#8]) 0xC4C10024#32)
    0x2000 = some 0x80913344#32 := by decide
/-- V35. -/
theorem test_lda : grAfter (State.runWord (withMem (start [(4#4, 0x2000#32), (5#4, 4#32)]) 0x2000 [0x80#8, 0x91#8, 0xA2#8, 0xB3#8, 0x11#8, 0x22#8, 0x33#8, 0x44#8]) 0xC8F20054#32) 4#4 = some 0x2004#32 ∧
    pswAfter (State.runWord (withMem (start [(4#4, 0x2000#32), (5#4, 4#32)]) 0x2000 [0x80#8, 0x91#8, 0xA2#8, 0xB3#8, 0x11#8, 0x22#8, 0x33#8, 0x44#8]) 0xC8F20054#32) = some (0#32, 0x1004#32) := by decide
/-- V36. -/
theorem test_sta : memAfter (State.runWord (start [(4#4, 0x2000#32), (3#4, 0x11223344#32)]) 0xCCC20104#32) 0x2010 =
    some 0x11223344#32 := by decide
/-- V60. -/
theorem test_ldr : grAfter (State.runWord (withMem (start [(4#4, 0x2000#32)]) 0x2000 [0x80#8, 0x91#8, 0xA2#8, 0xB3#8, 0x11#8, 0x22#8, 0x33#8, 0x44#8]) 0xD0C20004#32) 3#4 = some 0x8091A2B3#32 ∧
    pswAfter (State.runWord (withMem (start [(4#4, 0x2000#32)]) 0x2000 [0x80#8, 0x91#8, 0xA2#8, 0xB3#8, 0x11#8, 0x22#8, 0x33#8, 0x44#8]) 0xD0C20004#32) = some (0#32, 0x1004#32) := by decide
/-- V61, V62. -/
theorem test_stc :
    let s := start [(4#4, 0x2000#32), (5#4, 0x99#32)]
    memAfter (State.runWord ({ s with reservation := some 0x2000#34 }) 0xD5420004#32) 0x2000 =
      some 0x99#32 ∧ grAfter (State.runWord s 0xD5420004#32) 5#4 = some 1#32 := by decide

/-- The state of V228: data translation on, one entry for page 5 of segment 0x42. -/
def probeState (gr : List (GReg × Word)) : State :=
  let s := ((start gr).writeSr 1#3 0x42#16).setSystemMask 4#4
  { s with dtlb := [(vpn 0x42#16 0x14ABC#32, TlbEntry.ofArgument 0x08600123#32)] }

/-- V228. -/
theorem test_ldpa : grAfter (State.runWord (probeState [(4#4, 0x14ABC#32)]) 0xE5440004#32) 5#4 = some 0x48CABC#32 ∧
    pswAfter (State.runWord (probeState [(4#4, 0x14ABC#32)]) 0xE5440004#32) = some (0x40000#32, 0x1004#32) := by decide
/-- V233. -/
theorem test_prb : grAfter (State.runWord (probeState [(4#4, 0x14ABC#32), (6#4, 1#32), (7#4, 9#32)]) 0xE9E40064#32) 7#4 = some 0#32 ∧
    pswAfter (State.runWord (probeState [(4#4, 0x14ABC#32), (6#4, 1#32), (7#4, 9#32)]) 0xE9E40064#32) = some (0x40000#32, 0x1004#32) := by decide
/-- V232. -/
theorem test_prb_allowed : grAfter (State.runWord (probeState [(4#4, 0x14ABC#32), (6#4, 1#32)]) 0xE9C40064#32) 7#4 = some 1#32 ∧
    pswAfter (State.runWord (probeState [(4#4, 0x14ABC#32), (6#4, 1#32)]) 0xE9C40064#32) = some (0x40000#32, 0x1004#32) := by decide
/-- V239: the entry that R465 reads from the argument word. -/
theorem test_itlb :
    (match State.runWord ((start [(4#4, 0x14ABC#32), (3#4, 0x08600123#32)]).writeSr 1#3 0x42#16) 0xECE00014#32 with
      | .next t => tlbFind t.dtlb 0x42#16 0x14000#32
      | .fault _ => none
      | .refused _ => none) =
      some (TlbEntry.mk true false false false true .readWrite 1#1 0#1 0x00123#20) := by decide
/-- V244. -/
theorem test_ptlb : grAfter (State.runWord (probeState [(4#4, 0x14ABC#32), (5#4, 0x4000#32)]) 0xF0340054#32) 4#4 = some 0x18ABC#32 ∧
    pswAfter (State.runWord (probeState [(4#4, 0x14ABC#32), (5#4, 0x4000#32)]) 0xF0340054#32) = some (0x40000#32, 0x1004#32) := by decide
/-- V250. -/
theorem test_pca : grAfter (State.runWord (probeState [(4#4, 0x14ABC#32), (5#4, 0x40#32)]) 0xF4360054#32) 4#4 = some 0x14AFC#32 ∧
    pswAfter (State.runWord (probeState [(4#4, 0x14ABC#32), (5#4, 0x40#32)]) 0xF4360054#32) = some (0x40000#32, 0x1004#32) := by decide
/-- V254. -/
theorem test_diag : crAfter (State.runWord (user []) 0xF8540023#32) 17#5 = some 0x40000000#32 ∧ crAfter (State.runWord (user []) 0xF8540023#32) 18#5 = some 0x1000#32 ∧
    crAfter (State.runWord (user []) 0xF8540023#32) 19#5 = some 0xF8540023#32 ∧ pswAfter (State.runWord (user []) 0xF8540023#32) = some (0#32, 0x80C0#32) := by decide
/-- V255. -/
theorem test_diag_stops : stopOf (State.runWord (start []) 0xF8540023#32) = some (.inr .diagNotSupplied) := by decide
/-- V256. -/
theorem test_rfi : pswAfter (State.runWord (((start []).writeCr 17#5 0x60060042#32).writeCr 18#5 0x2003#32) 0xFC000000#32) =
    some (0x60060042#32, 0x2000#32) := by decide
/-- V259. -/
theorem test_brk : crAfter (State.runWord (start []) 0x00400002#32) 17#5 = some 0#32 ∧ crAfter (State.runWord (start []) 0x00400002#32) 18#5 = some 0x1000#32 ∧
    crAfter (State.runWord (start []) 0x00400002#32) 19#5 = some 0x00400002#32 ∧ pswAfter (State.runWord (start []) 0x00400002#32) = some (0#32, 0x8240#32) := by decide
/-- V262. -/
theorem test_unassigned : crAfter (State.runWord (start []) 0x34000123#32) 17#5 = some 0#32 ∧ crAfter (State.runWord (start []) 0x34000123#32) 18#5 = some 0x1000#32 ∧
    crAfter (State.runWord (start []) 0x34000123#32) 19#5 = some 0x34000123#32 ∧ pswAfter (State.runWord (start []) 0x34000123#32) = some (0#32, 0x80A0#32) := by decide
/-- V270: the trap that runWord takes; step refuses to begin with PSW.Z = 1 (R570; notes/assumptions/19.md). -/
theorem test_single_step :
    let s := start []
    let q := { s with psw := Psw.ofWords 0x4C090000#32 0x1000#32 }
    crAfter (State.runWord q 0xE0000000#32) 17#5 = some 0x4C090000#32 ∧ stopOf (step q) = some (.inr .singleStep) := by decide
/-- The first step after reset runs the word that withFetchWord places: V1. -/
theorem test_first_step : grAfter (step (State.reset.withFetchWord 32 0x06812345)) 10#4 = some 0x048D1400#32 ∧
    pswAfter (step (State.reset.withFetchWord 32 0x06812345)) = some (0#32, 0xF0000004#32) := by decide
/-- D21, U44: the vector is the plain sum, with CR16 not a multiple of 4. -/
theorem test_vector_plain : pswAfter (State.runWord ((start []).writeCr 16#5 0x8002#32) 0x00400002#32) = some (0#32, 0x8242#32) := by decide
/-- R23: the run of V1 ends at its end address, not before, and its instruction there is not executed. -/
theorem test_run :
    let s := State.reset.withFetchWord 32 0x06812345
    (match s.runTo (EndAddress.mk 0#16 0xF0000004#32) 5 with | .ended t => t.readGr 10#4 | _ => 0#32) = 0x048D1400#32 ∧
    s.runTo (EndAddress.mk 0#16 0xF0000000#32) 5 = .ended s := by decide
/-- R480: the effects of a DIAG command. -/
theorem test_diag_effects :
    let t := (start []).diagEffects [.gr 3#4 7#32, .mem 0x2001 0xAB#8, .status 0x0004#16, .cr 2#5 0xFF#32]
    t.readGr 3#4 = 7#32 ∧ t.dataByte 0x2001 = 0xAB#8 ∧ t.psw.d = true ∧ t.readCr 2#5 = 0x1F#32 ∧ t.psw.ofs = 0x1000#32 := by decide
/-- U37: a byte stored through page 5 is seen through it, and through another page as before up to the free step number. -/
theorem test_alias :
    aliasView 5 0 0x2000 [StoreRecord.mk 0x2000 5 0 1#8] 2#8 = 2#8 ∧ aliasView 6 0 0x2000 [StoreRecord.mk 0x2000 5 0 1#8] 2#8 = 1#8 ∧
    aliasView 6 1 0x2000 [StoreRecord.mk 0x2000 5 0 1#8] 2#8 = 2#8 := by decide
/-! ## Witnesses: for every statement with hypotheses, states and operands that meet them -/

/-- The translation that the witnesses use: page type read-write, both levels admitted, with the flags given. -/
def page (t d b p : Bool) (ptype : PageType) (pl1 pl2 : Level) : TlbEntry :=
  TlbEntry.mk true t d b p ptype pl1 pl2 0x40#20

/-- Data translation on, segment 7 in SR1 and SR5, one entry for the page of 0x40000000 (as in V38), GR4 = 0x40000100. -/
def dstate (e : TlbEntry) (x : Level) (p : Bool) (gr : List (GReg × Word)) : State :=
  let s := ((start ((4#4, 0x40000100#32) :: gr)).writeSr 5#3 7#16).writeSr 1#3 7#16
  { s with psw := { s.psw with x := x, d := true, p := p }, dtlb := [(vpn 7#16 0x40000100#32, e)] }

/-- The same without an entry. -/
def dmiss : State := { dstate (page false false false false .readWrite 1#1 1#1) 0#1 false [] with dtlb := [] }

/-- Code translation on, pc = 0x1000 in segment 9, the entries given (as in V89). -/
def cstate (itlb : List (Nat × TlbEntry)) (x : Level) (p : Bool) : State :=
  let s := start []
  { s with psw := { s.psw with x := x, c := true, p := p, seg := 9#16 }, itlb := itlb }

/-- A visible data cache that holds one dirty line of ones at 0x2000, with GR4 = 0x2004. -/
def vstate : State :=
  { start [(4#4, 0x2004#32)] with
    dc := [(0x2000, DataLine.mk (List.replicate 16 1#8) true)], params := { Params.default with cacheVisible := true } }

/-- A machine with 64 Kbytes of memory and a DIAG_FN, with the address given in GR4. -/
def small (a : Word) : State :=
  { start [(4#4, a)] with params := { Params.default with memTop := 0x10000, diagSupplied := true } }

/-! Instructions with the address GR4 that read or write data. -/

theorem reads_ld {s : State} {dw seg : BitVec 2} {n : Width} {sid : SegId} {ea : Word} (he : s.readGr 4#4 = ea)
    (hw : widthOf dw = some n) (hs : SegmentOf s seg ea sid) :
    ReadsMemory s (.ld 3#4 false seg dw (.ofs 0#12) 4#4) n sid ea :=
  .ld _ _ _ _ _ _ _ 0#32 _ _ hw rfl (by simp [AccessOffset, he]) hs

theorem reads_ldr {s : State} {seg : BitVec 2} {sid : SegId} {ea : Word} (he : s.readGr 4#4 + 0#32 = ea)
    (hs : SegmentOf s seg ea sid) : ReadsMemory s (.ldr 3#4 seg 0#12 4#4) .word sid ea := by
  subst he; exact .ldr _ _ _ _ _ hs

theorem reads_add {s : State} {dw : BitVec 2} {n : Width} {sid : SegId} {ea : Word} (he : s.readGr 4#4 + 0#32 = ea)
    (hw : widthOf dw = some n) (hs : SegmentOf s 0#2 ea sid) :
    ReadsMemory s (.add 3#4 false true (.offset dw 0#12 4#4)) n sid ea := by
  subst he; exact .operand _ _ _ _ _ _ (.add ..) (.offset _ _ _ _ hw) hs

theorem writes_st {s : State} {dw seg : BitVec 2} {n : Width} {sid : SegId} {ea : Word} (he : s.readGr 4#4 = ea)
    (hw : widthOf dw = some n) (hs : SegmentOf s seg ea sid) :
    WritesMemory s (.st 3#4 false seg dw (.ofs 0#12) 4#4) n sid ea :=
  .st _ _ _ _ _ _ _ 0#32 _ _ hw rfl (by simp [AccessOffset, he]) hs

theorem writes_stc {s : State} {seg : BitVec 2} {sid : SegId} {ea : Word} (he : s.readGr 4#4 + 0#32 = ea)
    (hs : SegmentOf s seg ea sid) : WritesMemory s (.stc 3#4 seg 0#12 4#4) .word sid ea := by
  subst he; exact .stc _ _ _ _ _ hs

/-- An untranslated access at an aligned word of memory passes its checks. -/
theorem reads_plain {s : State} {sid : SegId} {a : Word} (hd : s.psw.d = false) (ha : a.toNat % 4 = 0)
    (hm : regionOf s.params (a.setWidth 34).toNat 4 = .memory) : ReadsAt s sid a .word (a.setWidth 34) :=
  ⟨⟨ha, .inl ⟨.inl hd, rfl⟩⟩, hm⟩

theorem writes_plain {s : State} {sid : SegId} {a : Word} (hd : s.psw.d = false) (ha : a.toNat % 4 = 0)
    (hm : regionOf s.params (a.setWidth 34).toNat 4 = .memory) : WritesAt s sid a .word (a.setWidth 34) :=
  ⟨⟨ha, .inl ⟨.inl hd, rfl⟩⟩, hm⟩

theorem inv_start : Inv (start []) :=
  ⟨by decide, ⟨by decide, by decide⟩, ⟨by decide, by decide⟩, ⟨by decide, by decide⟩, ⟨by decide, by decide⟩, by decide,
    by decide, by decide, by decide, by decide, by decide, fun _ h => by cases h⟩

theorem inv_dstate : Inv (dstate (page false false false false .readWrite 1#1 1#1) 1#1 false []) :=
  ⟨by decide, ⟨by decide, by decide⟩, ⟨by decide, by decide⟩, ⟨by decide, by decide⟩, ⟨by decide, by decide⟩, by decide,
    by decide, by decide, by decide, by decide, by decide, fun _ h => by cases h⟩

theorem inv_vstate : Inv vstate :=
  ⟨by decide, ⟨by decide, by decide⟩, ⟨by decide, by decide⟩, ⟨by decide, by decide⟩, ⟨by decide, by decide⟩, by decide,
    by decide, by decide, by decide, by decide, by decide, fun _ h => by cases h⟩

/-- A reservation on an aligned word is admitted. -/
theorem inv_reserved : Inv { start [] with reservation := some 0x2000#34 } := inv_start.reserve (by decide)

/-! ### Encoding -/

theorem witness_EncodeDecode : decode 0xC0F20054#32 = .ok (.ld 3#4 true 0#2 2#2 (.index 5#4) 4#4) := by decide

/-! ### The step -/

theorem witness_UnassignedOpcodeTraps :
    UnassignedOpcode 0x34000123#32 ∧ UnassignedOpcode 0xE3FFFFFF#32 ∧ TrappingSubEncoding 0x24600145#32 ∧
    TrappingSubEncoding 0x2C700012#32 ∧ TrappingSubEncoding 0xC0C30004#32 ∧ TrappingSubEncoding 0x507B0004#32 ∧
    decode 0x24600145#32 = .illegal := by
  unfold UnassignedOpcode TrappingSubEncoding; decide

/-- Code translation off, a bypassed segment 0, and a page that demotes. -/
theorem witness_StepRunsInstruction :
    let s := withMem (start []) 0x1000 [0x06#8, 0x81#8, 0x23#8, 0x45#8]
    let z := withMem ((cstate [] 0#1 false).setSeg 0#16) 0x1000 [0x06#8, 0x81#8, 0x23#8, 0x45#8]
    let q := withMem (cstate [(vpn 9#16 0x1000#32, page false false false false .execute 1#1 1#1)] 0#1 false) 0x101000
      [0x06#8, 0x81#8, 0x23#8, 0x45#8]
    let runs := fun (s : State) (a : Nat) => s.psw.r = false ∧ s.psw.z = false ∧ s.psw.n = false ∧
      s.betweenSteps.interruptPending = false ∧ regionOf s.params a 4 = .memory ∧
      decodeBytes [s.betweenSteps.fetchByte a, s.betweenSteps.fetchByte (a + 1), s.betweenSteps.fetchByte (a + 2),
        s.betweenSteps.fetchByte (a + 3)] = .ok (.ldil 10#4 0x12345#22)
    (runs s 0x1000 ∧ FetchPlace s.betweenSteps 0x1000#34 s.betweenSteps) ∧
    (runs z 0x1000 ∧ z.psw.c = true ∧ FetchPlace z.betweenSteps 0x1000#34 z.betweenSteps) ∧
    (runs q 0x101000 ∧ FetchPlace q.betweenSteps 0x101000#34 (q.betweenSteps.setLevel 1#1)) :=
  ⟨⟨by decide, .inl ⟨by decide, by decide, rfl⟩⟩, ⟨by decide, by decide, .inl ⟨by decide, by decide, rfl⟩⟩,
    by decide, .inr ⟨by decide, by decide, page false false false false .execute 1#1 1#1, by decide, .inl rfl, by decide,
      fun h => absurd h (by decide), by decide, rfl⟩⟩

/-- An execute page that demotes, with a protection identifier that matches. -/
theorem witness_StepRunsTranslated :
    let e := page false false false true .execute 1#1 1#1
    let s := (cstate [(vpn 9#16 0x1000#32, e)] 0#1 true).writeCr 4#5 0x90000#32
    s.psw.r = false ∧ s.psw.z = false ∧ s.psw.n = false ∧ s.psw.c = true ∧ s.bypassed s.psw.seg = false ∧
    s.betweenSteps.interruptPending = false ∧ tlbFind s.betweenSteps.itlb s.psw.seg s.psw.ofs = some e ∧
    (e.ptype = .execute ∨ e.ptype = .gateway) ∧ s.psw.x ≤ e.pl1 ∧
    (s.psw.p = true → e.p = true → ¬ NoPidMatches s s.psw.seg) ∧
    regionOf s.params (e.address s.psw.ofs).toNat 4 = .memory ∧
    decodeBytes [s.betweenSteps.fetchByte (e.address s.psw.ofs).toNat,
      s.betweenSteps.fetchByte ((e.address s.psw.ofs).toNat + 1),
      s.betweenSteps.fetchByte ((e.address s.psw.ofs).toNat + 2),
      s.betweenSteps.fetchByte ((e.address s.psw.ofs).toNat + 3)] = .ok (.brk 0#4 0#16) := by
  unfold NoPidMatches; decide

/-- Untranslated, and through a page that demotes. -/
theorem witness_NullifiedStep :
    let e := page false false false false .execute 1#1 1#1
    let s := { start [] with psw := { (start []).psw with n := true } }
    let q := { cstate [(vpn 9#16 0x1000#32, e)] 0#1 false with
      psw := { (cstate [] 0#1 false).psw with n := true } }
    (s.psw.r = false ∧ s.psw.z = false ∧ s.psw.n = true ∧ s.betweenSteps.interruptPending = false ∧
      FetchPlace s.betweenSteps 0x1000#34 s.betweenSteps ∧ regionOf s.params (0x1000#34).toNat 4 = .memory) ∧
    (q.psw.r = false ∧ q.psw.z = false ∧ q.psw.n = true ∧ q.betweenSteps.interruptPending = false ∧
      FetchPlace q.betweenSteps 0x101000#34 (q.betweenSteps.setLevel 1#1) ∧
      regionOf q.params (0x101000#34).toNat 4 = .memory) :=
  ⟨⟨by decide, by decide, by decide, by decide, .inl ⟨by decide, by decide, rfl⟩, by decide⟩,
    ⟨by decide, by decide, by decide, by decide, .inr ⟨by decide, by decide, page false false false false .execute 1#1 1#1,
      by decide, .inl rfl, by decide, fun h => absurd h (by decide), by decide, rfl⟩, by decide⟩⟩

theorem witness_RefusedModes :
    (Psw.ofWords 0x00100000#32 0#32).r = true ∧ (Psw.ofWords 0x00080000#32 0#32).r = false ∧
    (Psw.ofWords 0x00080000#32 0#32).z = true := by decide

theorem witness_InterruptTaken : (start []).psw.r = false ∧ (start []).psw.z = false ∧ (start []).psw.e = false := by decide

theorem witness_FetchTraps :
    let c := fun (e : TlbEntry) (x : Level) (p : Bool) => cstate [(vpn 9#16 0x1000#32, e)] x p
    ((cstate [] 0#1 false).psw.c = true ∧ (cstate [] 0#1 false).bypassed 9#16 = false ∧
      tlbFind (cstate [] 0#1 false).itlb 9#16 0x1000#32 = none) ∧
    (∃ e, tlbFind (c e 0#1 false).itlb 9#16 0x1000#32 = some e ∧ e.ptype = .readOnly) ∧
    (∃ e, tlbFind (c e 0#1 false).itlb 9#16 0x1000#32 = some e ∧ e.ptype = .readWrite) ∧
    (∃ e, tlbFind (c e 1#1 false).itlb 9#16 0x1000#32 = some e ∧ e.pl1 < (c e 1#1 false).psw.x) ∧
    (∃ e, tlbFind (c e 0#1 true).itlb 9#16 0x1000#32 = some e ∧ (c e 0#1 true).psw.p = true ∧ e.p = true ∧
      NoPidMatches (c e 0#1 true) 9#16) :=
  ⟨by decide, ⟨page false false false false .readOnly 0#1 0#1, by decide⟩,
    ⟨page false false false false .readWrite 1#1 1#1, by decide⟩, ⟨page false false false false .execute 0#1 0#1, by decide⟩,
    ⟨page false false false true .gateway 1#1 0#1, by unfold NoPidMatches; decide⟩⟩

/-! ### Invariants and privilege -/

theorem witness_StepKeepsInv : Inv (start []) ∧ PcAligned (start []) ∧ BaseAligned (start []) ∧
    pswAfter (step (start [])) = some (0#32, 0x1004#32) :=
  ⟨inv_start, by unfold PcAligned; decide, by unfold BaseAligned; decide, by decide⟩

theorem witness_StepKeepsParameters : pswAfter (step (start [])) = some (0#32, 0x1004#32) := by decide

/-- A user instruction that completes, one that traps, and a GATE that promotes. -/
theorem witness_UserModeContained :
    (user []).psw.x = 1#1 ∧ pswAfter (exec (.ldil 3#4 1#22) (user [])) = some (0x40000000#32, 0x1004#32) ∧
    pswAfter (exec .rfi (user [])) = some (0#32, 0x80C0#32) ∧
    pswAfter (exec (.gate 2#4 16#22) (user [])) = some (0#32, 0x1040#32) := by decide

/-- Every kind of privileged instruction; SR5 and CR16 are in the privileged sets. -/
theorem witness_PrivilegedInstructionsTrap :
    (user []).psw.x = 1#1 ∧ NeedsPrivilege (user []).params .rfi ∧ NeedsPrivilege (user []).params (.mst 1#4 (.set 4#4)) ∧
    NeedsPrivilege (user []).params (.mr 1#4 true (.sr 5#3)) ∧ NeedsPrivilege (user []).params (.mr 1#4 true (.cr 16#5)) :=
  ⟨by decide, trivial, (fun _ => nofun), ⟨rfl, by decide⟩,
    ⟨rfl, by decide, by decide⟩⟩

theorem witness_TrapThenReturn : PcAligned (start []) := by unfold PcAligned; decide

/-! ### Traps of data accesses -/

/-- Every kind of access, at the first misaligned word address; a half-word; LDA and STA with a negative displacement. -/
theorem witness_MisalignedAccessTraps :
    let s := start [(4#4, 0x2001#32)]
    ReadsMemory s (.ld 3#4 false 0#2 2#2 (.ofs 0#12) 4#4) .word 0#16 0x2001#32 ∧
    ReadsMemory s (.ldr 3#4 1#2 0#12 4#4) .word 0#16 0x2001#32 ∧
    ReadsMemory s (.add 3#4 false true (.offset 1#2 0#12 4#4)) .half 0#16 0x2001#32 ∧
    WritesMemory s (.st 3#4 false 0#2 1#2 (.ofs 0#12) 4#4) .half 0#16 0x2001#32 ∧
    WritesMemory s (.stc 3#4 3#2 0#12 4#4) .word 0#16 0x2001#32 ∧
    (0x2001#32).toNat % Width.word.bytes ≠ 0 ∧ (0x2001#32).toNat % Width.half.bytes ≠ 0 ∧
    s.psw.x = 0#1 ∧ Displacement s (.ofs 0xFFE#12) 0xFFFFFFFE#32 ∧
    AccessOffset s true 4#4 0xFFFFFFFE#32 0x1FFF#32 ∧ (0x1FFF#32).toNat % 4 ≠ 0 :=
  ⟨reads_ld rfl rfl ⟨4#3, by decide, rfl⟩, reads_ldr rfl ⟨1#3, by decide, rfl⟩, reads_add rfl rfl ⟨4#3, by decide, rfl⟩,
    writes_st rfl rfl ⟨4#3, by decide, rfl⟩, writes_stc rfl ⟨3#3, by decide, rfl⟩, by decide, by decide, by decide,
    by unfold Displacement; decide, by unfold AccessOffset; decide, by decide⟩

/-- Every kind of access of memory at (7, 0x40000100), through SR1 or by the leftmost bits of the offset, whatever the
valid entry, the level and the protection. -/
theorem dstate_accesses (e : TlbEntry) (x : Level) (p : Bool) (hv : e.v = true) :
    let s := dstate e x p []
    ReadsMemory s (.ld 3#4 false 0#2 2#2 (.ofs 0#12) 4#4) .word 7#16 0x40000100#32 ∧
    ReadsMemory s (.ldr 3#4 1#2 0#12 4#4) .word 7#16 0x40000100#32 ∧
    ReadsMemory s (.add 3#4 false true (.offset 2#2 0#12 4#4)) .word 7#16 0x40000100#32 ∧
    WritesMemory s (.st 3#4 false 0#2 2#2 (.ofs 0#12) 4#4) .word 7#16 0x40000100#32 ∧
    WritesMemory s (.stc 3#4 1#2 0#12 4#4) .word 7#16 0x40000100#32 ∧
    (0x40000100#32).toNat % Width.word.bytes = 0 ∧ s.psw.d = true ∧ s.bypassed 7#16 = false ∧
    tlbFind s.dtlb 7#16 0x40000100#32 = some e ∧ s.psw.x = x ∧ s.psw.p = p :=
  ⟨reads_ld rfl rfl ⟨5#3, by decide, rfl⟩, reads_ldr rfl ⟨1#3, by decide, rfl⟩, reads_add rfl rfl ⟨5#3, by decide, rfl⟩,
    writes_st rfl rfl ⟨5#3, by decide, rfl⟩, writes_stc rfl ⟨1#3, by decide, rfl⟩, by decide, rfl, rfl,
    by simp [dstate, tlbFind, mapFind, hv], rfl, rfl⟩

/-- The same without an entry. -/
theorem dmiss_accesses :
    ReadsMemory dmiss (.ld 3#4 false 0#2 2#2 (.ofs 0#12) 4#4) .word 7#16 0x40000100#32 ∧
    ReadsMemory dmiss (.ldr 3#4 1#2 0#12 4#4) .word 7#16 0x40000100#32 ∧
    ReadsMemory dmiss (.add 3#4 false true (.offset 2#2 0#12 4#4)) .word 7#16 0x40000100#32 ∧
    WritesMemory dmiss (.st 3#4 false 0#2 2#2 (.ofs 0#12) 4#4) .word 7#16 0x40000100#32 ∧
    WritesMemory dmiss (.stc 3#4 1#2 0#12 4#4) .word 7#16 0x40000100#32 ∧
    (0x40000100#32).toNat % Width.word.bytes = 0 ∧ dmiss.psw.d = true ∧ dmiss.bypassed 7#16 = false ∧
    tlbFind dmiss.dtlb 7#16 0x40000100#32 = none :=
  ⟨reads_ld rfl rfl ⟨5#3, by decide, rfl⟩, reads_ldr rfl ⟨1#3, by decide, rfl⟩, reads_add rfl rfl ⟨5#3, by decide, rfl⟩,
    writes_st rfl rfl ⟨5#3, by decide, rfl⟩, writes_stc rfl ⟨1#3, by decide, rfl⟩, by decide, rfl, rfl, rfl⟩

/-- The entries and levels of the three traps through an entry, for the accesses of dstate_accesses; no entry, for those of
dmiss_accesses. -/
theorem witness_LoadTranslationTraps :
    (ReadsMemory dmiss (.ldr 3#4 1#2 0#12 4#4) .word 7#16 0x40000100#32 ∧ tlbFind dmiss.dtlb 7#16 0x40000100#32 = none) ∧
    (∃ e, tlbFind (dstate e 1#1 false []).dtlb 7#16 0x40000100#32 = some e ∧ ¬ (dstate e 1#1 false []).psw.x ≤ e.pl1) ∧
    (∃ e, tlbFind (dstate e 1#1 true []).dtlb 7#16 0x40000100#32 = some e ∧ (dstate e 1#1 true []).psw.x ≤ e.pl1 ∧
      (dstate e 1#1 true []).psw.p = true ∧ e.p = true ∧ NoPidMatches (dstate e 1#1 true []) 7#16) ∧
    (∃ e, tlbFind (dstate e 1#1 false []).dtlb 7#16 0x40000100#32 = some e ∧ (dstate e 1#1 false []).psw.x ≤ e.pl1 ∧
      ((dstate e 1#1 false []).psw.p = true → e.p = true → ¬ NoPidMatches (dstate e 1#1 false []) 7#16) ∧ e.t = true) :=
  ⟨⟨dmiss_accesses.2.1, by decide⟩, ⟨page false false false false .readWrite 0#1 0#1, by decide⟩,
    ⟨page false false false true .readWrite 1#1 1#1, by unfold NoPidMatches; decide⟩,
    ⟨page true false false true .readWrite 1#1 1#1, by unfold NoPidMatches; decide⟩⟩

/-- Likewise for the five traps of a write through an entry, and no entry. -/
theorem witness_StoreTranslationTraps :
    let s := fun (e : TlbEntry) (x : Level) (p : Bool) => dstate e x p []
    (WritesMemory dmiss (.stc 3#4 1#2 0#12 4#4) .word 7#16 0x40000100#32 ∧
      tlbFind dmiss.dtlb 7#16 0x40000100#32 = none) ∧
    (∃ e, tlbFind (s e 0#1 false).dtlb 7#16 0x40000100#32 = some e ∧ e.writeAllowed 0#1 = false) ∧
    (∃ e, tlbFind (s e 1#1 true).dtlb 7#16 0x40000100#32 = some e ∧ e.writeAllowed 1#1 = true ∧ e.p = true ∧
      NoPidMatches (s e 1#1 true) 7#16) ∧
    (∃ e, tlbFind (s e 1#1 false).dtlb 7#16 0x40000100#32 = some e ∧ e.writeAllowed 1#1 = true ∧
      (s e 1#1 false).psw.p = false ∧ e.t = true) ∧
    (∃ e, tlbFind (s e 1#1 false).dtlb 7#16 0x40000100#32 = some e ∧ e.writeAllowed 1#1 = true ∧
      (s e 1#1 false).psw.p = false ∧ e.t = false ∧ e.d = true) ∧
    (∃ e, tlbFind (s e 1#1 false).dtlb 7#16 0x40000100#32 = some e ∧ e.writeAllowed 1#1 = true ∧
      (s e 1#1 false).psw.p = false ∧ e.t = false ∧ e.d = false ∧ e.b = true) :=
  ⟨⟨dmiss_accesses.2.2.2.2.1, by decide⟩, ⟨page false false false false .readOnly 1#1 1#1, by decide⟩,
    ⟨page false false false true .readWrite 1#1 1#1, by unfold NoPidMatches; decide⟩,
    ⟨page true true true false .readWrite 1#1 1#1, by decide⟩, ⟨page false true true false .readWrite 1#1 1#1, by decide⟩,
    ⟨page false false true false .readWrite 1#1 1#1, by decide⟩⟩

/-- A read of memory, of I/O space, and of an address that holds nothing, through entries with the B flag. -/
theorem witness_DataReferenceTrapAfterLoad :
    let e := page false true true true .readWrite 1#1 1#1
    let f := TlbEntry.mk true false false true false .readOnly 1#1 1#1 0x3C400#20
    let s := dstate e 1#1 false []
    let v := dstate f 1#1 false []
    let u := { s with params := { s.params with memTop := 0x100000 } }
    let hyp := fun (s : State) (e : TlbEntry) => (0x40000100#32).toNat % Width.word.bytes = 0 ∧ s.psw.d = true ∧
      s.bypassed 7#16 = false ∧ tlbFind s.dtlb 7#16 0x40000100#32 = some e ∧ s.psw.x ≤ e.pl1 ∧ s.psw.p = false ∧
      e.t = false ∧ e.b = true
    (ReadsMemory s (.ld 3#4 false 0#2 2#2 (.ofs 0#12) 4#4) .word 7#16 0x40000100#32 ∧ Displacement s (.ofs 0#12) 0#32 ∧
      hyp s e ∧ 0x100100#34 = e.ppn ++ (0x40000100#32).extractLsb' 0 14 ∧
      regionOf s.params (0x100100#34).toNat Width.word.bytes = .memory) ∧
    (ReadsMemory v (.ldr 3#4 1#2 0#12 4#4) .word 7#16 0x40000100#32 ∧ hyp v f ∧
      0xF1000100#34 = f.ppn ++ (0x40000100#32).extractLsb' 0 14 ∧
      regionOf v.params (0xF1000100#34).toNat Width.word.bytes = .io) ∧
    (ReadsMemory u (.add 3#4 false true (.offset 2#2 0#12 4#4)) .word 7#16 0x40000100#32 ∧
      HasOperand (.add 3#4 false true (.offset 2#2 0#12 4#4)) 3#4 (.offset 2#2 0#12 4#4) ∧ hyp u e ∧
      regionOf u.params (0x100100#34).toNat Width.word.bytes = .absent) :=
  ⟨⟨(dstate_accesses _ _ _ rfl).1, rfl, by decide, by decide, by decide⟩,
    ⟨(dstate_accesses _ _ _ rfl).2.1, by decide, by decide, by decide⟩,
    reads_add rfl rfl ⟨5#3, by decide, rfl⟩, .add .., by decide, by decide⟩

/-! ### Memory and caches -/

/-- The lowest word and the highest byte of installed memory, a byte of the PDC region, and a word in a visible cache. -/
theorem witness_DataReadAfterWrite :
    Inv (start []) ∧ regionOf (start []).params (0#34).toNat Width.word.bytes = .memory ∧
    regionOf (start []).params (0xEFFFFFFF#34).toNat Width.byte.bytes = .memory ∧
    regionOf (start []).params (0xF0FFFFFF#34).toNat Width.byte.bytes = .memory ∧
    Inv vstate ∧ regionOf vstate.params (0x2004#34).toNat Width.word.bytes = .memory ∧
    vstate.params.cacheVisible = true :=
  ⟨inv_start, by decide, by decide, by decide, inv_vstate, by decide, by decide⟩

theorem witness_MultiByteValue : Inv vstate ∧ Inv (start []) ∧ 0 < Width.byte.bytes ∧ 1 < Width.half.bytes ∧
    3 < Width.word.bytes := ⟨inv_vstate, inv_start, by decide⟩

theorem witness_CacheHardwareInvisible :
    Inv vstate ∧ vstate.params.cacheVisible = true ∧ vstate.params.ioAgents = false := ⟨inv_vstate, by decide⟩

/-- The first and the last byte of a dirty line. -/
theorem witness_FlushThenPurgeIsCoherent :
    Inv vstate ∧ vstate.params.ioAgents = false ∧ lineBase vstate.params 0x2000 = lineBase vstate.params 0x200F ∧
    lineBase vstate.params 0x2010 ≠ lineBase vstate.params 0x200F := ⟨inv_vstate, by decide⟩

theorem witness_AccessRights :
    (0#32).extractLsb' 22 2 = 0#2 ∧ (0x00400000#32).extractLsb' 22 2 = 1#2 ∧ (0x00800000#32).extractLsb' 22 2 = 2#2 ∧
    (0x00C00000#32).extractLsb' 22 2 = 3#2 := by decide

/-! ### Immediate and register-format instructions -/

theorem witness_LoadSegmentIdentifier :
    (7#3).toNat = 4 + ((start [(4#4, 0xFFFFFFFF#32)]).readGr 4#4).toNat / 2 ^ 30 ∧
    (4#3).toNat = 4 + ((start []).readGr 0#4).toNat / 2 ^ 30 := by decide

/-- A one-bit field at the left end, the longest field, and a position from SHAMT. -/
theorem witness_ExtractBitField :
    let s := (start [(2#4, 0x12345678#32)]).writeCr 2#5 31#32
    ((1#5).toNat ≠ 0 ∧ (1#5).toNat ≤ fieldPosition s false 0#5 + 1) ∧
    ((31#5).toNat ≠ 0 ∧ (31#5).toNat ≤ fieldPosition s false 30#5 + 1) ∧
    ((31#5).toNat ≠ 0 ∧ (31#5).toNat ≤ fieldPosition s true 0#5 + 1) := by decide

theorem witness_DepositBitField :
    let s := (start [(2#4, 0x12345678#32)]).writeCr 2#5 31#32
    ((1#5).toNat ≠ 0 ∧ (1#5).toNat ≤ fieldPosition s false 0#5 + 1) ∧
    ((31#5).toNat ≠ 0 ∧ (31#5).toNat ≤ fieldPosition s true 0#5 + 1) ∧
    (∃ b, DepSrc.reg 2#4 = .reg b ∧ 0x12345678#32 = s.readGr b) ∧
    ∃ k : BitVec 4, DepSrc.imm 8#4 = .imm k ∧ 0xFFFFFFF8#32 = k.signExtend 32 :=
  ⟨by decide, by decide, ⟨2#4, rfl, by decide⟩, ⟨8#4, rfl, by decide⟩⟩

/-- A word with a reserved field that is not as drawn is the encoding of no instruction. -/
theorem not_encoded (i : Instr) : encode i ≠ 0xFC000001#32 := by
  intro h
  have ho : Laws.opcodeOf i = 0x3F#6 := by rw [← Laws.encode_opcode, h]; decide
  cases i <;> first | (revert h; decide) | simp [Laws.opcodeOf] at ho

theorem witness_UndefinedOperationsStop :
    ((∀ i, encode i ≠ 0xFC000001#32) ∧ ¬ UnassignedOpcode 0xFC000001#32 ∧ ¬ TrappingSubEncoding 0xFC000001#32) ∧
    decode 0xECE00084#32 = .undefined ∧ decode 0x24400145#32 = .undefined ∧
    (0#5).toNat = 0 ∧ fieldPosition (start []) false 3#5 + 1 < (5#5).toNat ∧
    fieldPosition (start []) true 31#5 + 1 < (2#5).toNat ∧ operandReserved (.reg 2#4 3#4) = false ∧
    operandReserved (.offset 2#2 0#12 4#4) = false ∧ (cstate [] 0#1 false).psw.c = true ∧ 8 ≤ (8#4).toNat ∧
    8 ≤ (15#4).toNat :=
  ⟨⟨not_encoded, by unfold UnassignedOpcode; decide, by unfold TrappingSubEncoding; decide⟩, by decide⟩

/-- Both hypotheses, at the largest sum that fits and the next one, signed and unsigned. -/
theorem witness_ShiftLeftAndAdd :
    let s := start [(2#4, 0x3FFFFFFF#32), (3#4, 1#32), (4#4, 2#32), (5#4, 0x7FFFFFFF#32)]
    Representable false (exactValue false (s.readGr 2#4) * 2 ^ (1#2).toNat + exactValue false (s.readGr 3#4)) ∧
    ¬ Representable false (exactValue false (s.readGr 2#4) * 2 ^ (1#2).toNat + exactValue false (s.readGr 4#4)) ∧
    Representable true (exactValue true (s.readGr 5#4) * 2 ^ (1#2).toNat + exactValue true (s.readGr 3#4)) ∧
    ¬ Representable true (exactValue true (s.readGr 5#4) * 2 ^ (1#2).toNat + exactValue true (s.readGr 4#4)) := by
  unfold Representable exactValue; decide

/-- Each condition of CMR holds of one value and fails of another; the undefined conditions begin at 8 and end at 15. -/
theorem witness_ConditionalMove :
    let s := start [(1#4, 1#32), (2#4, 0x80000000#32)]
    (s.readGr 0#4 = 0#32 ∧ s.readGr 1#4 ≠ 0#32) ∧ ((s.readGr 2#4).toInt < 0 ∧ ¬ (s.readGr 0#4).toInt < 0) ∧
    (0 < (s.readGr 1#4).toInt ∧ ¬ 0 < (s.readGr 0#4).toInt) ∧ ((s.readGr 2#4).toNat % 2 = 0 ∧ (s.readGr 1#4).toNat % 2 = 1) ∧
    ((s.readGr 0#4).toInt ≤ 0 ∧ ¬ (s.readGr 1#4).toInt ≤ 0) ∧ (0 ≤ (s.readGr 0#4).toInt ∧ ¬ 0 ≤ (s.readGr 2#4).toInt) ∧
    8 ≤ (8#4).toNat ∧ 8 ≤ (15#4).toNat := by decide

/-! ### Operands -/

/-- Memory operands of every width, by register and by offset, untranslated and translated. -/
theorem witness_OperandModes :
    let s := start [(4#4, 0x2000#32), (6#4, 4#32)]
    let e := page false false false false .readOnly 1#1 1#1
    (MemoryOperand s (.indexed 2#2 6#4 4#4) .word (s.readGr 4#4 + s.readGr 6#4) ∧
      SegmentOf s 0#2 0x2004#32 0#16 ∧ ReadsAt s 0#16 (s.readGr 4#4 + s.readGr 6#4) .word 0x2004#34) ∧
    (MemoryOperand s (.offset 1#2 0xFFE#12 4#4) .half (s.readGr 4#4 + (0xFFE#12).signExtend 32) ∧
      ReadsAt s 0#16 (s.readGr 4#4 + (0xFFE#12).signExtend 32) .half 0x1FFE#34) ∧
    (MemoryOperand (dstate e 1#1 false []) (.offset 0#2 0#12 4#4) .byte
        ((dstate e 1#1 false []).readGr 4#4 + (0#12).signExtend 32) ∧
      SegmentOf (dstate e 1#1 false []) 0#2 0x40000100#32 7#16 ∧
      ReadsAt (dstate e 1#1 false []) 7#16 0x40000100#32 .byte 0x100100#34) ∧
    (∃ a b, Operand.indexed 3#2 6#4 4#4 = .indexed 3#2 a b) ∧ (∃ o b, Operand.offset 3#2 0#12 4#4 = .offset 3#2 o b) ∧
    HasOperand (.cmpu 5#4 .eq (.indexed 3#2 6#4 4#4)) 5#4 (.indexed 3#2 6#4 4#4) :=
  ⟨⟨.indexed _ _ _ _ rfl, ⟨4#3, by decide, rfl⟩, reads_plain rfl rfl rfl⟩,
    ⟨.offset _ _ _ _ rfl, ⟨⟨by decide, .inl ⟨.inl rfl, by decide⟩⟩, by decide⟩⟩,
    ⟨.offset _ _ _ _ rfl, ⟨5#3, by decide, rfl⟩, ⟨⟨by decide, .inr ⟨by decide, by decide, _, rfl, by decide, by decide,
      by decide, by decide, by decide⟩⟩, by decide⟩⟩, ⟨_, _, rfl⟩, ⟨_, _, rfl⟩, .cmpu ..⟩

/-- A register operand, and one in memory that leaves a trap for afterwards, with sums at the largest value that fits. -/
theorem witness_AddResult :
    let s := start [(2#4, 0x7FFFFFFE#32), (3#4, 1#32)]
    let i := Instr.add 1#4 false true (.reg 2#4 3#4)
    let d := dstate (page false false true false .readWrite 1#1 1#1) 1#1 false []
    (s.operand (encode i) 1#4 (.reg 2#4 3#4) = .ok { a := 0x7FFFFFFE#32, b := 1#32, late := none } s ∧
      Representable false (exactValue false 0x7FFFFFFE#32 + exactValue false 1#32 + (0 : Nat)) ∧
      (0 : Nat) = (if s.psw.cb then 1 else 0)) ∧
    ∃ q, d.operand (encode (.add 1#4 false true (.offset 2#2 0#12 4#4))) 1#4 (.offset 2#2 0#12 4#4) = .ok q d ∧
      q.late.isSome = true ∧ Representable false (exactValue false q.a + exactValue false q.b + (0 : Nat)) :=
  ⟨⟨rfl, by unfold Representable exactValue; decide, by decide⟩, _, rfl, by decide,
    by unfold Representable exactValue; decide⟩

theorem witness_SubtractResult :
    let s := (start [(2#4, 0x80000001#32), (3#4, 0#32)]).setCarry (some true)
    let i := Instr.sbc 1#4 false true (.reg 2#4 3#4)
    s.operand (encode i) 1#4 (.reg 2#4 3#4) = .ok { a := 0x80000001#32, b := 0#32, late := none } s ∧
    Representable false (exactValue false 0x80000001#32 - exactValue false 0#32 - (1 : Nat)) ∧
    (1 : Nat) = (if s.psw.cb then 1 else 0) := ⟨rfl, by unfold Representable exactValue; decide, by decide⟩

theorem witness_OverflowTraps :
    let s := start [(2#4, 0x7FFFFFFF#32), (3#4, 1#32)]
    s.operand (encode (.add 1#4 false true (.reg 2#4 3#4))) 1#4 (.reg 2#4 3#4) =
      .ok { a := 0x7FFFFFFF#32, b := 1#32, late := none } s ∧
    ¬ Representable false (exactValue false 0x7FFFFFFF#32 + exactValue false 1#32) ∧
    ¬ Representable true (exactValue true 1#32 - exactValue true 2#32) :=
  ⟨rfl, by unfold Representable exactValue; decide, by unfold Representable exactValue; decide⟩

/-- An immediate operand, and one in I/O space, whose fetch is recorded. -/
theorem witness_LogicResult :
    let s := start [(4#4, 0xF1000000#32)]
    s.operand (encode (.and 5#4 true false (.imm 3#18))) 5#4 (.imm 3#18) =
      .ok { a := 0#32, b := 3#32, late := none } s ∧ (true && false) = false ∧
    ∃ q, s.operand (encode (.xor 5#4 true (.offset 2#2 0#12 4#4))) 5#4 (.offset 2#2 0#12 4#4) =
      .ok q (s.logIo (.read 0xF1000000 .word)) ∧ q.late = none := ⟨rfl, rfl, _, rfl, rfl⟩

theorem witness_CompareResult :
    let s := start [(5#4, 0xFFFFFFFF#32)]
    s.operand (encode (.cmp 5#4 .le (.imm 0x3FFFF#18))) 5#4 (.imm 0x3FFFF#18) =
      .ok { a := 0xFFFFFFFF#32, b := 0xFFFFFFFF#32, late := none } s := rfl

/-! ### Branches -/

/-- BE with code translation on at the highest segment register and with it off at a field that names none; BVE. -/
theorem witness_ExternalBranches :
    let s := cstate [] 0#1 false
    s.psw.c = true ∧ (7#3).toNat = (7#4).toNat ∧ (start []).psw.c = false ∧
    (4#3).toNat = 4 + (0x3FFFFFFF#32).toNat / 2 ^ 30 ∧ (7#3).toNat = 4 + (0xFFFFFFFF#32).toNat / 2 ^ 30 := by
  decide

theorem witness_ConditionalBranches :
    let s := start [(1#4, 0x80000000#32), (2#4, 0x7FFFFFFF#32)]
    ((s.readGr 1#4).toInt < (s.readGr 2#4).toInt ∧ ¬ (s.readGr 2#4).toInt < (s.readGr 1#4).toInt) ∧
    (((s.readGr 2#4).toNat : Int) < (s.readGr 1#4).toNat ∧ s.readGr 0#4 = 0#32) := by decide

theorem witness_Gate :
    let e := page false false false false .gateway 1#1 0#1
    let s := cstate [(vpn 9#16 0x1000#32, e)] 1#1 false
    (start []).psw.c = false ∧
    ((s.setSeg 0#16).psw.c = true ∧ (s.setSeg 0#16).bypassed (s.setSeg 0#16).psw.seg = true) ∧
    (s.psw.c = true ∧ s.bypassed s.psw.seg = false ∧ tlbFind s.itlb s.psw.seg s.psw.ofs = some e) := by
  decide

/-! ### Memory reference -/

/-- Translated in user mode with a byte displacement, the bypassed segment 0, and the highest word of memory; LDA. -/
theorem witness_Loads :
    let e := page false true false false .readWrite 1#1 1#1
    let s := dstate e 1#1 false []
    let m := start [(4#4, 0xEFFFFFFC#32)]
    (widthOf 0#2 = some .byte ∧ Displacement s (.ofs 0xFFF#12) 0xFFFFFFFF#32 ∧
      AccessOffset s true 4#4 0xFFFFFFFF#32 0x400000FF#32 ∧ SegmentOf s 0#2 0x400000FF#32 7#16 ∧
      ReadsAt s 7#16 0x400000FF#32 .byte 0x1000FF#34) ∧
    (Displacement s (.index 4#4) 0x40000100#32 ∧ AccessOffset s true 0#4 0x40000100#32 0#32 ∧
      SegmentOf s 2#2 0#32 0#16 ∧ ReadsAt s 0#16 0#32 .word 0#34) ∧
    (AccessOffset m false 4#4 0#32 0xEFFFFFFC#32 ∧ SegmentOf m 0#2 0xEFFFFFFC#32 0#16 ∧
      ReadsAt m 0#16 0xEFFFFFFC#32 .word 0xEFFFFFFC#34) ∧
    ((start []).psw.x = 0#1 ∧ Displacement (start []) (.ofs 0x7FC#12) 0x7FC#32 ∧
      AccessOffset (start []) false 0#4 0x7FC#32 0x7FC#32 ∧ (0x7FC#32).toNat % 4 = 0 ∧
      regionOf (start []).params (0x7FC#32).toNat 4 = .memory) :=
  ⟨⟨by decide, by unfold Displacement; decide, by unfold AccessOffset; decide, ⟨5#3, by decide, rfl⟩,
      ⟨⟨by decide, .inr ⟨by decide, by decide, _, rfl, by decide, by decide, by decide, by decide, by decide⟩⟩, by decide⟩⟩,
    ⟨rfl, by unfold AccessOffset; decide, ⟨2#3, by decide, rfl⟩,
      ⟨⟨by decide, .inl ⟨.inr (by decide), by decide⟩⟩, by decide⟩⟩,
    ⟨by unfold AccessOffset; decide, ⟨7#3, by decide, rfl⟩, reads_plain rfl rfl (by decide)⟩,
    ⟨by decide, by unfold Displacement; decide, by unfold AccessOffset; decide, by decide, by decide⟩⟩

/-- Untranslated, and translated through SR1. -/
theorem witness_LoadReserve :
    let s := dstate (page false true false false .readOnly 1#1 0#1) 1#1 false []
    (0x7FC#32 = (start []).readGr 0#4 + (0x7FC#12).signExtend 32 ∧ SegmentOf (start []) 0#2 0x7FC#32 0#16 ∧
      ReadsAt (start []) 0#16 0x7FC#32 .word 0x7FC#34) ∧
    (0x400000FC#32 = s.readGr 4#4 + (0xFFC#12).signExtend 32 ∧ SegmentOf s 1#2 0x400000FC#32 7#16 ∧
      ReadsAt s 7#16 0x400000FC#32 .word 0x1000FC#34) :=
  ⟨⟨by decide, ⟨4#3, by decide, rfl⟩, reads_plain rfl rfl (by decide)⟩,
    by decide, ⟨1#3, by decide, rfl⟩, ⟨⟨by decide, .inr ⟨by decide, by decide, _, rfl, by decide, by decide, by decide,
      by decide, by decide⟩⟩, by decide⟩⟩

/-- Translated in user mode with a half-word, untranslated into a visible cache; STA at address 0. -/
theorem witness_StoresToMemory :
    let s := dstate (page false false false false .readWrite 1#1 1#1) 1#1 false []
    (Inv s ∧ widthOf 1#2 = some .half ∧ Displacement s (.ofs 0#12) 0#32 ∧ AccessOffset s true 4#4 0#32 0x40000100#32 ∧
      SegmentOf s 0#2 0x40000100#32 7#16 ∧ WritesAt s 7#16 0x40000100#32 .half 0x100100#34) ∧
    (Inv vstate ∧ AccessOffset vstate false 4#4 0#32 0x2004#32 ∧ SegmentOf vstate 0#2 0x2004#32 0#16 ∧
      WritesAt vstate 0#16 0x2004#32 .word 0x2004#34) ∧
    (Inv (start []) ∧ (start []).psw.x = 0#1 ∧ Displacement (start []) (.ofs 0#12) 0#32 ∧
      AccessOffset (start []) false 0#4 0#32 0#32 ∧ (0#32).toNat % 4 = 0 ∧
      regionOf (start []).params (0#32).toNat 4 = .memory) :=
  ⟨⟨inv_dstate, by decide, rfl, by unfold AccessOffset; decide, ⟨5#3, by decide, rfl⟩,
      ⟨⟨by decide, .inr ⟨by decide, by decide, _, rfl, by decide, by decide, by decide, by decide, by decide, by decide⟩⟩,
        by decide⟩⟩,
    ⟨inv_vstate, by unfold AccessOffset; decide, ⟨4#3, by decide, rfl⟩, writes_plain rfl rfl (by decide)⟩,
    ⟨inv_start, by decide, rfl, by unfold AccessOffset; decide, by decide, by decide⟩⟩

/-- With the reservation on the address, and with none, also at an address that holds nothing. -/
theorem witness_StoreConditional :
    let s : State := { start [] with reservation := some 0x7FC#34 }
    (Inv s ∧ 0x7FC#32 = s.readGr 0#4 + (0x7FC#12).signExtend 32 ∧ SegmentOf s 0#2 0x7FC#32 0#16 ∧
      WritePlace s 0#16 0x7FC#32 .word 0x7FC#34 ∧ s.reservation = some 0x7FC#34 ∧
      regionOf s.params (0x7FC#34).toNat 4 = .memory) ∧
    (SegmentOf (start []) 0#2 0x7FC#32 0#16 ∧ WritePlace (start []) 0#16 0x7FC#32 .word 0x7FC#34 ∧
      (start []).reservation ≠ some 0x7FC#34) ∧
    (0x10000#32 = (small 0x10000#32).readGr 4#4 + (0#12).signExtend 32 ∧ SegmentOf (small 0x10000#32) 0#2 0x10000#32 0#16 ∧
      WritePlace (small 0x10000#32) 0#16 0x10000#32 .word 0x10000#34 ∧
      (small 0x10000#32).reservation ≠ some 0x10000#34) :=
  ⟨⟨inv_start.reserve (by decide), by decide, ⟨4#3, by decide, rfl⟩, (writes_plain rfl rfl (by decide)).1, rfl, by decide⟩,
    ⟨⟨4#3, by decide, rfl⟩, (writes_plain rfl rfl (by decide)).1, by decide⟩,
    by decide, ⟨4#3, by decide, rfl⟩, ⟨by decide, .inl ⟨.inl rfl, by decide⟩⟩, by decide⟩

/-- Every kind of access at the first word of I/O space and at the first word above installed memory; a fetch from both. -/
theorem witness_IoAndAbsentAccess :
    (∀ a ∈ [0xF1000000#32, 0x10000#32], ∃ sid, let s := small a
      ReadsMemory s (.ld 3#4 false 0#2 2#2 (.ofs 0#12) 4#4) .word sid a ∧
      ReadsMemory s (.ldr 3#4 0#2 0#12 4#4) .word sid a ∧
      ReadsMemory s (.add 3#4 false true (.offset 2#2 0#12 4#4)) .word sid a ∧
      WritesMemory s (.st 3#4 false 0#2 2#2 (.ofs 0#12) 4#4) .word sid a ∧
      WritesMemory s (.stc 3#4 0#2 0#12 4#4) .word sid a ∧
      ReadPlace s sid a .word (a.setWidth 34) ∧ WritePlace s sid a .word (a.setWidth 34) ∧ s.psw.x = 0#1 ∧
      Displacement s (.ofs 0#12) 0#32 ∧ AccessOffset s false 4#4 0#32 a ∧ a.toNat % 4 = 0 ∧
      FetchPlace (s.setOfs a) (a.setWidth 34) (s.setOfs a)) ∧
    regionOf (small 0#32).params (0xF1000000#34).toNat 4 = .io ∧
    regionOf (small 0#32).params (0xFFFFFFFC#34).toNat 4 = .io ∧
    regionOf (small 0#32).params (0x10000#34).toNat 4 = .absent ∧
    regionOf (small 0#32).params (0xFFFC#34).toNat 4 = .memory ∧
    (∃ s : State, s.reservation = some 0xF1000000#34 ∧ WritePlace s 0#16 0xF1000000#32 .word 0xF1000000#34) := by
  refine ⟨?_, by decide, by decide, by decide, by decide, { small 0#32 with reservation := some 0xF1000000#34 }, rfl,
    ⟨by decide, .inl ⟨.inl rfl, by decide⟩⟩⟩
  simp only [List.mem_cons, List.not_mem_nil, or_false, forall_eq_or_imp, forall_eq]
  exact ⟨⟨0#16, reads_ld rfl rfl ⟨7#3, by decide, rfl⟩, reads_ldr rfl ⟨7#3, by decide, rfl⟩,
      reads_add rfl rfl ⟨7#3, by decide, rfl⟩, writes_st rfl rfl ⟨7#3, by decide, rfl⟩,
      writes_stc rfl ⟨7#3, by decide, rfl⟩, ⟨by decide, .inl ⟨.inl rfl, rfl⟩⟩, ⟨by decide, .inl ⟨.inl rfl, rfl⟩⟩, rfl, rfl,
      by unfold AccessOffset; decide, by decide, .inl ⟨.inl rfl, rfl, rfl⟩⟩,
    ⟨0#16, reads_ld rfl rfl ⟨4#3, by decide, rfl⟩, reads_ldr rfl ⟨4#3, by decide, rfl⟩,
      reads_add rfl rfl ⟨4#3, by decide, rfl⟩, writes_st rfl rfl ⟨4#3, by decide, rfl⟩,
      writes_stc rfl ⟨4#3, by decide, rfl⟩, ⟨by decide, .inl ⟨.inl rfl, rfl⟩⟩, ⟨by decide, .inl ⟨.inl rfl, rfl⟩⟩, rfl, rfl,
      by unfold AccessOffset; decide, by decide, .inl ⟨.inl rfl, rfl, rfl⟩⟩⟩

/-! ### System control -/

/-- A write in privileged mode, one of an unprivileged register in user mode, and the reserved registers at the ends of
their ranges. -/
theorem witness_MoveRegister :
    (start []).psw.x = 0#1 ∧ (user []).psw.x = 1#1 ∧
    (user []).params.privSr.getLsbD (4#3).toNat = false ∧ (user []).params.privCr.getLsbD (2#5).toNat = false ∧
    reservedCr 2#5 = false ∧ reservedCr 7#5 = false ∧ reservedCr 16#5 = false ∧ reservedCr 31#5 = false ∧
    (8#5 ∈ [3#5, 8#5, 9#5, 10#5, 11#5, 12#5, 13#5, 14#5, 15#5, 23#5]) ∧
    (15#5 ∈ [3#5, 8#5, 9#5, 10#5, 11#5, 12#5, 13#5, 14#5, 15#5, 23#5]) := by decide

theorem witness_MoveToStatus :
    let s := start [(2#4, 0xFFFFFFF2#32)]
    s.psw.x = 0#1 ∧ (∃ b, MstArg.reg 2#4 = .reg b ∧ 2#4 = (s.readGr b).extractLsb' 0 4) ∧
    (∃ k, MstArg.set 15#4 = .set k ∧ 15#4 = s.systemMask ||| k) ∧
    (∃ k, MstArg.clear 15#4 = .clear k ∧ 0#4 = s.systemMask &&& ~~~k) ∧ ∃ k, MstArg.undefined 0#4 = .undefined k :=
  ⟨by decide, ⟨2#4, rfl, by decide⟩, ⟨15#4, rfl, by decide⟩, ⟨15#4, rfl, by decide⟩, ⟨0#4, rfl⟩⟩

/-- Translation off, an entry, and no entry at the address asked for; PRB at both levels and in a bypassed segment. -/
theorem witness_QueryTranslation :
    let s := probeState [(4#4, 0x14ABC#32)]
    let q := probeState [(4#4, 0x18000#32)]
    ((start []).psw.x = 0#1 ∧ 0#32 = (start []).readGr 0#4 + (start []).readGr 0#4 ∧ SegmentOf (start []) 0#2 0#32 0#16 ∧
      (start []).psw.d = false) ∧
    (s.psw.x = 0#1 ∧ 0x14ABC#32 = s.readGr 4#4 + s.readGr 0#4 ∧ SegmentOf s 1#2 0x14ABC#32 0x42#16 ∧
      s.psw.d = true ∧ s.bypassed 0x42#16 = false ∧
      tlbFind s.dtlb 0x42#16 0x14ABC#32 = some (TlbEntry.ofArgument 0x08600123#32)) ∧
    (q.psw.x = 0#1 ∧ 0x18000#32 = q.readGr 4#4 + q.readGr 0#4 ∧ SegmentOf q 1#2 0x18000#32 0x42#16 ∧
      q.psw.d = true ∧ q.bypassed 0x42#16 = false ∧ tlbFind q.dtlb 0x42#16 0x18000#32 = none) ∧
    (SegmentOf s 1#2 (s.readGr 4#4) 0x42#16 ∧ SegmentOf q 1#2 (q.readGr 4#4) 0x42#16 ∧
      SegmentOf s 2#2 (s.readGr 4#4) 0#16 ∧ s.bypassed 0#16 = true ∧
      (1#1 : Level).toNat = (5#4).toNat % 2 ∧ (0#1 : Level).toNat = (s.readGr 4#4).toNat % 2) :=
  ⟨⟨by decide, by decide, ⟨4#3, by decide, rfl⟩, by decide⟩,
    ⟨by decide, by decide, ⟨1#3, by decide, rfl⟩, by decide, by decide, by decide⟩,
    ⟨by decide, by decide, ⟨1#3, by decide, rfl⟩, by decide, by decide, by decide⟩,
    ⟨1#3, by decide, rfl⟩, ⟨1#3, by decide, rfl⟩, ⟨2#3, by decide, rfl⟩, by decide, by decide, by decide⟩

/-- PTLB with the base modified after and before the access. -/
theorem witness_EditTranslations :
    let s := start [(4#4, 0x14ABC#32), (5#4, 0x4000#32), (6#4, 0xFFFFC000#32)]
    s.psw.x = 0#1 ∧ (AccessOffset s true 4#4 (s.readGr 5#4) 0x14ABC#32 ∧ SegmentOf s 0#2 0x14ABC#32 0#16) ∧
    (AccessOffset s true 4#4 (s.readGr 6#4) 0x10ABC#32 ∧ SegmentOf s 1#2 0x10ABC#32 0#16) :=
  ⟨by decide, ⟨by unfold AccessOffset; decide, ⟨4#3, by decide, rfl⟩⟩, by unfold AccessOffset; decide,
    ⟨1#3, by decide, rfl⟩⟩

/-- An untranslated purge of a dirty line and of an absent one in visible caches, a translated purge, and one without a
translation through each TLB. -/
theorem witness_PurgeCacheLine :
    let s := probeState [(4#4, 0x14ABC#32)]
    let c := { cstate [] 0#1 false with gr := s.gr, sr := s.sr }
    (vstate.psw.x = 0#1 ∧ AccessOffset vstate false 4#4 (vstate.readGr 0#4) 0x2004#32 ∧
      SegmentOf vstate 0#2 0x2004#32 0#16 ∧ vstate.psw.d = false ∧ vstate.psw.c = false ∧ Inv vstate ∧
      vstate.params.cacheVisible = true ∧ 0x2000 = lineBase vstate.params (0x2004#34).toNat ∧
      ∃ ln, mapFind 0x2000 vstate.dc = some ln ∧ ln.dirty = true) ∧
    (AccessOffset vstate false 0#4 (vstate.readGr 0#4) 0#32 ∧ SegmentOf vstate 0#2 0#32 0#16 ∧
      mapFind (lineBase vstate.params 0) vstate.dc = none) ∧
    (s.psw.x = 0#1 ∧ AccessOffset s false 4#4 (s.readGr 0#4) 0x14ABC#32 ∧ SegmentOf s 1#2 0x14ABC#32 0x42#16 ∧
      s.psw.d = true ∧ s.bypassed 0x42#16 = false ∧ s.params.cacheVisible = false ∧
      ∃ e, tlbFind s.dtlb 0x42#16 0x14ABC#32 = some e ∧ 0x48CABC#34 = e.ppn ++ (0x14ABC#32).extractLsb' 0 14) ∧
    (c.psw.x = 0#1 ∧ AccessOffset c false 4#4 (c.readGr 0#4) 0x14ABC#32 ∧ SegmentOf c 1#2 0x14ABC#32 0x42#16 ∧
      c.psw.c = true ∧ c.bypassed 0x42#16 = false ∧ tlbFind c.itlb 0x42#16 0x14ABC#32 = none) ∧
    (dmiss.psw.x = 0#1 ∧ AccessOffset dmiss false 4#4 (dmiss.readGr 0#4) 0x40000100#32 ∧
      SegmentOf dmiss 1#2 0x40000100#32 7#16 ∧ dmiss.psw.d = true ∧ dmiss.bypassed 7#16 = false ∧
      tlbFind dmiss.dtlb 7#16 0x40000100#32 = none) :=
  ⟨⟨by decide, by unfold AccessOffset; decide, ⟨4#3, by decide, rfl⟩, by decide, by decide, inv_vstate, by decide,
      by decide, _, rfl, by decide⟩,
    ⟨by unfold AccessOffset; decide, ⟨4#3, by decide, rfl⟩, by decide⟩,
    ⟨by decide, by unfold AccessOffset; decide, ⟨1#3, by decide, rfl⟩, by decide, by decide, by decide, _, rfl, by decide⟩,
    ⟨by decide, by unfold AccessOffset; decide, ⟨1#3, by decide, rfl⟩, by decide, by decide, by decide⟩,
    by decide, by unfold AccessOffset; decide, ⟨1#3, by decide, rfl⟩, by decide, by decide, by decide⟩

theorem witness_ReturnFromTrap : (start []).psw.x = 0#1 := by decide

theorem witness_BreakAndDiagnose :
    (0#4 = 0#4 ∧ 0#16 = 0#16) ∧ ¬ (0#4 = 0#4 ∧ 1#16 = 0#16) ∧ ¬ (15#4 = 0#4 ∧ 0#16 = 0#16) ∧
    (start []).psw.x = 0#1 ∧ (small 0#32).psw.x = 0#1 ∧ (small 0#32).params.diagSupplied = true ∧
    (start []).params.diagSupplied = false := by decide


end Sys2Proof.Tests
end

