-- ==== Sys2Proof/Proofs/Scope.lean ====
section
/-!
PROOFS. Sys2Proof/Proofs/Scope.lean: the statements that rest on 00_scope.md: the parameters are fixed during a run and
every step advances the step number (R22), the entry point after reset (R621), BRK and DIAG (R480, R490).
-/

namespace Sys2Proof.Machine

/-! ## Parameters and step number: what keeps them -/

/-- The state t has the parameters and the step number of s. -/
structure SameClock (s t : State) : Prop where
  params : t.params = s.params
  tick : t.tick = s.tick

theorem SameClock.refl (s : State) : SameClock s s := ⟨rfl, rfl⟩

theorem SameClock.trans {s t u : State} (h : SameClock s t) (k : SameClock t u) : SameClock s u :=
  ⟨k.params.trans h.params, k.tick.trans h.tick⟩

/-- Wherever a result is a next state, that state has the parameters and the step number of s. -/
def ResultKeepsClock (s : State) (x : Result) : Prop := ∀ t, x = .next t → SameClock s t

/-- Wherever an access gives a value, the state after it has the parameters and the step number of s. -/
def AccessKeepsClock {α : Type} (s : State) (x : Access α) : Prop := ∀ a t, x = .ok a t → SameClock s t

theorem keepsClock_next {s t : State} (h : SameClock s t) : ResultKeepsClock s (.next t) := by
  intro u hu; cases hu; exact h

theorem keepsClock_fault (s : State) (f : Fault) : ResultKeepsClock s (.fault f) := by
  intro t h; cases h

theorem keepsClock_refused (s : State) (r : Refusal) : ResultKeepsClock s (.refused r) := by
  intro t h; cases h

theorem sameClock_takeTrap {s t : State} (h : SameClock s t) (q : TrapReq) : SameClock s (t.takeTrap q) :=
  h.trans ⟨rfl, rfl⟩

theorem keepsClock_raise (s : State) (q : TrapReq) : ResultKeepsClock s (s.raise q) :=
  keepsClock_next (sameClock_takeTrap (.refl s) q)

theorem keepsClock_ite {s : State} {c : Prop} [Decidable c] {x y : Result} (hx : ResultKeepsClock s x)
    (hy : ResultKeepsClock s y) : ResultKeepsClock s (if c then x else y) := by
  split
  · exact hx
  · exact hy

theorem keepsClock_run {α : Type} {s : State} {x : Access α} {k : α → State → Result} (hx : AccessKeepsClock s x)
    (hk : ∀ a u, SameClock s u → ResultKeepsClock s (k a u)) : ResultKeepsClock s (x.run s k) := by
  intro t h
  rcases run_next h with ⟨a, u, hu, ht⟩ | ⟨q, -, rfl⟩
  · exact hk a u (hx a u hu) t ht
  · exact sameClock_takeTrap (.refl s) q

theorem keepsClock_ifPrivileged {s : State} {w : Word} {x : Result} (hx : ResultKeepsClock s x) :
    ResultKeepsClock s (s.ifPrivileged w x) := by
  intro t h
  rcases ifPrivileged_next h with ⟨-, ht⟩ | ⟨-, rfl⟩
  · exact hx t ht
  · exact sameClock_takeTrap (.refl s) _

theorem keepsClock_finish {s u : State} (hu : SameClock s u) (late : Option TrapReq) :
    ResultKeepsClock s (u.finish late) := by
  intro t h
  rcases finish_next h with ⟨-, rfl⟩ | ⟨q, -, rfl⟩
  · exact hu
  · exact sameClock_takeTrap hu q

/-! ## Accesses keep parameters and step number -/

theorem keepsClock_trap {α : Type} (s : State) (q : TrapReq) : AccessKeepsClock s (.trap q : Access α) := by
  intro a t h; cases h

theorem keepsClock_physRead (s : State) (page : Nat) (pa : PAddr) (n : Width) :
    AccessKeepsClock s (s.physRead page pa n) := by
  intro v t h
  rcases physRead_ok h with ⟨-, -, rfl⟩ | ⟨-, rfl⟩
  · exact .refl _
  · exact ⟨rfl, rfl⟩

theorem keepsClock_physWrite (s : State) (page : Nat) (pa : PAddr) (n : Width) (v : Word) :
    AccessKeepsClock s (s.physWrite page pa n v) := by
  intro _ t h
  rcases physWrite_ok h with ⟨-, rfl⟩ | ⟨-, rfl⟩ <;> exact ⟨by simp, by simp⟩

theorem keepsClock_memRead (s : State) (w : Word) (seg : SegId) (ofs : Word) (n : Width) :
    AccessKeepsClock s (s.memRead w seg ofs n) :=
  fun _ _ h => keepsClock_physRead _ _ _ _ _ _ (memRead_ok h).2

theorem keepsClock_memWrite (s : State) (w : Word) (seg : SegId) (ofs : Word) (n : Width) (v : Word) :
    AccessKeepsClock s (s.memWrite w seg ofs n v) := by
  unfold State.memWrite
  split
  · exact keepsClock_trap s _
  · exact keepsClock_physWrite _ _ _ _ _

theorem keepsClock_absRead (s : State) (w ofs : Word) : AccessKeepsClock s (s.absRead w ofs) := by
  unfold State.absRead
  split
  · exact keepsClock_physRead _ _ _ _
  · exact keepsClock_trap s _

theorem keepsClock_absWrite (s : State) (w ofs v : Word) : AccessKeepsClock s (s.absWrite w ofs v) := by
  unfold State.absWrite
  split
  · exact keepsClock_physWrite _ _ _ _ _
  · exact keepsClock_trap s _

theorem keepsClock_operand (s : State) (w : Word) (r : GReg) (opd : Operand) :
    AccessKeepsClock s (s.operand w r opd) := by
  intro q t h
  rcases operand_ok h with rfl | ⟨e, rfl⟩
  · exact .refl _
  · exact ⟨rfl, rfl⟩

theorem keepsClock_fetch (s : State) : AccessKeepsClock s s.fetch := by
  intro w t h
  obtain ⟨u, hu, ht⟩ := fetch_ok h
  have demoted : SameClock s u := by
    rcases hu with rfl | ⟨e, -, rfl⟩
    · exact .refl _
    · unfold State.demote
      split
      · exact ⟨rfl, rfl⟩
      · exact .refl _
  rcases ht with rfl | ⟨a, rfl⟩
  · exact demoted
  · exact demoted.trans ⟨rfl, rfl⟩

/-! ## Instructions keep parameters and step number -/

theorem sameClock_writeGr_advance {s u : State} (h : SameClock s u) (r : GReg) (v : Word) :
    SameClock s (u.writeGr r v).advance := h.trans ⟨by simp, by simp⟩

theorem sameClock_modifyBase_advance {s u : State} (h : SameClock s u) (m : Bool) (b : GReg) (v : Word) :
    SameClock s (u.modifyBase m b v).advance := h.trans ⟨by simp, by simp⟩

theorem sameClock_writeSys_advance (s : State) (reg : SysReg) (v : Word) : SameClock s (s.writeSys reg v).advance := by
  cases reg <;> exact ⟨rfl, rfl⟩

theorem sameClock_external (s : State) (r : GReg) (seg : SegId) (target : Word) :
    SameClock s (s.external r seg target) := by
  constructor <;> simp [State.external]

theorem sameClock_gateThrough (s : State) (r : GReg) (e : TlbEntry) : SameClock s (s.gateThrough r e) := by
  unfold State.gateThrough
  split <;> exact ⟨by simp, by simp⟩

theorem keepsClock_writeGr_advance (s : State) (r : GReg) (v : Word) :
    ResultKeepsClock s (.next (s.writeGr r v).advance) := keepsClock_next (sameClock_writeGr_advance (.refl s) r v)

theorem keepsClock_writeGr_setOfs (s : State) (r : GReg) (v ofs : Word) :
    ResultKeepsClock s (.next ((s.writeGr r v).setOfs ofs)) := keepsClock_next ⟨by simp, by simp⟩

theorem keepsClock_writeAlu {s u : State} (hu : SameClock s u) (w : Word) (r : GReg) (o : Bool) (q : AluResult)
    (late : Option TrapReq) : ResultKeepsClock s (u.writeAlu w r o q late) := by
  intro t h
  rcases writeAlu_next h with ⟨-, rfl⟩ | ⟨-, ht⟩
  · exact sameClock_takeTrap hu _
  · exact keepsClock_finish (hu.trans ⟨by simp, by simp⟩) late t ht

theorem keepsClock_runAlu (s : State) (w : Word) (r : GReg) (o : Bool) (opd : Operand) (f : Word → Word → AluResult) :
    ResultKeepsClock s (s.runAlu w r o opd f) :=
  keepsClock_run (keepsClock_operand s w r opd) fun _ _ hu => keepsClock_writeAlu hu _ _ _ _ _

theorem keepsClock_runLogic (s : State) (w : Word) (r : GReg) (opd : Operand) (f : Word → Word → Word) :
    ResultKeepsClock s (s.runLogic w r opd f) :=
  keepsClock_run (keepsClock_operand s w r opd) fun _ _ hu => keepsClock_finish (sameClock_writeGr_advance hu _ _) _

/-- AND and OR: trap 5, the undefined operation, or a logical instruction. -/
theorem keepsClock_logicOrUndefined (s : State) {reserved undef : Prop} [Decidable reserved] [Decidable undef]
    (w : Word) (r : GReg) (opd : Operand) (f : Word → Word → Word) :
    ResultKeepsClock s (if reserved then s.raise (illegalInstruction w)
      else if undef then .fault .undefinedOperation else s.runLogic w r opd f) :=
  keepsClock_ite (keepsClock_raise s _) (keepsClock_ite (keepsClock_fault s _) (keepsClock_runLogic s w r opd f))

theorem execXor_keepsClock (r : GReg) (n : Bool) (opd : Operand) (s : State) :
    ResultKeepsClock s (execXor r n opd s) := keepsClock_runLogic s _ _ _ _

theorem execCmp_keepsClock (r : GReg) (cond : Cond) (opd : Operand) (s : State) :
    ResultKeepsClock s (execCmp r cond opd s) := keepsClock_runLogic s _ _ _ _

theorem execCmpu_keepsClock (r : GReg) (cond : Cond) (opd : Operand) (s : State) :
    ResultKeepsClock s (execCmpu r cond opd s) := keepsClock_runLogic s _ _ _ _

theorem execGate_keepsClock (r : GReg) (ofs : BitVec 22) (s : State) : ResultKeepsClock s (execGate r ofs s) := by
  unfold execGate
  refine keepsClock_ite (keepsClock_next ⟨by simp, by simp⟩) ?_
  split
  · exact keepsClock_raise s _
  · exact keepsClock_next ((sameClock_gateThrough s r _).trans ⟨rfl, rfl⟩)

theorem execBe_keepsClock (r : GReg) (ofs : BitVec 14) (a : BitVec 4) (b : GReg) (s : State) :
    ResultKeepsClock s (execBe r ofs a b s) :=
  keepsClock_ite (keepsClock_next (sameClock_external s _ _ _))
    (keepsClock_ite (keepsClock_fault s _) (keepsClock_next (sameClock_external s _ _ _)))

theorem execCmr_keepsClock (r : GReg) (cond : BitVec 4) (a b : GReg) (s : State) :
    ResultKeepsClock s (execCmr r cond a b s) := by
  unfold execCmr
  split
  · exact keepsClock_raise s _
  · exact keepsClock_writeGr_advance s _ _
  · exact keepsClock_next ⟨rfl, rfl⟩

theorem execMr_keepsClock (r : GReg) (d : Bool) (reg : SysReg) (s : State) : ResultKeepsClock s (execMr r d reg s) :=
  keepsClock_ite (keepsClock_refused s _) <| keepsClock_ite (keepsClock_writeGr_advance s _ _) <|
    keepsClock_ite (keepsClock_raise s _) (keepsClock_next (sameClock_writeSys_advance s _ _))

theorem execMst_keepsClock (r : GReg) (arg : MstArg) (s : State) : ResultKeepsClock s (execMst r arg s) := by
  have moved (v : BitVec 4) : ResultKeepsClock s (.next (s.moveToStatus r v)) :=
    keepsClock_next ⟨by simp [State.moveToStatus], by simp [State.moveToStatus]⟩
  cases arg with
  | undefined k => exact keepsClock_raise s _
  | reg b | set k | clear k => exact keepsClock_ifPrivileged (moved _)

theorem execLd_keepsClock (r : GReg) (m : Bool) (seg dw : BitVec 2) (disp : Disp) (b : GReg) (s : State) :
    ResultKeepsClock s (execLd r m seg dw disp b s) := by
  unfold execLd
  split
  · exact keepsClock_raise s _
  · exact keepsClock_run (keepsClock_memRead s _ _ _ _) fun _ _ hu =>
      keepsClock_finish (hu.trans ⟨by simp, by simp⟩) _

theorem execSt_keepsClock (r : GReg) (m : Bool) (seg dw : BitVec 2) (disp : Disp) (b : GReg) (s : State) :
    ResultKeepsClock s (execSt r m seg dw disp b s) := by
  unfold execSt
  split
  · exact keepsClock_raise s _
  · exact keepsClock_run (keepsClock_memWrite s _ _ _ _ _) fun _ _ hu =>
      keepsClock_next (sameClock_modifyBase_advance hu _ _ _)

theorem execLda_keepsClock (r : GReg) (m : Bool) (disp : Disp) (b : GReg) (s : State) :
    ResultKeepsClock s (execLda r m disp b s) :=
  keepsClock_ifPrivileged (keepsClock_run (keepsClock_absRead s _ _) fun _ _ hu =>
    keepsClock_next (hu.trans ⟨by simp, by simp⟩))

theorem execSta_keepsClock (r : GReg) (m : Bool) (disp : Disp) (b : GReg) (s : State) :
    ResultKeepsClock s (execSta r m disp b s) :=
  keepsClock_ifPrivileged (keepsClock_run (keepsClock_absWrite s _ _ _) fun _ _ hu =>
    keepsClock_next (sameClock_modifyBase_advance hu _ _ _))

theorem execLdr_keepsClock (r : GReg) (seg : BitVec 2) (ofs : BitVec 12) (b : GReg) (s : State) :
    ResultKeepsClock s (execLdr r seg ofs b s) :=
  keepsClock_run (keepsClock_memRead s _ _ _ _) fun _ _ hu => keepsClock_finish (hu.trans ⟨by simp, by simp⟩) _

theorem execStc_keepsClock (r : GReg) (seg : BitVec 2) (ofs : BitVec 12) (b : GReg) (s : State) :
    ResultKeepsClock s (execStc r seg ofs b s) := by
  unfold execStc
  dsimp only
  split
  · exact keepsClock_raise s _
  · exact keepsClock_ite
      (keepsClock_run (keepsClock_physWrite s _ _ _ _) fun _ _ hu => keepsClock_next (hu.trans ⟨by simp, by simp⟩))
      (keepsClock_next ⟨by simp, by simp⟩)

theorem execLdpa_keepsClock (r : GReg) (seg : BitVec 2) (a b : GReg) (s : State) :
    ResultKeepsClock s (execLdpa r seg a b s) := by
  refine keepsClock_ifPrivileged (keepsClock_ite (keepsClock_writeGr_advance s _ _) ?_)
  split
  · exact keepsClock_raise s _
  · exact keepsClock_writeGr_advance s _ _

theorem execPrb_keepsClock (r : GReg) (w i : Bool) (seg : BitVec 2) (a b : GReg) (s : State) :
    ResultKeepsClock s (execPrb r w i seg a b s) := by
  refine keepsClock_ite (keepsClock_writeGr_advance s _ _) ?_
  split
  · exact keepsClock_raise s _
  · exact keepsClock_writeGr_advance s _ _

theorem execItlb_keepsClock (r : GReg) (t : Bool) (a : BitVec 3) (b : GReg) (s : State) :
    ResultKeepsClock s (execItlb r t a b s) :=
  keepsClock_ifPrivileged (keepsClock_ite (keepsClock_next ⟨rfl, rfl⟩) (keepsClock_next ⟨rfl, rfl⟩))

theorem execPtlb_keepsClock (t m : Bool) (seg : BitVec 2) (a b : GReg) (s : State) :
    ResultKeepsClock s (execPtlb t m seg a b s) := by
  refine keepsClock_ifPrivileged (keepsClock_next (sameClock_modifyBase_advance ?_ _ _ _))
  split <;> exact ⟨rfl, rfl⟩

theorem execPca_keepsClock (t m : Bool) (seg : BitVec 2) (f : Bool) (a b : GReg) (s : State) :
    ResultKeepsClock s (execPca t m seg f a b s) := by
  refine keepsClock_ifPrivileged ?_
  dsimp only
  split
  · exact keepsClock_raise s _
  · exact keepsClock_next (sameClock_modifyBase_advance ⟨by simp, by simp⟩ _ _ _)

theorem execDiag_keepsClock (r : GReg) (info : BitVec 4) (a b : GReg) (s : State) :
    ResultKeepsClock s (execDiag r info a b s) :=
  keepsClock_ifPrivileged (keepsClock_ite
    (keepsClock_next (sameClock_writeGr_advance ⟨by simp, by simp⟩ _ _)) (keepsClock_refused s _))

/-- No instruction changes the parameters or the step number (R22). -/
theorem exec_keepsClock (i : Instr) (s : State) : ResultKeepsClock s (exec i s) := by
  cases i with
  | brk => exact keepsClock_ite (keepsClock_next ⟨rfl, rfl⟩) (keepsClock_raise s _)
  | ldil | addil | ldo | lsid | dsr => exact keepsClock_writeGr_advance s _ _
  | extr | dep => exact keepsClock_ite (keepsClock_writeGr_advance s _ _) (keepsClock_fault s _)
  | shla => exact keepsClock_writeAlu (.refl s) _ _ _ _ _
  | cmr r cond a b => exact execCmr_keepsClock r cond a b s
  | mr r d reg => exact execMr_keepsClock r d reg s
  | mst r arg => exact execMst_keepsClock r arg s
  | ds => exact keepsClock_next ⟨by simp, by simp⟩
  | add | adc | sub | sbc => exact keepsClock_runAlu s _ _ _ _ _
  | and | or => exact keepsClock_logicOrUndefined s _ _ _ _
  | xor r n opd => exact execXor_keepsClock r n opd s
  | cmp r cond opd => exact execCmp_keepsClock r cond opd s
  | cmpu r cond opd => exact execCmpu_keepsClock r cond opd s
  | b | br | bv => exact keepsClock_writeGr_setOfs s _ _ _
  | gate r ofs => exact execGate_keepsClock r ofs s
  | be r ofs a b => exact execBe_keepsClock r ofs a b s
  | bve => exact keepsClock_next (sameClock_external s _ _ _)
  | cbr | cbru => exact keepsClock_ite (keepsClock_next ⟨rfl, rfl⟩) (keepsClock_next ⟨rfl, rfl⟩)
  | ld r m seg dw disp b => exact execLd_keepsClock r m seg dw disp b s
  | st r m seg dw disp b => exact execSt_keepsClock r m seg dw disp b s
  | lda r m disp b => exact execLda_keepsClock r m disp b s
  | sta r m disp b => exact execSta_keepsClock r m disp b s
  | ldr r seg ofs b => exact execLdr_keepsClock r seg ofs b s
  | stc r seg ofs b => exact execStc_keepsClock r seg ofs b s
  | ldpa r seg a b => exact execLdpa_keepsClock r seg a b s
  | prb r w i seg a b => exact execPrb_keepsClock r w i seg a b s
  | itlb r t a b => exact execItlb_keepsClock r t a b s
  | ptlb t m seg a b => exact execPtlb_keepsClock t m seg a b s
  | pca t m seg f a b => exact execPca_keepsClock t m seg f a b s
  | diag r info a b => exact execDiag_keepsClock r info a b s
  | rfi => exact keepsClock_ifPrivileged (keepsClock_next ⟨rfl, rfl⟩)

/-! ## The step -/

theorem runWord_keepsClock (s : State) (w : Word) : ResultKeepsClock s (s.runWord w) := by
  unfold State.runWord
  split
  · exact exec_keepsClock _ s
  · exact keepsClock_raise s _
  · exact keepsClock_fault s _

theorem runFetched_keepsClock (s : State) (w : Word) : ResultKeepsClock s (s.runFetched w) :=
  keepsClock_ite (keepsClock_next ⟨rfl, rfl⟩) (runWord_keepsClock s w)

theorem fetchAndRun_keepsClock (s : State) : ResultKeepsClock s s.fetchAndRun :=
  keepsClock_run (keepsClock_fetch s) fun w u hu t h => hu.trans (runFetched_keepsClock u w t h)

theorem interruptOrRun_keepsClock (s : State) : ResultKeepsClock s s.interruptOrRun :=
  keepsClock_ite (keepsClock_raise s _) (fetchAndRun_keepsClock s)

/-- A step goes on from the state that the time between two instructions leaves (R570). -/
theorem step_next {s t : State} (h : step s = .next t) : s.betweenSteps.interruptOrRun = .next t := by
  unfold step State.cycle at h
  split at h
  · cases h
  · split at h
    · cases h
    · exact h

/-- Settles O15: the step number advances between two instructions, and from there on nothing changes it or the
parameters. -/
theorem stepKeepsParameters : Obligations.StepKeepsParameters := by
  intro s t h
  have kept : SameClock s.betweenSteps t := interruptOrRun_keepsClock _ t (step_next h)
  exact ⟨kept.params.trans s.betweenSteps_params, kept.tick.trans s.betweenSteps_tick⟩

/-! ## Reset -/

/-- With code translation off a fetch reads the physical address equal to the offset (R130, R153). -/
theorem fetch_of_code_translation_off {s : State} (h : s.psw.c = false) :
    s.fetch = s.fetchPhys (s.psw.ofs.setWidth 34) := by
  unfold State.fetch
  rw [if_pos (by simp [State.fetchUntranslated, h]), absolute]

theorem resetWith_word0 (p : Params) : (State.resetWith p).psw.word0 = 0#32 := by
  simp [State.resetWith, Psw.word0, bit]

/-- Settles O11: reset clears every status bit, so the first fetch is not translated. -/
theorem resetEntryPoint : Obligations.ResetEntryPoint :=
  ⟨fun p => ⟨resetWith_word0 p, rfl, fetch_of_code_translation_off rfl⟩, rfl, rfl, by decide⟩

/-! ## BRK and DIAG -/

/-- The effect of only advancing. -/
theorem advance_result (s : State) : PswResult s.psw.next s s.advance where
  gr := fun k _ => s.advance_readGr k
  psw := rfl
  reservation := rfl
  system := by constructor <;> simp [State.dataByte]

theorem exec_brk_zero (s : State) : exec (.brk 0#4 0#16) s = .next s.advance := rfl

theorem exec_brk_nonzero {info1 : BitVec 4} {info2 : BitVec 16} (h : ¬ (info1 = 0#4 ∧ info2 = 0#16)) (s : State) :
    exec (.brk info1 info2) s = .next (s.takeTrap (breakTrap (encode (.brk info1 info2)) info1 info2)) := if_neg h

/-- Trap 18 passes the instruction word and both info fields (R569). -/
theorem takeTrap_breakTrap_parms (s : State) (w : Word) (info1 : BitVec 4) (info2 : BitVec 16) :
    (s.takeTrap (breakTrap w info1 info2)).readCr 19#5 = w ∧
    ((s.takeTrap (breakTrap w info1 info2)).readCr 20#5).toNat = info1.toNat ∧
    ((s.takeTrap (breakTrap w info1 info2)).readCr 21#5).toNat = info2.toNat := by
  have trapped := takeTrap_trapped s (breakTrap w info1 info2)
  refine ⟨trapped.p0 _ rfl, ?_, ?_⟩
  · rw [trapped.p1 _ rfl, BitVec.toNat_setWidth_of_le (by decide)]
  · rw [trapped.p2 _ rfl, BitVec.toNat_setWidth_of_le (by decide)]

theorem ifPrivileged_of_privileged {s : State} (h : s.psw.x = 0#1) (w : Word) (k : Result) :
    s.ifPrivileged w k = k := if_pos (by simp [State.privileged, h])

/-- DIAG where the host supplies its function: the effects, then the result, then the advance (R480). -/
theorem exec_diag_supplied {s : State} (hx : s.psw.x = 0#1) (hd : s.params.diagSupplied = true) (r : GReg)
    (info : BitVec 4) (a b : GReg) :
    exec (.diag r info a b) s =
      .next ((s.diagEffects (Config.diagFn info (s.readGr a) (s.readGr b)).2).writeGr r
        (Config.diagFn info (s.readGr a) (s.readGr b)).1).advance :=
  (ifPrivileged_of_privileged hx _ _).trans (if_pos hd)

theorem exec_diag_not_supplied {s : State} (hx : s.psw.x = 0#1) (hd : s.params.diagSupplied = false) (r : GReg)
    (info : BitVec 4) (a b : GReg) : exec (.diag r info a b) s = .refused .diagNotSupplied :=
  (ifPrivileged_of_privileged hx _ _).trans (if_neg (by simp [hd]))

/-- Settles O60: BRK by the two cases of its info fields, DIAG by whether the host supplies its function. -/
theorem breakAndDiagnose : Obligations.BreakAndDiagnose := by
  refine ⟨fun s info1 info2 => ⟨?_, fun h => ?_⟩, fun s r info a b hx => ⟨fun hd => ?_, fun hd => ?_⟩⟩
  · rintro ⟨rfl, rfl⟩
    exact ⟨_, exec_brk_zero s, advance_result s⟩
  · exact ⟨_, exec_brk_nonzero h s, takeTrap_trapped s _, takeTrap_breakTrap_parms s _ info1 info2⟩
  · obtain ⟨seg, ofs⟩ := s.diagEffects_address (Config.diagFn info (s.readGr a) (s.readGr b)).2
    exact ⟨_, _, exec_diag_supplied hx hd r info a b, rfl, writeGr_advance_result _ _ _, by simp [seg], by simp [ofs],
      by simp, by simp⟩
  · exact exec_diag_not_supplied hx hd r info a b

end Sys2Proof.Machine
end

/-!
PROOFS. Sys2Proof/Proofs/State.lean: the statements that rest on 10_state.md: what every instruction can do to the state,
said once (`exec_answers`), and from it that every step keeps the invariant and that user mode is contained; trap entry and
return; the instructions that move the status word, the segment registers and the control registers.
-/

namespace Sys2Proof.Machine

/-! ## Offsets that are multiples of four -/

/-- A sum of two multiples of four, modulo 2^32, is one. -/
theorem add_mod_four {v w : Word} (hv : v.toNat % 4 = 0) (hw : w.toNat % 4 = 0) : (v + w).toNat % 4 = 0 := by
  rw [BitVec.toNat_add]
  omega

/-- A word whose two low bits are clear is a multiple of four. -/
theorem mod_four_of_low_bits {v : Word} (h0 : v.getLsbD 0 = false) (h1 : v.getLsbD 1 = false) : v.toNat % 4 = 0 := by
  have low : v.extractLsb' 0 2 = 0#2 := by
    ext i hi
    interval_cases i <;> simpa using ‹_›
  simpa [BitVec.extractLsb'_toNat] using congrArg BitVec.toNat low

/-- A branch displacement counts words (R322). -/
theorem branchDisp_mod {n : Nat} (ofs : BitVec n) : (branchDisp ofs).toNat % 4 = 0 := by
  apply mod_four_of_low_bits <;>
    simp [branchDisp, sext, BitVec.getElem_signExtend, BitVec.getElem_append]

/-- BR counts instructions (R342). -/
theorem shiftLeft_two_mod (v : Word) : (v <<< 2).toNat % 4 = 0 := by
  apply mod_four_of_low_bits <;> simp

/-- The slots of the vector table are multiples of four apart (R551). -/
theorem trapPsw_ofs_mod {base : Word} (h : base.toNat % 4 = 0) (num : BitVec 5) :
    (trapPsw base num).ofs.toNat % 4 = 0 := by
  refine add_mod_four h ?_
  rw [BitVec.toNat_mul]
  simp only [BitVec.toNat_ofNat]
  omega

/-! ## What an instruction can compute -/

/-- The states that an instruction run in s can reach by updates open to every privilege level: general registers, the
offset, PSW.CB and PSW.V, stores to data memory, accesses to I/O space, and the reservation. An offset it writes is a
multiple of four if the one it came from is. -/
inductive Computes (s : State) : State → Prop
  | start : Computes s s
  | writeGr {u : State} (h : Computes s u) (r : GReg) (v : Word) : Computes s (u.writeGr r v)
  | advance {u : State} (h : Computes s u) : Computes s u.advance
  | setOfs {u : State} (h : Computes s u) {v : Word} (hv : PcAligned s → v.toNat % 4 = 0) : Computes s (u.setOfs v)
  | setCarry {u : State} (h : Computes s u) (c : Option Bool) : Computes s (u.setCarry c)
  | setV {u : State} (h : Computes s u) (v : Bool) : Computes s (u.setV v)
  | logIo {u : State} (h : Computes s u) (e : IoEvent) : Computes s (u.logIo e)
  | store {u : State} (h : Computes s u) (page a : Nat) (n : Width) (v : Word) :
      Computes s ((u.recordStore page a n).setDataValue a n v)
  | breakReservation {u : State} (h : Computes s u) (a : Nat) : Computes s (u.breakReservation a)
  | endReservation {u : State} (h : Computes s u) : Computes s { u with reservation := none }
  | reserve {u : State} (h : Computes s u) {pa : PAddr} (hpa : pa.toNat % 4 = 0) :
      Computes s { u with reservation := some pa }

/-- The status word without what such updates write: PSW.CB, PSW.V and the offset are blanked. -/
def Psw.control (p : Psw) : Psw := { p with cb := false, v := false, ofs := 0#32 }

/-- What no such update changes: the registers that control the machine, the translations, the instruction cache, the
parameters, and of the status word all but PSW.CB, PSW.V and the offset. -/
structure SameControl (s u : State) : Prop where
  sr : u.sr = s.sr
  cr : u.cr = s.cr
  itlb : u.itlb = s.itlb
  dtlb : u.dtlb = s.dtlb
  ic : u.ic = s.ic
  params : u.params = s.params
  psw : u.psw.control = s.psw.control

theorem SameControl.refl (s : State) : SameControl s s := ⟨rfl, rfl, rfl, rfl, rfl, rfl, rfl⟩

theorem SameControl.trans {s t u : State} (h : SameControl s t) (k : SameControl t u) : SameControl s u :=
  ⟨k.sr.trans h.sr, k.cr.trans h.cr, k.itlb.trans h.itlb, k.dtlb.trans h.dtlb, k.ic.trans h.ic, k.params.trans h.params,
    k.psw.trans h.psw⟩

@[simp] theorem State.setCarry_control (s : State) (c : Option Bool) : (s.setCarry c).psw.control = s.psw.control := by
  cases c <;> rfl

namespace Computes

variable {s u : State}

theorem modifyBase (h : Computes s u) (m : Bool) (b : GReg) (v : Word) : Computes s (u.modifyBase m b v) := by
  cases m with
  | false => exact h
  | true => exact h.writeGr b v

/-- Computing keeps the invariant: each update does. -/
theorem inv (h : Computes s u) (hs : Inv s) : Inv u := by
  induction h with
  | start => exact hs
  | writeGr _ r v ih => exact ih.writeGr r v
  | advance _ ih => exact ih.advance
  | setOfs _ _ ih => exact ih.setOfs _
  | setCarry _ c ih => exact ih.setCarry c
  | setV _ v ih => exact ih.setV v
  | logIo _ e ih => exact ih.logIo e
  | store _ page a n v ih => exact (ih.recordStore page a n).setDataValue a n v
  | breakReservation _ a ih => exact ih.breakReservation a
  | endReservation _ ih => exact ih.endReservation
  | reserve _ hpa ih => exact ih.reserve hpa

/-- Computing keeps the offset a multiple of four (R42). -/
theorem pcAligned (h : Computes s u) (hs : PcAligned s) : PcAligned u := by
  unfold PcAligned at *
  induction h with
  | start => exact hs
  | advance _ ih => exact add_mod_four ih rfl
  | setOfs _ hv _ => exact hv hs
  | @setCarry u _ c ih => cases c <;> exact ih
  | setV _ _ ih | logIo _ _ ih | endReservation _ ih | reserve _ _ ih => exact ih
  | writeGr _ _ _ ih | store _ _ _ _ _ ih | breakReservation _ _ ih => simpa using ih

theorem sameControl (h : Computes s u) : SameControl s u := by
  induction h with
  | start => exact .refl s
  | advance _ ih | setOfs _ _ ih | setV _ _ ih | logIo _ _ ih | endReservation _ ih | reserve _ _ ih =>
    exact ih.trans ⟨rfl, rfl, rfl, rfl, rfl, rfl, rfl⟩
  | writeGr _ _ _ ih | setCarry _ _ ih | store _ _ _ _ _ ih | breakReservation _ _ ih =>
    exact ih.trans ⟨by simp, by simp, by simp, by simp, by simp, by simp, by simp⟩

end Computes

/-! ## Accesses compute -/

theorem computes_of_physRead {s u : State} {page : Nat} {pa : PAddr} {n : Width} {v : Word}
    (h : s.physRead page pa n = .ok v u) : Computes s u := by
  rcases physRead_ok h with ⟨-, -, rfl⟩ | ⟨-, rfl⟩
  · exact .start
  · exact .logIo .start _

theorem computes_of_physWrite {s u : State} {page : Nat} {pa : PAddr} {n : Width} {v : Word}
    (h : s.physWrite page pa n v = .ok () u) : Computes s u := by
  rcases physWrite_ok h with ⟨-, rfl⟩ | ⟨-, rfl⟩
  · exact .breakReservation (.store .start page pa.toNat n v) _
  · exact .breakReservation (.logIo .start _) _

theorem computes_of_memRead {s u : State} {w : Word} {seg : SegId} {ofs : Word} {n : Width} {q : ReadResult}
    (h : s.memRead w seg ofs n = .ok q u) : Computes s u := computes_of_physRead (memRead_ok h).2

theorem computes_of_memWrite {s u : State} {w : Word} {seg : SegId} {ofs : Word} {n : Width} {v : Word}
    (h : s.memWrite w seg ofs n v = .ok () u) : Computes s u := by
  unfold State.memWrite at h
  split at h
  · cases h
  · exact computes_of_physWrite h

theorem computes_of_absRead {s u : State} {w ofs v : Word} (h : s.absRead w ofs = .ok v u) : Computes s u := by
  unfold State.absRead at h
  split at h
  · exact computes_of_physRead h
  · cases h

theorem computes_of_absWrite {s u : State} {w ofs v : Word} (h : s.absWrite w ofs v = .ok () u) : Computes s u := by
  unfold State.absWrite at h
  split at h
  · exact computes_of_physWrite h
  · cases h

theorem computes_of_operand {s u : State} {w : Word} {r : GReg} {opd : Operand} {q : Inputs}
    (h : s.operand w r opd = .ok q u) : Computes s u := by
  rcases operand_ok h with rfl | ⟨e, rfl⟩
  · exact .start
  · exact .logIo .start e

/-! ## What an instruction can answer -/

/-- Everything an instruction i that is run in s and completes can have done, whatever its operands: a trap taken where it
had only computed; a computation; an external branch; a promotion by GATE; a move to a segment or control register that is
privileged or allowed; or, in privileged mode, something that keeps the invariant. -/
inductive Answers (i : Instr) (s : State) : State → Prop
  | trap {u : State} (h : Computes s u) (q : TrapReq) : Answers i s (u.takeTrap q)
  | computed {t : State} (h : Computes s t) : Answers i s t
  | external (r : GReg) (seg : SegId) (target : Word) : Answers i s (s.external r seg target)
  | gate {r : GReg} {ofs : BitVec 22} (hi : i = .gate r ofs) (level : Level) (v : Word) :
      Answers i s (((s.setLevel level).writeGr r v).setOfs (s.psw.ofs + branchDisp ofs))
  | moveTo (reg : SysReg) (v : Word) (h : s.psw.x = 0#1 ∨ s.params.privilegedRegister reg = false) :
      Answers i s (s.writeSys reg v).advance
  | privileged {t : State} (hx : s.psw.x = 0#1) (hinv : Inv s → Inv t) (hpc : PcAligned s → PcAligned t) : Answers i s t

/-- Wherever a result is a next state, the instruction i has done to s what an instruction can. -/
def ResultAnswers (i : Instr) (s : State) (x : Result) : Prop := ∀ t, x = .next t → Answers i s t

namespace ResultAnswers

variable {i : Instr} {s : State}

theorem next {t : State} (h : Answers i s t) : ResultAnswers i s (.next t) := by
  rintro _ ⟨⟩
  exact h

theorem computed {t : State} (h : Computes s t) : ResultAnswers i s (.next t) := next (.computed h)

theorem fault (f : Fault) : ResultAnswers i s (.fault f) := by rintro _ ⟨⟩

theorem refused (r : Refusal) : ResultAnswers i s (.refused r) := by rintro _ ⟨⟩

theorem raise (q : TrapReq) : ResultAnswers i s (s.raise q) := next (.trap .start q)

theorem ite {c : Prop} [Decidable c] {x y : Result} (hx : ResultAnswers i s x) (hy : ResultAnswers i s y) :
    ResultAnswers i s (if c then x else y) := by
  split
  · exact hx
  · exact hy

theorem run {α : Type} {x : Access α} {k : α → State → Result} (hk : ∀ a u, x = .ok a u → ResultAnswers i s (k a u)) :
    ResultAnswers i s (x.run s k) := by
  intro t h
  rcases run_next h with ⟨a, u, hx, ht⟩ | ⟨q, -, rfl⟩
  · exact hk a u hx t ht
  · exact .trap .start q

theorem ifPrivileged {w : Word} {k : Result} (hk : s.psw.x = 0#1 → ResultAnswers i s k) :
    ResultAnswers i s (s.ifPrivileged w k) := by
  intro t h
  rcases ifPrivileged_next h with ⟨hx, ht⟩ | ⟨-, rfl⟩
  · exact hk hx t ht
  · exact .trap .start _

theorem finish {u : State} (hu : Computes s u) (late : Option TrapReq) : ResultAnswers i s (u.finish late) := by
  intro t h
  rcases finish_next h with ⟨-, rfl⟩ | ⟨q, -, rfl⟩
  · exact .computed hu
  · exact .trap hu q

/-- A privileged instruction that keeps the invariant and advances. -/
theorem privileged {t : State} (hx : s.psw.x = 0#1) (hinv : Inv s → Inv t) (hofs : t.psw.ofs = s.psw.ofs + 4#32) :
    ResultAnswers i s (.next t) :=
  next (.privileged hx hinv fun hs => by rw [PcAligned, hofs]; exact add_mod_four hs rfl)

theorem writeGr_advance (r : GReg) (v : Word) : ResultAnswers i s (.next (s.writeGr r v).advance) :=
  computed (.advance (.writeGr .start r v))

/-- A branch with a link. -/
theorem link_setOfs (r : GReg) (v : Word) {target : Word} (ht : PcAligned s → target.toNat % 4 = 0) :
    ResultAnswers i s (.next ((s.writeGr r v).setOfs target)) :=
  computed (.setOfs (.writeGr .start r v) ht)

theorem writeAlu {u : State} (hu : Computes s u) (w : Word) (r : GReg) (o : Bool) (q : AluResult)
    (late : Option TrapReq) : ResultAnswers i s (u.writeAlu w r o q late) := by
  intro t h
  rcases writeAlu_next h with ⟨-, rfl⟩ | ⟨-, ht⟩
  · exact .trap hu _
  · exact finish (.advance (.setCarry (.writeGr hu r q.res) q.carry)) late t ht

theorem runAlu (w : Word) (r : GReg) (o : Bool) (opd : Operand) (f : Word → Word → AluResult) :
    ResultAnswers i s (s.runAlu w r o opd f) :=
  run fun _ _ h => writeAlu (computes_of_operand h) _ _ _ _ _

theorem runLogic (w : Word) (r : GReg) (opd : Operand) (f : Word → Word → Word) :
    ResultAnswers i s (s.runLogic w r opd f) :=
  run fun _ _ h => finish (.advance (.writeGr (computes_of_operand h) _ _)) _

end ResultAnswers

/-! ## The instructions -/

section instructions

variable {i : Instr} {s : State}

theorem execB_answers (r : GReg) (ofs : BitVec 22) : ResultAnswers i s (execB r ofs s) :=
  .link_setOfs r _ fun hs => add_mod_four hs (branchDisp_mod ofs)

theorem execBr_answers (r b : GReg) : ResultAnswers i s (execBr r b s) :=
  .link_setOfs r _ fun hs => add_mod_four hs (shiftLeft_two_mod _)

theorem execBv_answers (r b : GReg) : ResultAnswers i s (execBv r b s) := .link_setOfs r _ fun _ => alignWord_mod _

theorem gateThrough_eq (s : State) (r : GReg) (e : TlbEntry) :
    s.gateThrough r e =
      (s.setLevel (if e.ptype = .gateway ∧ e.pl2 < s.psw.x then e.pl2 else s.psw.x)).writeGr r (zext e.pl1) := by
  unfold State.gateThrough
  split <;> rfl

theorem execGate_answers (r : GReg) (ofs : BitVec 22) : ResultAnswers (.gate r ofs) s (execGate r ofs s) := by
  unfold execGate
  refine .ite (.next (.gate rfl _ _)) ?_
  split
  · exact .raise _
  · rw [gateThrough_eq]
    exact .next (.gate rfl _ _)

theorem execBe_answers (r : GReg) (ofs : BitVec 14) (a : BitVec 4) (b : GReg) : ResultAnswers i s (execBe r ofs a b s) :=
  .ite (.next (.external _ _ _)) (.ite (.fault _) (.next (.external _ _ _)))

theorem compareBranch_answers {n : Nat} (c : Bool) (ofs : BitVec n) :
    ResultAnswers i s (if c then .next (s.setOfs (s.psw.ofs + branchDisp ofs)) else .next s.advance) :=
  .ite (.computed (.setOfs .start fun hs => add_mod_four hs (branchDisp_mod ofs))) (.computed (.advance .start))

theorem execCmr_answers (r : GReg) (cond : BitVec 4) (a b : GReg) : ResultAnswers i s (execCmr r cond a b s) := by
  unfold execCmr
  split
  · exact .raise _
  · exact .writeGr_advance r _
  · exact .computed (.advance .start)

theorem execDs_answers (r a b : GReg) : ResultAnswers i s (execDs r a b s) :=
  .computed (.advance (.setV (.setCarry (.writeGr .start r _) _) _))

/-- AND and OR: trap 5, the undefined operation, or a logical instruction. -/
theorem logicOrUndefined_answers {reserved undef : Prop} [Decidable reserved] [Decidable undef] (w : Word) (r : GReg)
    (opd : Operand) (f : Word → Word → Word) :
    ResultAnswers i s (if reserved then s.raise (illegalInstruction w)
      else if undef then .fault .undefinedOperation else s.runLogic w r opd f) :=
  .ite (.raise _) (.ite (.fault _) (.runLogic w r opd f))

theorem execXor_answers (r : GReg) (n : Bool) (opd : Operand) : ResultAnswers i s (execXor r n opd s) :=
  .runLogic _ r opd _

theorem execCmp_answers (r : GReg) (cond : Cond) (opd : Operand) : ResultAnswers i s (execCmp r cond opd s) :=
  .runLogic _ r opd _

theorem execCmpu_answers (r : GReg) (cond : Cond) (opd : Operand) : ResultAnswers i s (execCmpu r cond opd s) :=
  .runLogic _ r opd _

theorem execMr_answers (r : GReg) (d : Bool) (reg : SysReg) : ResultAnswers i s (execMr r d reg s) := by
  unfold execMr
  refine .ite (.refused _) (.ite (.writeGr_advance r _) ?_)
  split
  · exact .raise _
  · next allowed => exact .next (.moveTo reg _ (by simpa [State.privileged, or_iff_not_imp_left] using allowed))

theorem execMst_answers (r : GReg) (arg : MstArg) : ResultAnswers i s (execMst r arg s) := by
  have moved (v : BitVec 4) (hx : s.psw.x = 0#1) : ResultAnswers i s (.next (s.moveToStatus r v)) :=
    .privileged hx (fun hs => ((hs.setSystemMask v).writeGr r _).advance)
      (by simp [State.moveToStatus, State.setSystemMask])
  cases arg with
  | undefined k => exact .raise _
  | reg b | set k | clear k => exact .ifPrivileged (moved _)

theorem execLd_answers (r : GReg) (m : Bool) (seg dw : BitVec 2) (disp : Disp) (b : GReg) :
    ResultAnswers i s (execLd r m seg dw disp b s) := by
  unfold execLd
  split
  · exact .raise _
  · exact .run fun _ _ h => .finish (.advance (.writeGr ((computes_of_memRead h).modifyBase _ _ _) _ _)) _

theorem execSt_answers (r : GReg) (m : Bool) (seg dw : BitVec 2) (disp : Disp) (b : GReg) :
    ResultAnswers i s (execSt r m seg dw disp b s) := by
  unfold execSt
  split
  · exact .raise _
  · exact .run fun _ _ h => .computed (.advance ((computes_of_memWrite h).modifyBase _ _ _))

theorem execLda_answers (r : GReg) (m : Bool) (disp : Disp) (b : GReg) : ResultAnswers i s (execLda r m disp b s) :=
  .ifPrivileged fun _ => .run fun _ _ h =>
    .computed (.advance (.writeGr ((computes_of_absRead h).modifyBase _ _ _) _ _))

theorem execSta_answers (r : GReg) (m : Bool) (disp : Disp) (b : GReg) : ResultAnswers i s (execSta r m disp b s) :=
  .ifPrivileged fun _ => .run fun _ _ h => .computed (.advance ((computes_of_absWrite h).modifyBase _ _ _))

/-- The reservation LDR makes is on an aligned word, since its read has passed the alignment check (R280). -/
theorem execLdr_answers (r : GReg) (seg : BitVec 2) (ofs : BitVec 12) (b : GReg) :
    ResultAnswers i s (execLdr r seg ofs b s) :=
  .run fun _ _ h =>
    .finish (.advance (.reserve (.writeGr (computes_of_memRead h) _ _) (readCheck_mod (memRead_ok h).1))) _

theorem execStc_answers (r : GReg) (seg : BitVec 2) (ofs : BitVec 12) (b : GReg) :
    ResultAnswers i s (execStc r seg ofs b s) := by
  unfold execStc
  dsimp only
  split
  · exact .raise _
  · exact .ite
      (.run fun _ _ h => .computed (.advance (.endReservation (.writeGr (computes_of_physWrite h) _ _))))
      (.computed (.advance (.endReservation (.writeGr .start _ _))))

theorem execLdpa_answers (r : GReg) (seg : BitVec 2) (a b : GReg) : ResultAnswers i s (execLdpa r seg a b s) := by
  refine .ifPrivileged fun _ => .ite (.writeGr_advance r _) ?_
  split
  · exact .raise _
  · exact .writeGr_advance r _

theorem execPrb_answers (r : GReg) (w imm : Bool) (seg : BitVec 2) (a b : GReg) :
    ResultAnswers i s (execPrb r w imm seg a b s) := by
  refine .ite (.writeGr_advance r _) ?_
  split
  · exact .raise _
  · exact .writeGr_advance r _

theorem execItlb_answers (r : GReg) (t : Bool) (a : BitVec 3) (b : GReg) : ResultAnswers i s (execItlb r t a b s) :=
  .ifPrivileged fun hx => .ite
    (.privileged hx (fun hs => (hs.setDtlb (hs.dtlb.set (vpn_lt _ _) rfl)).advance) rfl)
    (.privileged hx (fun hs => (hs.setItlb (hs.itlb.set (vpn_lt _ _) rfl)).advance) rfl)

theorem execPtlb_answers (t m : Bool) (seg : BitVec 2) (a b : GReg) : ResultAnswers i s (execPtlb t m seg a b s) := by
  refine .ifPrivileged fun hx => .privileged hx (fun hs => (Inv.modifyBase ?_ _ _ _).advance) ?_
  · split
    · exact hs.setDtlb (hs.dtlb.erase _)
    · exact hs.setItlb (hs.itlb.erase _)
  · rw [State.advance_psw, State.modifyBase_psw]
    split <;> rfl

theorem execPca_answers (t m : Bool) (seg : BitVec 2) (f : Bool) (a b : GReg) :
    ResultAnswers i s (execPca t m seg f a b s) := by
  refine .ifPrivileged fun hx => ?_
  dsimp only
  split
  · exact .raise _
  · exact .privileged hx (fun hs => ((hs.purgeCache _ _ _).modifyBase _ _ _).advance) (by simp)

theorem execDiag_answers (r : GReg) (info : BitVec 4) (a b : GReg) : ResultAnswers i s (execDiag r info a b s) :=
  .ifPrivileged fun hx => .ite
    (.privileged hx (fun hs => ((hs.diagEffects _).writeGr r _).advance) (by simp [State.diagEffects_address]))
    (.refused _)

theorem execRfi_answers : ResultAnswers i s (execRfi s) :=
  .ifPrivileged fun hx => .next (.privileged hx Inv.returnFromTrap fun _ => alignWord_mod _)

end instructions

/-- What any instruction can do. -/
theorem exec_answers (i : Instr) (s : State) : ResultAnswers i s (exec i s) := by
  cases i with
  | brk => exact .ite (.computed (.advance .start)) (.raise _)
  | ldil | addil | ldo | lsid | dsr => exact .writeGr_advance _ _
  | extr | dep => exact .ite (.writeGr_advance _ _) (.fault _)
  | shla => exact .writeAlu .start _ _ _ _ _
  | cmr r cond a b => exact execCmr_answers r cond a b
  | mr r d reg => exact execMr_answers r d reg
  | mst r arg => exact execMst_answers r arg
  | ds r a b => exact execDs_answers r a b
  | add | adc | sub | sbc => exact .runAlu _ _ _ _ _
  | and | or => exact logicOrUndefined_answers _ _ _ _
  | xor r n opd => exact execXor_answers r n opd
  | cmp r cond opd => exact execCmp_answers r cond opd
  | cmpu r cond opd => exact execCmpu_answers r cond opd
  | b r ofs => exact execB_answers r ofs
  | gate r ofs => exact execGate_answers r ofs
  | br r b => exact execBr_answers r b
  | bv r b => exact execBv_answers r b
  | be r ofs a b => exact execBe_answers r ofs a b
  | bve => exact .next (.external _ _ _)
  | cbr | cbru => exact compareBranch_answers _ _
  | ld r m seg dw disp b => exact execLd_answers r m seg dw disp b
  | st r m seg dw disp b => exact execSt_answers r m seg dw disp b
  | lda r m disp b => exact execLda_answers r m disp b
  | sta r m disp b => exact execSta_answers r m disp b
  | ldr r seg ofs b => exact execLdr_answers r seg ofs b
  | stc r seg ofs b => exact execStc_answers r seg ofs b
  | ldpa r seg a b => exact execLdpa_answers r seg a b
  | prb r w imm seg a b => exact execPrb_answers r w imm seg a b
  | itlb r t a b => exact execItlb_answers r t a b
  | ptlb t m seg a b => exact execPtlb_answers t m seg a b
  | pca t m seg f a b => exact execPca_answers t m seg f a b
  | diag r info a b => exact execDiag_answers r info a b
  | rfi => exact execRfi_answers

/-! ## The invariant -/

/-- From s to t the invariant is kept, and the alignment of the offset too if the vector table is aligned. -/
structure KeepsInv (s t : State) : Prop where
  inv : Inv s → Inv t
  pcAligned : PcAligned s → BaseAligned s → PcAligned t

/-- What leaves the offset and the control registers as they were goes before. -/
theorem KeepsInv.after {s u t : State} (h : KeepsInv u t) (hinv : Inv s → Inv u) (hofs : u.psw.ofs = s.psw.ofs)
    (hcr : u.cr = s.cr) : KeepsInv s t where
  inv hs := h.inv (hinv hs)
  pcAligned hp hb := h.pcAligned (by rwa [PcAligned, hofs]) (by rwa [BaseAligned, State.readCr, hcr])

/-- Trap entry goes to the vector table, whose slots are aligned if the table is (R551). -/
theorem Computes.keepsInv_takeTrap {s u : State} (h : Computes s u) (q : TrapReq) : KeepsInv s (u.takeTrap q) where
  inv hs := (h.inv hs).takeTrap q
  pcAligned _ hb := trapPsw_ofs_mod (by rwa [State.readCr, h.sameControl.cr]) q.num

theorem Answers.keepsInv {i : Instr} {s t : State} (h : Answers i s t) : KeepsInv s t := by
  cases h with
  | trap h q => exact h.keepsInv_takeTrap q
  | computed h => exact ⟨h.inv, fun hp _ => h.pcAligned hp⟩
  | external r seg target =>
    exact ⟨fun hs => (((hs.writeSr _ _).writeGr _ _).setSeg _).setOfs _, fun _ _ => alignWord_mod target⟩
  | @gate r ofs _ level v =>
    exact ⟨fun hs => ((hs.setLevel level).writeGr r v).setOfs _, fun hp _ => add_mod_four hp (branchDisp_mod ofs)⟩
  | moveTo reg v _ =>
    cases reg with
    | sr n => exact ⟨fun hs => (hs.writeSr n _).advance, fun hp _ => add_mod_four hp rfl⟩
    | cr n => exact ⟨fun hs => (hs.writeCr n v).advance, fun hp _ => add_mod_four hp rfl⟩
  | privileged _ hinv hpc => exact ⟨hinv, fun hp _ => hpc hp⟩

theorem runWord_keepsInv {s t : State} {w : Word} (h : s.runWord w = .next t) : KeepsInv s t := by
  unfold State.runWord at h
  split at h
  · exact (exec_answers _ s t h).keepsInv
  · cases h
    exact Computes.start.keepsInv_takeTrap _
  · cases h

theorem runFetched_keepsInv {s t : State} {w : Word} (h : s.runFetched w = .next t) : KeepsInv s t := by
  unfold State.runFetched at h
  split at h
  · cases h
    exact ⟨fun hs => hs.clearN.advance, fun hp _ => add_mod_four hp rfl⟩
  · exact runWord_keepsInv h

@[simp] theorem State.demote_ofs (s : State) (e : TlbEntry) : (s.demote e).psw.ofs = s.psw.ofs := by
  unfold State.demote
  split <;> rfl

@[simp] theorem State.demote_cr (s : State) (e : TlbEntry) : (s.demote e).cr = s.cr := by
  unfold State.demote
  split <;> rfl

/-- A fetch leaves the offset and the control registers as they were. -/
theorem fetch_address {s u : State} {w : Word} (h : s.fetch = .ok w u) : u.psw.ofs = s.psw.ofs ∧ u.cr = s.cr := by
  obtain ⟨v, rfl | ⟨e, -, rfl⟩, rfl | ⟨a, rfl⟩⟩ := fetch_ok h <;> simp

theorem fetchAndRun_keepsInv {s t : State} (h : s.fetchAndRun = .next t) : KeepsInv s t := by
  rcases run_next h with ⟨w, u, hf, ht⟩ | ⟨q, -, rfl⟩
  · obtain ⟨hofs, hcr⟩ := fetch_address hf
    exact (runFetched_keepsInv ht).after (fun hs => hs.fetch hf) hofs hcr
  · exact Computes.start.keepsInv_takeTrap q

theorem interruptOrRun_keepsInv {s t : State} (h : s.interruptOrRun = .next t) : KeepsInv s t := by
  unfold State.interruptOrRun at h
  split at h
  · cases h
    exact Computes.start.keepsInv_takeTrap _
  · exact fetchAndRun_keepsInv h

/-- Settles O14: what happens between two steps keeps the invariant, and so does the interrupt, the fetch and everything an
instruction can do. -/
theorem stepKeepsInv : Obligations.StepKeepsInv := by
  intro s t hs h
  have kept : KeepsInv s t :=
    (interruptOrRun_keepsInv (step_next h)).after (fun hs => hs.betweenSteps) (by simp) (by simp)
  exact ⟨kept.inv hs, kept.pcAligned⟩

/-! ## User mode -/

/-- A computation leaves privileged state as it was. -/
theorem SameControl.userKept {s t : State} (h : SameControl s t) : UserKept s t where
  itlb := h.itlb
  dtlb := h.dtlb
  ic := h.ic
  m := (congrArg Psw.m h.psw :)
  c := (congrArg Psw.c h.psw :)
  r := (congrArg Psw.r h.psw :)
  z := (congrArg Psw.z h.psw :)
  d := (congrArg Psw.d h.psw :)
  p := (congrArg Psw.p h.psw :)
  e := (congrArg Psw.e h.psw :)
  reserved := (congrArg Psw.reserved h.psw :)
  sr n _ _ := by simp [State.readSr, h.sr]
  cr n _ := by simp [State.readCr, h.cr]

theorem SameControl.level {s t : State} (h : SameControl s t) : t.psw.x = s.psw.x := (congrArg Psw.x h.psw :)

/-- An external branch writes only SR0 of the segment registers, and PSW.seg (R335, R338). -/
theorem external_userKept (s : State) (r : GReg) (seg : SegId) (target : Word) :
    UserKept s (s.external r seg target) := by
  constructor <;> simp +contextual [State.external, State.readSr_writeSr]

/-- GATE changes nothing of the status word but the level and the offset (R341). -/
theorem gate_userKept (s : State) (r : GReg) (level : Level) (v target : Word) :
    UserKept s (((s.setLevel level).writeGr r v).setOfs target) := by
  constructor <;> simp

/-- A register that user mode may write is not in the privileged sets (R452). -/
theorem writeSys_userKept {s : State} {reg : SysReg} (h : s.params.privilegedRegister reg = false) (v : Word) :
    UserKept s (s.writeSys reg v).advance := by
  cases reg with
  | sr n =>
    have other (k : BitVec 3) (hk : s.params.privSr.getLsbD k.toNat = true) : k ≠ n := by
      rintro rfl
      exact absurd (hk.symm.trans h) (by decide)
    constructor <;> simp +contextual [State.writeSys, State.readSr_writeSr, other]
  | cr n =>
    have other (k : BitVec 5) (hk : s.params.privCr.getLsbD k.toNat = true) : k ≠ n := by
      rintro rfl
      exact absurd (hk.symm.trans h) (by decide)
    constructor <;> simp +contextual [State.writeSys, State.readCr_writeCr, other]

/-- Settles O16: of the things an instruction can do, user mode excludes the privileged ones, and only GATE writes the
level. -/
theorem userModeContained : Obligations.UserModeContained := by
  intro i s t hx h
  have user : s.psw.x ≠ 0#1 := by simp [hx]
  cases exec_answers i s t h with
  | @trap u computes q =>
    obtain ⟨sr, cr, itlb, dtlb, -⟩ := computes.sameControl
    exact .inl ⟨q, u, rfl, cr, sr, itlb, dtlb⟩
  | computed computes => exact .inr ⟨computes.sameControl.userKept, .inl (computes.sameControl.level.trans hx)⟩
  | external r seg target => exact .inr ⟨external_userKept s r seg target, .inl (by simpa [State.external] using hx)⟩
  | gate hi level v => exact .inr ⟨gate_userKept s _ level v _, .inr ⟨_, _, hi⟩⟩
  | moveTo reg v allowed =>
    refine .inr ⟨writeSys_userKept (allowed.resolve_left user) v, .inl ?_⟩
    cases reg <;> exact hx
  | privileged hx => exact absurd hx user

/-! ## Reset -/

/-- After reset every map is empty and every register zero, so only the size of a visible cache line is asked for
(R622, R623). -/
theorem inv_resetWith {p : Params} (line : p.cacheVisible = true → 0 < p.cacheLineBytes) : Inv (State.resetWith p) where
  memory := ⟨mapWf_nil, nofun⟩
  itlb := ⟨mapWf_nil, nofun⟩
  dtlb := ⟨mapWf_nil, nofun⟩
  ic := ⟨mapWf_nil, nofun⟩
  dc := ⟨mapWf_nil, nofun⟩
  line := line
  coherent _ := nofun
  transparent _ := ⟨rfl, rfl⟩
  unrecorded _ := rfl
  zero := by simp [State.resetWith]
  shamt := by simp [State.resetWith]
  reservation := nofun

/-- Settles O13: the default parameters have transparent caches and a RESET_OFS that is a multiple of four. -/
theorem resetInv : Obligations.ResetInv := ⟨inv_resetWith (by decide), by unfold PcAligned; decide⟩

/-! ## The two words of the processor status word -/

/-- Clearing the two low bits rounds down to a multiple of four (R42). -/
theorem alignWord_eq (v : Word) : alignWord v = BitVec.ofNat 32 (v.toNat / 4 * 4) := by
  have upper : alignWord v >>> 2 = v >>> 2 := by
    ext i hi
    interval_cases i <;> simp [alignWord]
  have quotient : (alignWord v).toNat / 4 = v.toNat / 4 := by
    simpa [Nat.shiftRight_eq_div_pow] using congrArg BitVec.toNat upper
  have rest := alignWord_mod v
  apply BitVec.eq_of_toNat_eq
  rw [BitVec.toNat_ofNat, Nat.mod_eq_of_lt (by omega)]
  omega

/-- PSW-0 is the word that RFI makes it of (R40, R485). -/
theorem word0_ofWords (w0 w1 : Word) : (Psw.ofWords w0 w1).word0 = w0 := by
  refine BitVec.eq_of_getLsbD_eq fun i hi => ?_
  simp only [Psw.word0, Psw.ofWords, bit, bits, bitAt, BitVec.getLsbD_append, BitVec.getLsbD_ofBool,
    BitVec.getLsbD_extractLsb']
  interval_cases i <;> simp

/-- Bit i of PSW-0, by weight, in terms of the fields of the figure (R40). -/
theorem getLsbD_word0 (p : Psw) (i : Nat) : p.word0.getLsbD i =
    if i < 16 then p.seg.getLsbD i else [p.e, p.p, p.d, p.z, p.r, p.reserved.getLsbD 0, p.reserved.getLsbD 1,
      p.reserved.getLsbD 2, p.reserved.getLsbD 3, p.reserved.getLsbD 4, p.cb, p.v, p.n, p.c, p.x.getLsbD 0, p.m].getD
      (i - 16) false := by
  by_cases seg : i < 16
  · simp only [Psw.word0, BitVec.getLsbD_append, seg, if_true]
  by_cases high : 32 ≤ i
  · rw [BitVec.getLsbD_of_ge _ _ high, if_neg seg, List.getD_eq_default _ _ (by simp; omega)]
  simp only [Psw.word0, bit, BitVec.getLsbD_append, BitVec.getLsbD_ofBool]
  interval_cases i <;> simp

/-- RFI makes of the two words of a status word the status word again, if its offset is a multiple of four (R40, R42). -/
theorem ofWords_word0 {p : Psw} (h : p.ofs.toNat % 4 = 0) : Psw.ofWords p.word0 p.ofs = p := by
  have x : bits p.word0 30 1 = p.x := BitVec.eq_of_getLsbD_eq fun i hi => by
    rw [bits, BitVec.getLsbD_extractLsb', getLsbD_word0]
    interval_cases i; simp
  have reserved : bits p.word0 21 5 = p.reserved := BitVec.eq_of_getLsbD_eq fun i hi => by
    rw [bits, BitVec.getLsbD_extractLsb', getLsbD_word0]
    interval_cases i <;> simp
  have seg : bits p.word0 0 16 = p.seg := BitVec.eq_of_getLsbD_eq fun i hi => by
    simp [bits, getLsbD_word0, hi]
  simp only [Psw.ofWords, x, reserved, seg, alignWord_of_mod h, bitAt, getLsbD_word0]
  rfl

/-! ## Traps and the return from them -/

/-- RFI in privileged mode (R485). -/
theorem exec_rfi_privileged {s : State} (hx : s.psw.x = 0#1) : exec .rfi s = .next s.returnFromTrap :=
  ifPrivileged_of_privileged hx _ _

theorem returnFromTrap_system (s : State) : SameSystem s s.returnFromTrap := by
  constructor <;> simp [State.dataByte]

/-- Settles O59: RFI makes the status word of CR17 and CR18 and writes nothing else but the reservation. -/
theorem returnFromTrap : Obligations.ReturnFromTrap := fun s hx =>
  ⟨_, exec_rfi_privileged hx, word0_ofWords _ _, alignWord_eq _, rfl, rfl, returnFromTrap_system s⟩

/-- Trap entry saves the status word and the offset where RFI takes them from (R551, R485). -/
theorem returnFromTrap_takeTrap_psw {s : State} (h : PcAligned s) (q : TrapReq) :
    (s.takeTrap q).returnFromTrap.psw = s.psw := by
  have trapped := takeTrap_trapped s q
  rw [State.returnFromTrap_psw, trapped.savedStatus, trapped.savedOffset, ofWords_word0 h]

/-- A trap is entered in privileged mode (R551). -/
theorem takeTrap_level (s : State) (q : TrapReq) : (s.takeTrap q).psw.x = 0#1 := by
  simp [trapPsw, Psw.ofWords, bits]

/-- Settles O18: trap entry is in privileged mode, and RFI undoes what it did to the status word. -/
theorem trapThenReturn : Obligations.TrapThenReturn := by
  intro s q hpc
  refine ⟨_, exec_rfi_privileged (takeTrap_level s q), returnFromTrap_takeTrap_psw hpc q, ?_⟩
  simp [State.dataByte]

/-- A step runs from the state between two instructions, unless it refuses (R570). -/
theorem step_eq {s : State} (hr : s.psw.r = false) (hz : s.psw.z = false) : step s = s.betweenSteps.interruptOrRun := by
  simp [step, State.cycle, hr, hz]

/-- Settles O9: the interrupt is taken in the state between two instructions, which has the status word of s. -/
theorem interruptTaken : Obligations.InterruptTaken := by
  intro s hr hz
  have trapped := takeTrap_trapped s.betweenSteps externalInterrupt
  refine ⟨⟨_, trapped, by rw [trapped.savedOffset, State.betweenSteps_psw], step_eq hr hz⟩, fun he => ?_⟩
  simp [State.interruptPending, he]

/-! ## The fetch -/

/-- The segment is among the eight protection identifiers (R147). -/
theorem pidMatch_iff (s : State) (seg : SegId) : s.pidMatch seg = true ↔ ¬ NoPidMatches s seg := by
  simp [State.pidMatch, NoPidMatches, bits, imp_iff_not_or, or_assoc]

/-- An access passes the check of protection identifiers unless both flags are set and none matches (R147). -/
theorem pidPasses_iff (s : State) (e : TlbEntry) (seg : SegId) :
    s.pidPasses e seg = true ↔ (s.psw.p = true → e.p = true → ¬ NoPidMatches s seg) := by
  rw [← pidMatch_iff]
  cases hp : s.psw.p <;> cases he : e.p <;> simp [State.pidPasses, hp, he]

theorem executable_iff (t : PageType) : t.executable = true ↔ t = .execute ∨ t = .gateway := by
  cases t <;> simp [PageType.executable]

/-- The checks of a translated fetch pass (R148). -/
theorem fetchCheck_none {s : State} {e : TlbEntry} (ht : e.ptype = .execute ∨ e.ptype = .gateway) (hx : s.psw.x ≤ e.pl1)
    (hp : s.psw.p = true → e.p = true → ¬ NoPidMatches s s.psw.seg) : s.fetchCheck e = none := by
  have level : ¬ e.pl1 < s.psw.x := by simpa using hx
  simp [State.fetchCheck, (executable_iff _).2 ht, (pidPasses_iff s e s.psw.seg).2 hp, level]

/-- A fetch that has a place reads there, after the demotion (R148, R153). -/
theorem fetch_of_fetchPlace {s u : State} {pa : PAddr} (h : FetchPlace s pa u) : s.fetch = u.fetchPhys pa := by
  unfold State.fetch
  rcases h with ⟨off, rfl, rfl⟩ | ⟨hc, hb, e, he, ht, hx, hp, rfl, rfl⟩
  · rw [if_pos (by simpa [State.fetchUntranslated] using off)]
    rfl
  · rw [if_neg (by simp [State.fetchUntranslated, hc, hb]), he]
    simp only [fetchCheck_none ht hx hp]
    rfl

/-- The demotion changes neither PSW.N nor the parameters (R148). -/
theorem FetchPlace.n_and_params {s u : State} {pa : PAddr} (h : FetchPlace s pa u) :
    u.psw.n = s.psw.n ∧ u.params = s.params := by
  rcases h with ⟨-, -, rfl⟩ | ⟨-, -, e, -, -, -, -, -, rfl⟩
  · exact ⟨rfl, rfl⟩
  · split <;> exact ⟨rfl, rfl⟩

/-- A fetch from memory gives a word and leaves the state as it was (R153). -/
theorem fetchPhys_memory {s : State} {pa : PAddr} (h : regionOf s.params pa.toNat 4 = .memory) :
    ∃ w, s.fetchPhys pa = .ok w s := by
  unfold State.fetchPhys
  rw [h]
  exact ⟨_, rfl⟩

/-- The effect of skipping a nullified instruction (R47). -/
theorem clearN_advance_result (s : State) : PswResult { s.psw.next with n := false } s s.clearN.advance where
  gr := fun k _ => by simp
  psw := rfl
  reservation := rfl
  system := by constructor <;> simp [State.dataByte]

/-- Settles O7: the word is fetched from its place, and N is found set in the state after the demotion. -/
theorem nullifiedStep : Obligations.NullifiedStep := by
  intro s u pa hr hz hn hi hf hm
  obtain ⟨un, uparams⟩ := hf.n_and_params
  rw [State.betweenSteps_psw, hn] at un
  obtain ⟨w, hw⟩ : ∃ w, u.fetchPhys pa = .ok w u := fetchPhys_memory (by rwa [uparams, State.betweenSteps_params])
  refine ⟨u.clearN.advance, ?_, clearN_advance_result u⟩
  rw [step_eq hr hz, State.interruptOrRun, hi, if_neg (by decide), State.fetchAndRun, fetch_of_fetchPlace hf, hw]
  exact if_pos un

/-! ## Moves to and from segment and control registers -/

/-- The low bits of a word as a number. -/
theorem and_31_eq (v : Word) : v &&& 0x1F#32 = BitVec.ofNat 32 (v.toNat % 32) := by
  apply BitVec.eq_of_toNat_eq
  rw [BitVec.toNat_and, BitVec.toNat_ofNat, BitVec.toNat_ofNat, Nat.mod_eq_of_lt (a := v.toNat % 32) (by omega)]
  exact Nat.and_two_pow_sub_one_eq_mod v.toNat 5

/-- What a control register keeps of a word: five bits in CR2 (R60, R63). -/
theorem crValue_eq (n : BitVec 5) (v : Word) :
    crValue n v = if n = 2#5 then BitVec.ofNat 32 (v.toNat % 32) else v := by
  rw [crValue, and_31_eq]

/-- The control registers without a behaviour, listed (R64). -/
theorem reservedCr_of_mem : ∀ {n : BitVec 5},
    n ∈ [3#5, 8#5, 9#5, 10#5, 11#5, 12#5, 13#5, 14#5, 15#5, 23#5] → reservedCr n = true := by decide

theorem exec_mr_read {reg : SysReg} (hr : namesReserved reg = false) (s : State) (r : GReg) :
    exec (.mr r false reg) s = .next (s.writeGr r (s.readSys reg)).advance := by
  simp [exec, execMr, hr]

theorem exec_mr_write {s : State} {reg : SysReg} (hr : namesReserved reg = false)
    (hp : s.psw.x = 0#1 ∨ s.params.privilegedRegister reg = false) (r : GReg) :
    exec (.mr r true reg) s = .next (s.writeSys reg (s.readGr r)).advance := by
  have allowed : (!s.privileged && s.params.privilegedRegister reg) = false := by
    rcases hp with hp | hp <;> simp [State.privileged, hp]
  simp [exec, execMr, hr, allowed]

theorem exec_mr_reserved {n : BitVec 5} (hn : reservedCr n = true) (s : State) (r : GReg) (d : Bool) :
    exec (.mr r d (.cr n)) s = .refused .reservedControlRegister := if_pos hn

/-- A segment register written: nothing else of the system changes (R37). -/
theorem writeSr_system (s : State) (n : BitVec 3) (v : SegId) :
    SameSystem s { (s.writeSr n v).advance with sr := s.sr } := by
  constructor <;> simp [State.dataByte]

/-- A control register written: nothing else of the system changes (R60). -/
theorem writeCr_system (s : State) (n : BitVec 5) (v : Word) :
    SameSystem s { (s.writeCr n v).advance with cr := s.cr } := by
  constructor <;> simp [State.dataByte]

/-- Settles O54: MR by its direction and the kind of register it names. -/
theorem moveRegister : Obligations.MoveRegister := by
  refine fun s r => ⟨fun n => ?_, fun n hn => ?_, fun n hp => ?_, fun n hn hp => ?_, fun n d hn => ?_⟩
  · rw [BitVec.ofNat_toNat]
    exact ⟨_, exec_mr_read (reg := .sr n) rfl s r, writeGr_advance_result s r _⟩
  · exact ⟨_, exec_mr_read (reg := .cr n) hn s r, writeGr_advance_result s r _⟩
  · refine ⟨_, exec_mr_write (reg := .sr n) rfl hp r, ?_, fun k hk => ?_, fun k _ => ?_, rfl, rfl, writeSr_system s n _⟩
    · simp [State.writeSys, State.readSr_writeSr, bits]
    · simp [State.writeSys, State.readSr_writeSr, hk]
    · simp [State.writeSys]
  · refine ⟨_, exec_mr_write (reg := .cr n) hn hp r, ?_, fun k hk => ?_, fun k _ => ?_, rfl, rfl, writeCr_system s n _⟩
    · simp [State.writeSys, State.readCr_writeCr, crValue_eq]
    · simp [State.writeSys, State.readCr_writeCr, hk]
    · simp [State.writeSys]
  · exact exec_mr_reserved (reservedCr_of_mem hn) s r d

/-! ## MST -/

/-- The four status bits as a number, by their weights (R455). -/
theorem systemMask_eq (s : State) : zext s.systemMask =
    BitVec.ofNat 32 (8 * s.psw.z.toNat + 4 * s.psw.d.toNat + 2 * s.psw.p.toNat + s.psw.e.toNat) := by
  have weights : ∀ z d p e : Bool, zext (bit z ++ bit d ++ bit p ++ bit e) =
      BitVec.ofNat 32 (8 * z.toNat + 4 * d.toNat + 2 * p.toNat + e.toNat) := by decide
  exact weights _ _ _ _

/-- MST with new bits: the old ones into GR[r], no other status bit changed (R455). -/
theorem moveToStatus_result (s : State) (r : GReg) (new : BitVec 4) :
    RegisterResult r (BitVec.ofNat 32 (8 * s.psw.z.toNat + 4 * s.psw.d.toNat + 2 * s.psw.p.toNat + s.psw.e.toNat))
      { s.psw.next with z := new.getLsbD 3, d := new.getLsbD 2, p := new.getLsbD 1, e := new.getLsbD 0 } s
      (s.moveToStatus r new) := by
  obtain ⟨dest, others, psw, reservation, system⟩ := writeGr_advance_result (s.setSystemMask new) r (zext s.systemMask)
  refine ⟨by rw [← systemMask_eq]; exact dest, others, psw, reservation, ?_⟩
  obtain ⟨⟩ := system
  constructor <;> assumption

/-- MST in privileged mode, by its mode (R455). -/
theorem exec_mst_privileged {s : State} (hx : s.psw.x = 0#1) {arg : MstArg} {new : BitVec 4}
    (h : (∃ b, arg = .reg b ∧ new = (s.readGr b).extractLsb' 0 4) ∨ (∃ k, arg = .set k ∧ new = s.systemMask ||| k) ∨
      (∃ k, arg = .clear k ∧ new = s.systemMask &&& ~~~k)) (r : GReg) :
    exec (.mst r arg) s = .next (s.moveToStatus r new) := by
  rcases h with ⟨b, rfl, rfl⟩ | ⟨k, rfl, rfl⟩ | ⟨k, rfl, rfl⟩ <;> exact ifPrivileged_of_privileged hx _ _

/-- Settles O55: the defined modes move to the status word, mode 3 traps. -/
theorem moveToStatus : Obligations.MoveToStatus := by
  refine fun s r arg new => ⟨fun hx h => ⟨_, exec_mst_privileged hx h r, moveToStatus_result s r new⟩, ?_⟩
  rintro k rfl
  exact ⟨_, rfl, takeTrap_trapped s _⟩

/-! ## External branches -/

/-- The displacement of a branch, as the number it stands for (R322). -/
theorem branchDisp_eq {n : Nat} (ofs : BitVec n) : branchDisp ofs = BitVec.ofInt 32 (4 * ofs.toInt) := by
  have value : (ofs ++ 0#2).toInt = 4 * ofs.toInt := by
    rw [BitVec.toInt_append]
    by_cases hn : n = 0
    · subst hn
      simp [BitVec.eq_nil ofs]
    · simp [hn]
  rw [branchDisp, sext, BitVec.signExtend, value]

theorem add_branchDisp {n : Nat} (v : Word) (ofs : BitVec n) :
    v + branchDisp ofs = BitVec.ofInt 32 (v.toNat + 4 * ofs.toInt) := by
  rw [BitVec.ofInt_add, branchDisp_eq, BitVec.ofInt_natCast, BitVec.ofNat_toNat, BitVec.setWidth_eq]

/-- The segment register that an offset selects is 4 plus its two leftmost bits (R127). -/
theorem segSelect_toNat (ofs : Word) : (segSelect ofs).toNat = 4 + ofs.toNat / 2 ^ 30 := by
  have top : ofs.toNat / 2 ^ 30 < 4 := by omega
  rw [segSelect, BitVec.toNat_append, ← Nat.shiftLeft_add_eq_or_of_lt (BitVec.isLt _), bits, BitVec.extractLsb'_toNat,
    Nat.shiftRight_eq_div_pow, Nat.mod_eq_of_lt top]
  rfl

/-- What an external branch changes: SR0, the link, the segment and the offset (R335, R338). -/
theorem external_result (s : State) (r : GReg) (seg : SegId) (target : Word) :
    Holds (s.external r seg target) r (s.psw.ofs + 4#32) ∧ SameGrExcept [r] s (s.external r seg target) ∧
    (s.external r seg target).psw = { s.psw with seg := seg, ofs := BitVec.ofNat 32 (target.toNat / 4 * 4) } ∧
    (s.external r seg target).readSr 0#3 = s.psw.seg ∧
    (∀ k, k ≠ 0#3 → (s.external r seg target).readSr k = s.readSr k) ∧
    (s.external r seg target).reservation = s.reservation ∧ SameSystem s { s.external r seg target with sr := s.sr } := by
  refine ⟨?_, fun k hk => ?_, ?_, ?_, fun k hk => ?_, ?_, ?_⟩
  · simp [Holds, State.external, State.readGr_writeGr_same, State.link]
  · simp [State.external, State.readGr_writeGr_other (by simpa using hk : k ≠ r)]
  · simp [State.external, alignWord_eq]
  · simp [State.external, State.readSr_writeSr]
  · simp [State.external, State.readSr_writeSr, hk]
  · simp [State.external]
  · constructor <;> simp [State.external, State.dataByte]

/-- BE, where the field a names a segment register or is ignored (R335, R244). -/
theorem exec_be_eq {s : State} {a : BitVec 4} {n : BitVec 3} (hn : s.psw.c = true → n.toNat = a.toNat) (r : GReg)
    (ofs : BitVec 14) (b : GReg) :
    exec (.be r ofs a b) s =
      .next (s.external r (if s.psw.c then s.readSr n else s.psw.seg) (s.readGr b + branchDisp ofs)) := by
  cases hc : s.psw.c with
  | false => simp [exec, execBe, hc]
  | true =>
    have small : ¬ 8#4 ≤ a := by
      have := hn hc
      rw [BitVec.le_def, BitVec.toNat_ofNat]
      omega
    have named : a.setWidth 3 = n := BitVec.eq_of_toNat_eq (by
      rw [BitVec.toNat_setWidth, ← hn hc, Nat.mod_eq_of_lt n.isLt])
    simp [exec, execBe, hc, small, named]

/-- BVE (R338). -/
theorem exec_bve_eq {s : State} {a b : GReg} {n : BitVec 3}
    (hn : n.toNat = 4 + (s.readGr b + s.readGr a).toNat / 2 ^ 30) (r : GReg) :
    exec (.bve r a b) s =
      .next (s.external r (if s.psw.c then s.readSr n else s.psw.seg) (s.readGr b + s.readGr a)) := by
  have selected : n = segSelect (s.readGr b + s.readGr a) := BitVec.eq_of_toNat_eq (hn.trans (segSelect_toNat _).symm)
  rw [selected]
  rfl

/-- Settles O46: BE and BVE end in the same external branch. -/
theorem externalBranches : Obligations.ExternalBranches := by
  rintro s i r a b ofs n x (⟨rfl, hn, rfl⟩ | ⟨rfl, hn, rfl⟩)
  · rw [← add_branchDisp]
    exact ⟨_, exec_be_eq hn r ofs b, external_result s r _ _⟩
  · exact ⟨_, exec_bve_eq hn r, external_result s r _ _⟩

end Sys2Proof.Machine

/-!
PROOFS. Sys2Proof/Proofs/Memory.lean: the statements that rest on 20_memory.md: the address and the checks of every data
access, what the accesses read and write, the caches, and the instructions that make the accesses or edit translations.
-/

namespace Sys2Proof.Machine

/-! ## Addresses -/

/-- The displacement that the model computes is the one described (R261). -/
theorem Displacement.eq {s : State} {disp : Disp} {d : Word} (h : Displacement s disp d) : s.displacement disp = d := by
  cases disp with
  | ofs o => exact BitVec.eq_of_toInt_eq ((BitVec.toInt_signExtend_of_le (by decide)).trans h.symm)
  | index a => exact h.symm

/-- The offset that the model accesses is the one described (R261). -/
theorem AccessOffset.eq {s : State} {m : Bool} {b : GReg} {d ea : Word} (h : AccessOffset s m b d ea) :
    s.effectiveAddress m b d = ea := by
  have sign : (m && !d.msb) = true ↔ m = true ∧ 0 ≤ d.toInt := by simp [BitVec.msb_eq_toInt]
  unfold State.effectiveAddress State.updatedBase
  simp only [sign]
  unfold AccessOffset at h
  split at h <;> simp [*]

/-- The segment that the model accesses is the one described (R127). -/
theorem SegmentOf.eq {s : State} {seg : BitVec 2} {ea : Word} {sid : SegId} (h : SegmentOf s seg ea sid) :
    s.segOf seg ea = sid := by
  obtain ⟨n, hn, rfl⟩ := h
  unfold State.segOf
  split
  · next zero =>
    rw [if_pos zero, ← segSelect_toNat] at hn
    rw [BitVec.eq_of_toNat_eq hn]
  · next other =>
    have named : seg.setWidth 3 = n := BitVec.eq_of_toNat_eq (by
      rw [hn, if_neg other, BitVec.toNat_setWidth_of_le (by decide)])
    rw [named]

/-- Concatenation as a sum: the left part above the right one. -/
theorem append_toNat {m n : Nat} (x : BitVec m) (y : BitVec n) : (x ++ y).toNat = x.toNat * 2 ^ n + y.toNat := by
  rw [BitVec.toNat_append, ← Nat.shiftLeft_add_eq_or_of_lt y.isLt, Nat.shiftLeft_eq]

/-- The key of a translation: 16 bits of segment above 18 bits of page number (R132). -/
theorem vpn_eq (seg : SegId) (ofs : Word) : vpn seg ofs = seg.toNat * 2 ^ 18 + ofs.toNat / 2 ^ 14 := by
  have page : (bits ofs 14 18).toNat = ofs.toNat / 2 ^ 14 := by
    rw [bits, BitVec.extractLsb'_toNat, Nat.shiftRight_eq_div_pow, Nat.mod_eq_of_lt (by omega)]
  rw [vpn, append_toNat, page]

/-- The key tells both the segment and the page. -/
theorem vpn_eq_iff {seg seg' : SegId} {x y : Word} :
    vpn seg x = vpn seg' y ↔ seg = seg' ∧ x.toNat / 2 ^ 14 = y.toNat / 2 ^ 14 := by
  rw [vpn_eq, vpn_eq, ← BitVec.toNat_inj]
  omega

/-- The virtual page of a data access is the one described (R131, R132). -/
theorem pageKey_eq (s : State) (sid : SegId) (ea : Word) : s.pageKey sid ea = PageOf s sid ea := by
  rw [State.pageKey, vpn_eq, PageOf]
  split <;> rfl

theorem absolute_toNat (ofs : Word) : (absolute ofs).toNat = ofs.toNat := BitVec.toNat_setWidth_of_le (by decide)

theorem address_toNat (e : TlbEntry) (ofs : Word) :
    (e.address ofs).toNat = e.ppn.toNat * 2 ^ 14 + ofs.toNat % 2 ^ 14 := by
  rw [TlbEntry.address, bits, append_toNat, BitVec.extractLsb'_toNat, Nat.shiftRight_zero]

/-! ## The checks of a data access -/

theorem aligned_iff {ofs : Word} {n : Width} : aligned ofs n = true ↔ ofs.toNat % n.bytes = 0 := by simp [aligned]

/-- Reading is allowed at the levels up to PL1 (R146). -/
theorem readAllowed_iff (e : TlbEntry) (pl : Level) : e.readAllowed pl = true ↔ pl ≤ e.pl1 := by
  simp [TlbEntry.readAllowed]

theorem readCheck_misaligned {s : State} {w ofs : Word} {seg : SegId} {n : Width} (h : ofs.toNat % n.bytes ≠ 0) :
    s.readCheck w seg ofs n = .error (alignmentTrap w seg ofs) := by
  rw [State.readCheck, if_pos (by simpa [aligned] using h)]

theorem writeCheck_misaligned {s : State} {w ofs : Word} {seg : SegId} {n : Width} (h : ofs.toNat % n.bytes ≠ 0) :
    s.writeCheck w seg ofs n = .error (alignmentTrap w seg ofs) := by
  rw [State.writeCheck, if_pos (by simpa [aligned] using h)]

theorem readCheck_untranslated {s : State} {ofs : Word} {seg : SegId} {n : Width} (w : Word) (ha : ofs.toNat % n.bytes = 0)
    (h : s.psw.d = false ∨ s.bypassed seg = true) :
    s.readCheck w seg ofs n = .ok { pa := absolute ofs, late := none } := by
  rw [State.readCheck, if_neg (by simpa [aligned] using ha), if_pos (by simpa using h)]

theorem writeCheck_untranslated {s : State} {ofs : Word} {seg : SegId} {n : Width} (w : Word)
    (ha : ofs.toNat % n.bytes = 0) (h : s.psw.d = false ∨ s.bypassed seg = true) :
    s.writeCheck w seg ofs n = .ok (absolute ofs) := by
  rw [State.writeCheck, if_neg (by simpa [aligned] using ha), if_pos (by simpa using h)]

section translated

variable {s : State} {ofs : Word} {seg : SegId} {n : Width} (w : Word) (ha : ofs.toNat % n.bytes = 0)
  (hd : s.psw.d = true) (hb : s.bypassed seg = false)
include ha hd hb

theorem readCheck_miss (he : tlbFind s.dtlb seg ofs = none) :
    s.readCheck w seg ofs n = .error (dataTlbMiss w seg ofs) := by
  simp [State.readCheck, aligned, ha, hd, hb, he]

theorem writeCheck_miss (he : tlbFind s.dtlb seg ofs = none) :
    s.writeCheck w seg ofs n = .error (dataTlbMiss w seg ofs) := by
  simp [State.writeCheck, aligned, ha, hd, hb, he]

variable {e : TlbEntry} (he : tlbFind s.dtlb seg ofs = some e)
include he

/-- The checks of a read through an entry, in their order (R150). -/
theorem readCheck_entry : s.readCheck w seg ofs n =
    if e.readAllowed s.psw.x = false then .error (accessRightsTrap w seg ofs)
    else if s.pidPasses e seg = false then .error (dataProtectionTrap w seg ofs)
    else if e.t = true then .error (pageReferenceTrap w seg ofs)
    else .ok { pa := e.address ofs, late := if e.b then some (dataTrap s.params.trapB w seg ofs) else none } := by
  simp [State.readCheck, aligned, ha, hd, hb, he]

/-- The checks of a write through an entry, in their order (R151). -/
theorem writeCheck_entry : s.writeCheck w seg ofs n =
    if e.writeAllowed s.psw.x = false then .error (accessRightsTrap w seg ofs)
    else if s.pidPasses e seg = false then .error (dataProtectionTrap w seg ofs)
    else if e.t = true then .error (pageReferenceTrap w seg ofs)
    else if e.d = true then .error (dataTrap s.params.trapD w seg ofs)
    else if e.b = true then .error (dataTrap s.params.trapB w seg ofs)
    else .ok (e.address ofs) := by
  simp [State.writeCheck, aligned, ha, hd, hb, he]

end translated

/-- The protection identifier check fails where it is made and none matches (R147). -/
theorem pidPasses_eq_false {s : State} {e : TlbEntry} {seg : SegId} (hp : s.psw.p = true) (he : e.p = true)
    (h : NoPidMatches s seg) : s.pidPasses e seg = false := by
  rw [← Bool.not_eq_true, pidPasses_iff]
  exact fun passes => passes hp he h

/-- A read that has a place passes its checks and leaves no trap (R150). -/
theorem ReadPlace.readCheck {s : State} {seg : SegId} {ofs : Word} {n : Width} {pa : PAddr}
    (h : ReadPlace s seg ofs n pa) (w : Word) : s.readCheck w seg ofs n = .ok { pa := pa, late := none } := by
  obtain ⟨ha, ⟨off, rfl⟩ | ⟨hd, hb, e, he, allowed, pid, ht, hB, rfl⟩⟩ := h
  · exact readCheck_untranslated w ha off
  · simp only [readCheck_entry w ha hd hb he, allowed, pid, ht, hB, Bool.true_eq_false, Bool.false_eq_true, if_false]
    rfl

/-- A write that has a place passes its checks (R151). -/
theorem WritePlace.writeCheck {s : State} {seg : SegId} {ofs : Word} {n : Width} {pa : PAddr}
    (h : WritePlace s seg ofs n pa) (w : Word) : s.writeCheck w seg ofs n = .ok pa := by
  obtain ⟨ha, ⟨off, rfl⟩ | ⟨hd, hb, e, he, allowed, pid, ht, hD, hB, rfl⟩⟩ := h
  · exact writeCheck_untranslated w ha off
  · simp only [writeCheck_entry w ha hd hb he, allowed, pid, ht, hD, hB, Bool.true_eq_false, Bool.false_eq_true, if_false]
    rfl

/-! ## Instructions by their data access -/

/-- An access whose value is passed on changed. -/
def Access.map {α β : Type} (f : α → β) : Access α → Access β
  | .ok a s => .ok (f a) s
  | .trap t => .trap t
  | .fault e => .fault e

theorem Access.run_map {α β : Type} (f : α → β) (x : Access α) (s : State) (k : β → State → Result) :
    (x.map f).run s k = x.run s fun a t => k (f a) t := by cases x <;> rfl

/-- The inputs that a value read from memory gives (R371). -/
def State.memInputs (s : State) (r : GReg) (q : ReadResult) : Inputs := { a := s.readGr r, b := q.value, late := q.late }

/-- A memory operand is a data read at its offset (R371). -/
theorem memOperand_eq {s : State} {dw : BitVec 2} {n : Width} (hw : widthOf dw = some n) (w : Word) (r : GReg)
    (ofs : Word) : s.memOperand w r dw ofs = (s.memRead w (s.segOf 0#2 ofs) ofs n).map (s.memInputs r) := by
  simp only [State.memOperand, hw]
  cases s.memRead w (s.segOf 0#2 ofs) ofs n <;> rfl

theorem MemoryOperand.operand {s : State} {opd : Operand} {n : Width} {ea : Word} {sid : SegId}
    (h : MemoryOperand s opd n ea) (hs : SegmentOf s 0#2 ea sid) (w : Word) (r : GReg) :
    s.operand w r opd = (s.memRead w sid ea n).map (s.memInputs r) := by
  rw [← hs.eq]
  cases h with
  | indexed dw n a b hw => exact memOperand_eq hw w r _
  | offset dw n o b hw => exact memOperand_eq hw w r _

/-- The fetched operand of a memory operand that can be read. -/
theorem MemoryOperand.operand_of_memRead {s t : State} {opd : Operand} {n : Width} {ea w : Word} {sid : SegId}
    {q : ReadResult} (h : MemoryOperand s opd n ea) (hs : SegmentOf s 0#2 ea sid) (hm : s.memRead w sid ea n = .ok q t)
    (r : GReg) : s.operand w r opd = .ok { a := s.readGr r, b := q.value, late := q.late } t := by
  rw [h.operand hs, hm]
  rfl

theorem MemoryOperand.not_reserved {s : State} {opd : Operand} {n : Width} {ea : Word} (h : MemoryOperand s opd n ea) :
    operandReserved opd = false := by
  have defined : ∀ {dw : BitVec 2} {n : Width}, widthOf dw = some n → (dw == 3#2) = false := by decide
  cases h with
  | indexed dw n a b hw => exact defined hw
  | offset dw n o b hw => exact defined hw

/-- The reserved width traps (R371). -/
theorem operand_reserved {opd : Operand} (h : operandReserved opd = true) (s : State) (w : Word) (r : GReg) :
    s.operand w r opd = .trap (illegalInstruction w) := by
  cases opd with
  | imm val => cases h
  | reg a b => cases h
  | indexed dw a b => rw [eq_of_beq h]; rfl
  | offset dw o b => rw [eq_of_beq h]; rfl

/-- An instruction of the operand format begins with its operand, unless its width is reserved (R371). -/
theorem HasOperand.exec_run {i : Instr} {r : GReg} {opd : Operand} (h : HasOperand i r opd)
    (hr : operandReserved opd = false) (s : State) : ∃ k, exec i s = (s.operand (encode i) r opd).run s k := by
  cases h with
  | add | adc | sub | sbc | xor | cmp | cmpu => exact ⟨_, rfl⟩
  | and r n c opd hnc => exact ⟨_, by simp only [exec, execAnd, hr, hnc, Bool.false_eq_true, if_false]; rfl⟩
  | or r n c opd hnc => exact ⟨_, by simp only [exec, execOr, hr, hnc, Bool.false_eq_true, if_false]; rfl⟩

/-- The reserved width takes trap 5, before AND and OR look at N and C (R246, R371). -/
theorem exec_operand_reserved {i : Instr} {r : GReg} {opd : Operand}
    (h : HasOperand i r opd ∨ i = .and r true true opd ∨ i = .or r true true opd) (hr : operandReserved opd = true)
    (s : State) : exec i s = .next (s.takeTrap (illegalInstruction (encode i))) := by
  have run (w : Word) (k : Inputs → State → Result) :
      (s.operand w r opd).run s k = .next (s.takeTrap (illegalInstruction w)) := by
    rw [operand_reserved hr]
    rfl
  rcases h with h | rfl | rfl
  · cases h with
    | add | adc | sub | sbc | xor | cmp | cmpu => exact run _ _
    | and | or => exact if_pos hr
  · exact if_pos hr
  · exact if_pos hr

theorem HasOperand.unique {i : Instr} {r r' : GReg} {opd opd' : Operand} (h : HasOperand i r opd)
    (h' : HasOperand i r' opd') : r = r' ∧ opd = opd' := by
  cases h <;> cases h' <;> exact ⟨rfl, rfl⟩

section addressed

variable {s : State} {m : Bool} {seg dw : BitVec 2} {n : Width} {disp : Disp} {b : GReg} {d ea : Word} {sid : SegId}

/-- LD (R270). -/
theorem exec_ld_eq (hw : widthOf dw = some n) (hd : Displacement s disp d) (he : AccessOffset s m b d ea)
    (hs : SegmentOf s seg ea sid) (r : GReg) :
    exec (.ld r m seg dw disp b) s = (s.memRead (encode (.ld r m seg dw disp b)) sid ea n).run s fun q t =>
      (((t.modifyBase m b (s.readGr b + d)).writeGr r q.value).advance).finish q.late := by
  simp only [exec, execLd, hw, hd.eq, he.eq, hs.eq]
  rfl

/-- ST (R272). -/
theorem exec_st_eq (hw : widthOf dw = some n) (hd : Displacement s disp d) (he : AccessOffset s m b d ea)
    (hs : SegmentOf s seg ea sid) (r : GReg) :
    exec (.st r m seg dw disp b) s =
      (s.memWrite (encode (.st r m seg dw disp b)) sid ea n (s.readGr r)).run s fun _ t =>
        .next (t.modifyBase m b (s.readGr b + d)).advance := by
  simp only [exec, execSt, hw, hd.eq, he.eq, hs.eq]
  rfl

/-- LDA in privileged mode (R275). -/
theorem exec_lda_eq (hx : s.psw.x = 0#1) (hd : Displacement s disp d) (he : AccessOffset s m b d ea) (r : GReg) :
    exec (.lda r m disp b) s = (s.absRead (encode (.lda r m disp b)) ea).run s fun v t =>
      .next ((t.modifyBase m b (s.readGr b + d)).writeGr r v).advance := by
  simp only [exec, execLda, ifPrivileged_of_privileged hx, hd.eq, he.eq]
  rfl

/-- STA in privileged mode (R276). -/
theorem exec_sta_eq (hx : s.psw.x = 0#1) (hd : Displacement s disp d) (he : AccessOffset s m b d ea) (r : GReg) :
    exec (.sta r m disp b) s = (s.absWrite (encode (.sta r m disp b)) ea (s.readGr r)).run s fun _ t =>
      .next (t.modifyBase m b (s.readGr b + d)).advance := by
  simp only [exec, execSta, ifPrivileged_of_privileged hx, hd.eq, he.eq]
  rfl

end addressed

/-- LDR (R280). -/
theorem exec_ldr_eq {s : State} {seg : BitVec 2} {o : BitVec 12} {b : GReg} {sid : SegId}
    (hs : SegmentOf s seg (s.readGr b + o.signExtend 32) sid) (r : GReg) :
    exec (.ldr r seg o b) s =
      (s.memRead (encode (.ldr r seg o b)) sid (s.readGr b + o.signExtend 32) .word).run s fun q t =>
        (({ t.writeGr r q.value with reservation := some q.pa } : State).advance).finish q.late := by
  rw [← hs.eq]
  rfl

section stc

variable {s : State} {r : GReg} {seg : BitVec 2} {o : BitVec 12} {b : GReg} {sid : SegId}
  (hs : SegmentOf s seg (s.readGr b + o.signExtend 32) sid)
include hs

/-- STC whose checks fail (R285). -/
theorem exec_stc_trap {q : TrapReq}
    (hc : s.writeCheck (encode (.stc r seg o b)) sid (s.readGr b + o.signExtend 32) .word = .error q) :
    exec (.stc r seg o b) s = .next (s.takeTrap q) := by
  rw [← hs.eq] at hc
  simp only [exec, execStc, sext, hc, raise_eq]

/-- STC with a reservation on its address (R285). -/
theorem exec_stc_reserved {pa : PAddr}
    (hc : s.writeCheck (encode (.stc r seg o b)) sid (s.readGr b + o.signExtend 32) .word = .ok pa)
    (hr : s.reservation = some pa) :
    exec (.stc r seg o b) s =
      (s.physWrite (PageOf s sid (s.readGr b + o.signExtend 32)) pa .word (s.readGr r)).run s fun _ t =>
        .next ({ t.writeGr r 0#32 with reservation := none } : State).advance := by
  rw [← pageKey_eq]
  rw [← hs.eq] at hc ⊢
  simp only [exec, execStc, sext, hc, hr, if_true]

/-- STC without one (R285). -/
theorem exec_stc_unreserved {pa : PAddr}
    (hc : s.writeCheck (encode (.stc r seg o b)) sid (s.readGr b + o.signExtend 32) .word = .ok pa)
    (hr : s.reservation ≠ some pa) :
    exec (.stc r seg o b) s = .next ({ s.writeGr r 1#32 with reservation := none } : State).advance := by
  rw [← hs.eq] at hc
  simp only [exec, execStc, sext, hc, hr, if_false]

end stc

/-! ## Traps of data accesses -/

/-- An instruction that reads memory begins with the data read, whose trap or fault is its own (R150). -/
theorem ReadsMemory.exec_run {s : State} {i : Instr} {n : Width} {sid : SegId} {ea : Word}
    (h : ReadsMemory s i n sid ea) : ∃ k, exec i s = (s.memRead (encode i) sid ea n).run s k := by
  cases h with
  | ld r m seg dw n disp b d ea sid hw hd he hs => exact ⟨_, exec_ld_eq hw hd he hs r⟩
  | ldr r seg o b sid hs => exact ⟨_, exec_ldr_eq hs r⟩
  | operand i r opd n ea sid hi ho hs =>
    obtain ⟨k, hk⟩ := hi.exec_run ho.not_reserved s
    exact ⟨_, by rw [hk, ho.operand hs, Access.run_map]⟩

/-- A read whose checks fail raises their trap and does nothing else (R150, R550). -/
theorem ReadsMemory.traps {s : State} {i : Instr} {n : Width} {sid : SegId} {ea : Word} {q : TrapReq}
    (h : ReadsMemory s i n sid ea) (hc : s.readCheck (encode i) sid ea n = .error q) :
    ∃ t, exec i s = .next t ∧ Trapped q s t := by
  obtain ⟨k, hk⟩ := h.exec_run
  refine ⟨s.takeTrap q, ?_, takeTrap_trapped s q⟩
  rw [hk, memRead_trap.2 hc]
  rfl

/-- A write whose checks fail raises their trap and does nothing else (R151, R550). -/
theorem WritesMemory.traps {s : State} {i : Instr} {n : Width} {sid : SegId} {ea : Word} {q : TrapReq}
    (h : WritesMemory s i n sid ea) (hc : s.writeCheck (encode i) sid ea n = .error q) :
    ∃ t, exec i s = .next t ∧ Trapped q s t := by
  refine ⟨s.takeTrap q, ?_, takeTrap_trapped s q⟩
  cases h with
  | st r m seg dw n disp b d ea sid hw hd he hs =>
    rw [exec_st_eq hw hd he hs, State.memWrite, hc]
    rfl
  | stc r seg o b sid hs => exact exec_stc_trap hs hc

theorem absRead_misaligned {s : State} {ofs : Word} (w : Word) (h : ofs.toNat % 4 ≠ 0) :
    s.absRead w ofs = .trap (alignmentTrap w 0#16 ofs) := if_neg (mt aligned_iff.1 h)

theorem absWrite_misaligned {s : State} {ofs : Word} (w v : Word) (h : ofs.toNat % 4 ≠ 0) :
    s.absWrite w ofs v = .trap (alignmentTrap w 0#16 ofs) := if_neg (mt aligned_iff.1 h)

/-- Settles O19: alignment is the first check of every data access. -/
theorem misalignedAccessTraps : Obligations.MisalignedAccessTraps := by
  refine ⟨fun s i n sid ea h ha => ?_, fun s r m disp b d ea hx hd he ha => ⟨?_, ?_⟩⟩
  · rcases h with h | h
    · exact h.traps (readCheck_misaligned ha)
    · exact h.traps (writeCheck_misaligned ha)
  · refine ⟨_, ?_, takeTrap_trapped s _⟩
    rw [exec_lda_eq hx hd he, absRead_misaligned _ ha]
    rfl
  · refine ⟨_, ?_, takeTrap_trapped s _⟩
    rw [exec_sta_eq hx hd he, absWrite_misaligned _ _ ha]
    rfl

/-- Settles O20: the checks of a read through an entry come in the order of the traps. -/
theorem loadTranslationTraps : Obligations.LoadTranslationTraps := by
  intro s i n sid ea h ha hd hb
  refine ⟨fun he => h.traps (readCheck_miss _ ha hd hb he), fun e he => ?_⟩
  rw [← readAllowed_iff, ← pidPasses_iff, Bool.not_eq_true]
  refine ⟨fun rights => h.traps ?_, fun rights hp ep noPid => h.traps ?_, fun rights pid ht => h.traps ?_⟩
  · simp [readCheck_entry _ ha hd hb he, rights]
  · simp [readCheck_entry _ ha hd hb he, rights, pidPasses_eq_false hp ep noPid]
  · simp [readCheck_entry _ ha hd hb he, rights, pid, ht]

/-- Settles O21: the checks of a write through an entry come in the order of the traps. -/
theorem storeTranslationTraps : Obligations.StoreTranslationTraps := by
  intro s i n sid ea h ha hd hb
  refine ⟨fun he => h.traps (writeCheck_miss _ ha hd hb he), fun e he => ?_⟩
  rw [← pidPasses_iff]
  refine ⟨fun rights => h.traps ?_, fun rights hp ep noPid => h.traps ?_, fun rights pid =>
    ⟨fun ht => h.traps ?_, fun ht hD => h.traps ?_, fun ht hD hB => h.traps ?_⟩⟩
  · simp [writeCheck_entry _ ha hd hb he, rights]
  · simp [writeCheck_entry _ ha hd hb he, rights, pidPasses_eq_false hp ep noPid]
  · simp [writeCheck_entry _ ha hd hb he, rights, pid, ht]
  · simp [writeCheck_entry _ ha hd hb he, rights, pid, ht, hD]
  · simp [writeCheck_entry _ ha hd hb he, rights, pid, ht, hD, hB]

/-! ## What a read gives -/

theorem truncate_truncate (n : Width) (v : Word) : truncate n (truncate n v) = truncate n v := by
  cases n with
  | byte | half => rw [truncate, truncate, BitVec.and_assoc, BitVec.and_self]
  | word => rfl

/-- What a data read of memory gives is what its page sees, and the stored bytes where no other page stored there. -/
theorem viewValue_readValue (s : State) (page pa : Nat) (n : Width) : ReadValue s page pa n (s.viewValue page pa n) :=
  ⟨rfl, viewValue_recent⟩

theorem physRead_memory {s : State} {pa : PAddr} {n : Width} (h : regionOf s.params pa.toNat n.bytes = .memory)
    (page : Nat) : s.physRead page pa n = .ok (s.viewValue page pa.toNat n) s := by
  unfold State.physRead
  rw [h]

theorem physRead_io {s : State} {pa : PAddr} {n : Width} (h : regionOf s.params pa.toNat n.bytes = .io) (page : Nat) :
    ∃ x, truncate n x = x ∧ s.physRead page pa n = .ok x { s with io := .read pa.toNat n :: s.io } := by
  unfold State.physRead
  rw [h]
  exact ⟨_, truncate_truncate n _, rfl⟩

theorem physRead_absent {s : State} {pa : PAddr} {n : Width} (h : regionOf s.params pa.toNat n.bytes = .absent)
    (page : Nat) : s.physRead page pa n = .fault .absentMemory := by
  unfold State.physRead
  rw [h]

/-- A data read whose checks pass is the physical read of the place they give, through the page (R150). -/
theorem memRead_of_check {s t : State} {w ofs : Word} {seg : SegId} {n : Width} {plan : ReadPlan} {x : Word}
    (hc : s.readCheck w seg ofs n = .ok plan) (hr : s.physRead (PageOf s seg ofs) plan.pa n = .ok x t) :
    s.memRead w seg ofs n = .ok { value := x, pa := plan.pa, late := plan.late } t := by
  simp only [State.memRead, hc, pageKey_eq, hr]

theorem memRead_absent {s : State} {w ofs : Word} {seg : SegId} {n : Width} {plan : ReadPlan}
    (hc : s.readCheck w seg ofs n = .ok plan) (ha : regionOf s.params plan.pa.toNat n.bytes = .absent) :
    s.memRead w seg ofs n = .fault .absentMemory := by
  simp only [State.memRead, hc, physRead_absent ha]

/-- A read of a place that holds neither memory nor a device stops with a fault (R116). -/
theorem ReadsMemory.faults {s : State} {i : Instr} {n : Width} {sid : SegId} {ea : Word} {plan : ReadPlan}
    (h : ReadsMemory s i n sid ea) (hc : s.readCheck (encode i) sid ea n = .ok plan)
    (ha : regionOf s.params plan.pa.toNat n.bytes = .absent) : exec i s = .fault .absentMemory := by
  obtain ⟨k, hk⟩ := h.exec_run
  rw [hk, memRead_absent hc ha]
  rfl

/-! ## What a load leaves

A read leaves the state with nothing changed but the record of accesses to I/O space: `{ s with io := l }`. -/

/-- u is the state after a load of x, with the base updated to upd if M is set, from a state s in which the read left the
record l (R262, R270). -/
structure Loaded (r : GReg) (x : Word) (m : Bool) (b : GReg) (upd : Word) (l : List IoEvent) (s u : State) : Prop where
  registers : LoadResult r x m b upd s u
  psw : u.psw = s.psw.next
  reservation : u.reservation = s.reservation
  system : SameSystem { s with io := l } u

theorem loaded_writeGr (s : State) (l : List IoEvent) (r : GReg) (x : Word) (m : Bool) (b : GReg) (upd : Word) :
    Loaded r x m b upd l s ((({ s with io := l } : State).modifyBase m b upd).writeGr r x).advance := by
  obtain ⟨base, kept, others⟩ := modifyBase_result m b upd { s with io := l }
  have outside {k : GReg} (hk : k ≠ r) :
      ((({ s with io := l } : State).modifyBase m b upd).writeGr r x).advance.readGr k =
        (({ s with io := l } : State).modifyBase m b upd).readGr k := by
    rw [State.advance_readGr, State.readGr_writeGr_other hk]
  constructor
  · constructor
    · rw [Holds, State.advance_readGr, State.readGr_writeGr_same]
    · intro hm hb
      rw [Holds, outside hb]
      exact base hm
    · intro hm hb
      rw [outside hb]
      exact kept hm
    · intro k hk
      obtain ⟨hr, hb⟩ : k ≠ r ∧ k ≠ b := by simpa using hk
      rw [outside hr]
      exact others k (by simpa using hb)
  · simp [Psw.next]
  · simp
  · constructor <;> simp [State.dataByte]

/-- u is the state after LDR has loaded x from pa, from a state s in which the read left the record l (R280). -/
structure LoadReserved (r : GReg) (x : Word) (pa : PAddr) (l : List IoEvent) (s u : State) : Prop where
  dest : Holds u r x
  others : SameGrExcept [r] s u
  psw : u.psw = s.psw.next
  reservation : u.reservation = some pa
  system : SameSystem { s with io := l } u

/-- One register written, the reservation changed and the offset advanced, after something that has changed neither the
general registers nor the status word (R280, R285). -/
theorem writeGr_reserve_advance_result {s t : State} (hg : t.gr = s.gr) (hp : t.psw = s.psw) (r : GReg) (v : Word)
    (reserved : Option PAddr) :
    let u := ({ t.writeGr r v with reservation := reserved } : State).advance
    Holds u r v ∧ SameGrExcept [r] s u ∧ u.psw = s.psw.next ∧ SameSystem t u := by
  obtain ⟨dest, others, psw, -, ⟨⟩⟩ := writeGr_advance_result t r v
  refine ⟨dest, fun k hk => (others k hk).trans ?_, psw.trans (by rw [hp]), ?_⟩
  · simp only [State.readGr, hg]
  · constructor <;> assumption

/-- The record of accesses to I/O space is the only thing that a read changes of the system. -/
theorem SameSystem.of_io {s u : State} {l : List IoEvent} (h : SameSystem { s with io := l } u) :
    u.io = l ∧ SameSystem s { u with io := s.io } := ⟨h.io, { h with io := rfl }⟩

section addressed

variable {s : State} {l : List IoEvent} {q : ReadResult}

/-- LD after its read (R270). -/
theorem exec_ld_of_memRead {m : Bool} {seg dw : BitVec 2} {n : Width} {disp : Disp} {b : GReg} {d ea : Word} {sid : SegId}
    (hw : widthOf dw = some n) (hd : Displacement s disp d) (he : AccessOffset s m b d ea) (hs : SegmentOf s seg ea sid)
    {r : GReg} (hm : s.memRead (encode (.ld r m seg dw disp b)) sid ea n = .ok q { s with io := l }) :
    ∃ u, exec (.ld r m seg dw disp b) s = u.finish q.late ∧ Loaded r q.value m b (s.readGr b + d) l s u :=
  ⟨_, by rw [exec_ld_eq hw hd he hs, hm]; rfl, loaded_writeGr s l r q.value m b _⟩

/-- LDR after its read (R280). -/
theorem exec_ldr_of_memRead {seg : BitVec 2} {o : BitVec 12} {b : GReg} {sid : SegId}
    (hs : SegmentOf s seg (s.readGr b + o.signExtend 32) sid) {r : GReg}
    (hm : s.memRead (encode (.ldr r seg o b)) sid (s.readGr b + o.signExtend 32) .word = .ok q { s with io := l }) :
    ∃ u, exec (.ldr r seg o b) s = u.finish q.late ∧ LoadReserved r q.value q.pa l s u := by
  obtain ⟨dest, others, psw, system⟩ :=
    writeGr_reserve_advance_result (s := s) (t := { s with io := l }) rfl rfl r q.value (some q.pa)
  exact ⟨_, by rw [exec_ldr_eq hs, hm]; rfl, dest, others, psw, rfl, system⟩

end addressed

/-! ## Reads by the instruction that makes them -/

section reads

variable {s : State} {n : Width} {sid : SegId} {ea : Word} {l : List IoEvent} {q : ReadResult}

theorem ReadsMemory.ld_reads {r : GReg} {m : Bool} {seg dw : BitVec 2} {disp : Disp} {b : GReg} {d : Word}
    (h : ReadsMemory s (.ld r m seg dw disp b) n sid ea) (hd : Displacement s disp d)
    (hm : s.memRead (encode (.ld r m seg dw disp b)) sid ea n = .ok q { s with io := l }) :
    ∃ u, exec (.ld r m seg dw disp b) s = u.finish q.late ∧ Loaded r q.value m b (s.readGr b + d) l s u := by
  cases h with
  | ld _ _ _ _ _ _ _ d' _ _ hw hd' he hs =>
    obtain rfl : d' = d := hd'.eq.symm.trans hd.eq
    exact exec_ld_of_memRead hw hd he hs hm
  | operand _ _ _ _ _ _ hi => cases hi

theorem ReadsMemory.ldr_reads {r : GReg} {seg : BitVec 2} {o : BitVec 12} {b : GReg}
    (h : ReadsMemory s (.ldr r seg o b) n sid ea)
    (hm : s.memRead (encode (.ldr r seg o b)) sid ea n = .ok q { s with io := l }) :
    ∃ u, exec (.ldr r seg o b) s = u.finish q.late ∧ LoadReserved r q.value q.pa l s u := by
  cases h with
  | ldr _ _ _ _ _ hs => exact exec_ldr_of_memRead hs hm
  | operand _ _ _ _ _ _ hi => cases hi

theorem ReadsMemory.operand_reads {i : Instr} {r : GReg} {opd : Operand} {t : State} (h : ReadsMemory s i n sid ea)
    (hi : HasOperand i r opd) (hm : s.memRead (encode i) sid ea n = .ok q t) :
    s.operand (encode i) r opd = .ok { a := s.readGr r, b := q.value, late := q.late } t := by
  cases h with
  | ld => cases hi
  | ldr => cases hi
  | operand _ _ _ _ _ _ hi' ho hs =>
    obtain ⟨rfl, rfl⟩ := hi.unique hi'
    exact ho.operand_of_memRead hs hm _

end reads

/-- The trap that a read left is taken in the state after the writes (R567). -/
theorem finish_trapped (u : State) (q : TrapReq) : ∃ t, u.finish (some q) = .next t ∧ Trapped q u t :=
  ⟨_, rfl, takeTrap_trapped u q⟩

/-- A read of memory or of I/O space gives a value, and leaves the state as it was but for the recorded access. -/
theorem physRead_present {s : State} {pa : PAddr} {n : Width} (h : regionOf s.params pa.toNat n.bytes ≠ .absent)
    (page : Nat) : ∃ x l, s.physRead page pa n = .ok x { s with io := l } ∧
      (regionOf s.params pa.toNat n.bytes = .memory → l = s.io ∧ ReadValue s page pa.toNat n x) ∧
      (regionOf s.params pa.toNat n.bytes = .io → l = .read pa.toNat n :: s.io ∧ truncate n x = x) := by
  cases hr : regionOf s.params pa.toNat n.bytes with
  | memory => exact ⟨_, s.io, physRead_memory hr page, fun _ => ⟨rfl, viewValue_readValue s page _ n⟩, nofun⟩
  | io =>
    obtain ⟨x, hx, hp⟩ := physRead_io hr page
    exact ⟨x, _, hp, nofun, fun _ => ⟨rfl, hx⟩⟩
  | absent => exact absurd hr h

/-- Settles O22: the checks pass and leave the trap of the B flag, which each instruction takes after its writes. -/
theorem dataReferenceTrapAfterLoad : Obligations.DataReferenceTrapAfterLoad := by
  intro s i n sid ea e pa q h ha hd hb he rights pid ht hB hpa hq
  have check : s.readCheck (encode i) sid ea n = .ok { pa := pa, late := some q } := by
    rw [readCheck_entry _ ha hd hb he, hpa, hq]
    simp [(readAllowed_iff e _).2 rights, (pidPasses_iff s e sid).2 pid, ht, hB, TlbEntry.address, bits]
  refine ⟨fun present => ?_, fun absent => h.faults check absent⟩
  obtain ⟨x, l, read, memory, io⟩ := physRead_present present (PageOf s sid ea)
  have value := memRead_of_check check read
  refine ⟨x, { s with io := l }, fun hr => ?_, fun hr => ?_, ?_, ?_, fun r opd hi => h.operand_reads hi value⟩
  · obtain ⟨rfl, hx⟩ := memory hr
    exact ⟨rfl, hx⟩
  · obtain ⟨rfl, hx⟩ := io hr
    exact ⟨rfl, hx⟩
  · rintro r m seg dw disp b d rfl hd
    obtain ⟨u, run, loaded⟩ := h.ld_reads hd value
    obtain ⟨t, ends, trapped⟩ := finish_trapped u q
    exact ⟨u, t, run.trans ends, loaded.registers, loaded.psw, loaded.reservation, loaded.system, trapped,
      by rw [trapped.savedOffset, loaded.psw]; rfl⟩
  · rintro r seg o b rfl
    obtain ⟨u, run, loaded⟩ := h.ldr_reads value
    obtain ⟨t, ends, trapped⟩ := finish_trapped u q
    exact ⟨u, t, run.trans ends, loaded.dest, loaded.others, loaded.psw, loaded.reservation, loaded.system, trapped,
      by rw [trapped.savedOffset, loaded.psw]; rfl⟩

/-- A data read that goes to memory gives the value there and leaves the state as it was. -/
theorem ReadsAt.memRead {s : State} {sid : SegId} {ea : Word} {n : Width} {pa : PAddr} (h : ReadsAt s sid ea n pa)
    (w : Word) : s.memRead w sid ea n =
      .ok { value := s.viewValue (PageOf s sid ea) pa.toNat n, pa := pa, late := none } { s with io := s.io } :=
  memRead_of_check (h.readCheck w) (physRead_memory h.memory _)

/-- Settles O39: an operand in memory is a data read, and the reserved width traps before it. -/
theorem operandModes : Obligations.OperandModes := by
  refine fun s w r => ⟨fun _ => rfl, fun _ _ => rfl, fun opd n ea sid pa ho hs hr => ?_, fun a b ofs => ⟨?_, ?_⟩,
    fun i opd hopd hi => ?_⟩
  · exact ⟨_, viewValue_readValue s _ _ n, ho.operand_of_memRead hs (hr.memRead w) r⟩
  · exact operand_reserved rfl s w r
  · exact operand_reserved rfl s w r
  · have reserved : operandReserved opd = true := by rcases hopd with ⟨a, b, rfl⟩ | ⟨ofs, b, rfl⟩ <;> rfl
    have trapped := takeTrap_trapped s (illegalInstruction (encode i))
    exact ⟨_, exec_operand_reserved hi reserved s, trapped, trapped.p0 _ rfl⟩

/-- LDA reads at the physical address equal to the offset, through segment 0 (R152, R275). -/
theorem absRead_aligned {s : State} {ea : Word} (w : Word) (ha : ea.toNat % 4 = 0) :
    s.absRead w ea = s.physRead (ea.toNat / 2 ^ 14) (absolute ea) .word := by
  rw [State.absRead, if_pos (aligned_iff.2 ha), vpn_eq, BitVec.toNat_ofNat, Nat.zero_mod, Nat.zero_mul, Nat.zero_add]

/-- LDA after its read (R275). -/
theorem exec_lda_of_physRead {s : State} {m : Bool} {disp : Disp} {b : GReg} {d ea x : Word} {l : List IoEvent}
    (hx : s.psw.x = 0#1) (hd : Displacement s disp d) (he : AccessOffset s m b d ea) (ha : ea.toNat % 4 = 0)
    (hr : s.physRead (ea.toNat / 2 ^ 14) (absolute ea) .word = .ok x { s with io := l }) (r : GReg) :
    ∃ u, exec (.lda r m disp b) s = .next u ∧ Loaded r x m b (s.readGr b + d) l s u :=
  ⟨_, by rw [exec_lda_eq hx hd he, absRead_aligned _ ha, hr]; rfl, loaded_writeGr s l r x m b _⟩

/-- Settles O49: LD through its checks, LDA past them; both write the base first and the value after it. -/
theorem loads : Obligations.Loads := by
  refine ⟨fun s r m seg dw n disp b d ea sid pa hw hd he hs hr => ?_, fun s r m seg disp b w hw => ?_,
    fun s r m disp b d ea hx hd he ha hr => ?_⟩
  · obtain ⟨u, run, loaded⟩ := exec_ld_of_memRead hw hd he hs (r := r) (hr.memRead _)
    exact ⟨_, u, run, viewValue_readValue s _ _ n, loaded.registers, loaded.psw, loaded.reservation, loaded.system⟩
  · have trapped := takeTrap_trapped s (illegalInstruction w)
    exact ⟨_, by rw [hw]; rfl, trapped, trapped.p0 _ rfl⟩
  · rw [← absolute_toNat] at hr
    obtain ⟨u, run, loaded⟩ := exec_lda_of_physRead (l := s.io) hx hd he ha (physRead_memory hr _) r
    rw [absolute_toNat] at loaded
    exact ⟨_, u, run, viewValue_readValue s _ _ .word, loaded.registers, loaded.psw, loaded.reservation, loaded.system⟩

/-- Settles O50: LDR is a word read that sets the reservation to the address its checks gave. -/
theorem loadReserve : Obligations.LoadReserve := by
  rintro s r seg ofs b ea sid pa rfl hs hr
  obtain ⟨u, run, loaded⟩ := exec_ldr_of_memRead hs (r := r) (hr.memRead _)
  exact ⟨_, u, run, viewValue_readValue s _ _ .word, loaded.dest, loaded.others, loaded.psw, loaded.reservation,
    loaded.system⟩

/-! ## What a store leaves -/

/-- What a data read looks at is the same. -/
structure SameData (s t : State) : Prop where
  mem : t.mem = s.mem
  dc : t.dc = s.dc
  history : t.history = s.history
  tick : t.tick = s.tick
  params : t.params = s.params

theorem SameData.dataByte {s t : State} (h : SameData s t) : t.dataByte = s.dataByte := by
  funext a
  simp only [State.dataByte, h.params, h.dc, h.mem]

theorem SameData.viewByte {s t : State} (h : SameData s t) (page : Nat) : t.viewByte page = s.viewByte page := by
  funext a
  simp only [State.viewByte, h.params, h.history, h.tick, h.dataByte]

/-- Stored data stays where nothing that a data read looks at changes. -/
theorem Stores.of_sameData {s t u : State} {page pa : Nat} {n : Width} {v : Word} (h : Stores page pa n v s t)
    (k : SameData t u) : Stores page pa n v s u where
  value := by rw [State.dataValue, k.dataByte]; exact h.value
  seen := by rw [State.viewValue, k.viewByte]; exact h.seen
  outside a ha := by rw [k.dataByte]; exact h.outside a ha
  history := k.history.trans h.history

/-- A write breaks reservations by its address alone. -/
theorem ReservationAfterWrite.congr {pa : Nat} {s s' t t' : State} (h : ReservationAfterWrite pa s t)
    (hs : s'.reservation = s.reservation) (ht : t'.reservation = t.reservation) : ReservationAfterWrite pa s' t' := by
  constructor
  · rw [hs, ht]; exact h.ended
  · rw [hs, ht]; exact h.kept
  · rw [hs, ht]; exact h.none

/-- The state after a write of memory: the store recorded, the bytes stored, a reservation on their word ended (R151). -/
def State.stored (s : State) (page : Nat) (pa : PAddr) (n : Width) (v : Word) : State :=
  ((s.recordStore page pa.toNat n).setDataValue pa.toNat n v).breakReservation pa.toNat

/-- The state after a write of I/O space: the access recorded, a reservation on its word ended (R151). -/
def State.ioWritten (s : State) (pa : PAddr) (n : Width) (v : Word) : State :=
  (s.logIo (.write pa.toNat n (truncate n v))).breakReservation pa.toNat

section physWrite

variable {s : State} {pa : PAddr} {n : Width}

theorem physWrite_memory (h : regionOf s.params pa.toNat n.bytes = .memory) (page : Nat) (v : Word) :
    s.physWrite page pa n v = .ok () (s.stored page pa n v) := by
  unfold State.physWrite
  rw [h]
  rfl

theorem physWrite_io (h : regionOf s.params pa.toNat n.bytes = .io) (page : Nat) (v : Word) :
    s.physWrite page pa n v = .ok () (s.ioWritten pa n v) := by
  unfold State.physWrite
  rw [h]
  rfl

theorem physWrite_absent (h : regionOf s.params pa.toNat n.bytes = .absent) (page : Nat) (v : Word) :
    s.physWrite page pa n v = .fault .absentMemory := by
  unfold State.physWrite
  rw [h]

end physWrite

section stored

variable (s : State) (page : Nat) (pa : PAddr) (n : Width) (v : Word)

@[simp] theorem State.stored_gr : (s.stored page pa n v).gr = s.gr := by simp [State.stored]

@[simp] theorem State.stored_psw : (s.stored page pa n v).psw = s.psw := by simp [State.stored]

@[simp] theorem State.ioWritten_gr : (s.ioWritten pa n v).gr = s.gr := by simp [State.ioWritten]

@[simp] theorem State.ioWritten_psw : (s.ioWritten pa n v).psw = s.psw := by simp [State.ioWritten]

theorem stored_reservationAfterWrite : ReservationAfterWrite pa.toNat s (s.stored page pa n v) :=
  (breakReservation_after _ _).congr (by simp) rfl

theorem ioWritten_reservationAfterWrite : ReservationAfterWrite pa.toNat s (s.ioWritten pa n v) :=
  (breakReservation_after _ _).congr (by simp) rfl

theorem stored_sameButMemory : SameButMemory s (s.stored page pa n v) := by constructor <;> simp [State.stored]

theorem ioWritten_system :
    SameSystem { s with io := .write pa.toNat n (truncate n v) :: s.io } (s.ioWritten pa n v) := by
  constructor <;> simp [State.ioWritten, State.dataByte]

end stored

/-- A data write whose checks pass is the physical write of the place they give, through the page (R151). -/
theorem WritePlace.memWrite {s : State} {sid : SegId} {ea : Word} {n : Width} {pa : PAddr} (h : WritePlace s sid ea n pa)
    (w v : Word) : s.memWrite w sid ea n v = s.physWrite (PageOf s sid ea) pa n v := by
  simp only [State.memWrite, h.writeCheck, pageKey_eq]

/-- STA writes at the physical address equal to the offset, through segment 0 (R152, R276). -/
theorem absWrite_aligned {s : State} {ea : Word} (w v : Word) (ha : ea.toNat % 4 = 0) :
    s.absWrite w ea v = s.physWrite (ea.toNat / 2 ^ 14) (absolute ea) .word v := by
  rw [State.absWrite, if_pos (aligned_iff.2 ha), vpn_eq, BitVec.toNat_ofNat, Nat.zero_mod, Nat.zero_mul, Nat.zero_add]

/-! ## The end of an instruction that writes its base last -/

/-- The base written and the offset advanced, after something that has not changed the general registers (R262). -/
theorem modifyBase_advance_result {s t : State} (h : t.gr = s.gr) (m : Bool) (b : GReg) (upd : Word) :
    BaseResult m b upd s (t.modifyBase m b upd).advance := by
  have same (k : GReg) : t.readGr k = s.readGr k := by simp only [State.readGr, h]
  obtain ⟨base, kept, others⟩ := modifyBase_result m b upd t
  exact ⟨base, fun hm => (kept hm).trans (same b), fun k hk => (others k hk).trans (same k)⟩

theorem modifyBase_advance_psw {s t : State} (h : t.psw = s.psw) (m : Bool) (b : GReg) (upd : Word) :
    (t.modifyBase m b upd).advance.psw = s.psw.next := by simp [h, Psw.next]

/-- Writing the base and advancing changes nothing of the system. -/
theorem modifyBase_advance_system (t : State) (m : Bool) (b : GReg) (upd : Word) :
    SameSystem t (t.modifyBase m b upd).advance := by constructor <;> simp [State.dataByte]

theorem modifyBase_advance_sameData (t : State) (m : Bool) (b : GReg) (upd : Word) :
    SameData t (t.modifyBase m b upd).advance := by constructor <;> simp

theorem SameSystem.trans {s t u : State} (h : SameSystem s t) (k : SameSystem t u) : SameSystem s u where
  sr := k.sr.trans h.sr
  cr := k.cr.trans h.cr
  itlb := k.itlb.trans h.itlb
  dtlb := k.dtlb.trans h.dtlb
  ic := k.ic.trans h.ic
  dc := k.dc.trans h.dc
  data a := (k.data a).trans (h.data a)
  backing a := (k.backing a).trans (h.backing a)
  history := k.history.trans h.history
  io := k.io.trans h.io
  tick := k.tick.trans h.tick
  params := k.params.trans h.params

/-- What changes nothing of the system changes nothing of it after a store. -/
theorem SameButMemory.trans_system {s t u : State} (h : SameButMemory s t) (k : SameSystem t u) : SameButMemory s u where
  sr := k.sr.trans h.sr
  cr := k.cr.trans h.cr
  itlb := k.itlb.trans h.itlb
  dtlb := k.dtlb.trans h.dtlb
  ic := k.ic.trans h.ic
  io := k.io.trans h.io
  tick := k.tick.trans h.tick
  params := k.params.trans h.params

section base

variable {s : State} (pa : PAddr) (n : Width) (v : Word) (m : Bool) (b : GReg) (upd : Word)

/-- What ST and STA leave after a write of memory (R272, R276). -/
theorem stored_modifyBase_result (h : Inv s) (page : Nat) :
    let t := ((s.stored page pa n v).modifyBase m b upd).advance
    BaseResult m b upd s t ∧ t.psw = s.psw.next ∧ Stores page pa.toNat n v s t ∧ ReservationAfterWrite pa.toNat s t ∧
      SameButMemory s t :=
  ⟨modifyBase_advance_result (by simp) m b upd, modifyBase_advance_psw (by simp) m b upd,
    (physWrite_stores h.dataCacheOk page pa n v).of_sameData (modifyBase_advance_sameData _ m b upd),
    (stored_reservationAfterWrite s page pa n v).congr rfl (by simp),
    (stored_sameButMemory s page pa n v).trans_system (modifyBase_advance_system _ m b upd)⟩

/-- What ST and STA leave after a write of I/O space (R109). -/
theorem ioWritten_modifyBase_result :
    let t := ((s.ioWritten pa n v).modifyBase m b upd).advance
    BaseResult m b upd s t ∧ t.psw = s.psw.next ∧ ReservationAfterWrite pa.toNat s t ∧
      t.io = .write pa.toNat n (truncate n v) :: s.io ∧ SameSystem s { t with io := s.io } :=
  ⟨modifyBase_advance_result (by simp) m b upd, modifyBase_advance_psw (by simp) m b upd,
    (ioWritten_reservationAfterWrite s pa n v).congr rfl (by simp),
    ((ioWritten_system s pa n v).trans (modifyBase_advance_system _ m b upd)).of_io⟩

end base

/-- Settles O51: ST through its checks, STA past them; the base is written after the store. -/
theorem storesToMemory : Obligations.StoresToMemory := by
  refine ⟨fun s r m seg dw n disp b d ea sid pa hinv hw hd he hs hr => ?_, fun s r m seg disp b w hw => ?_,
    fun s r m disp b d ea hinv hx hd he ha hr => ?_⟩
  · refine ⟨_, ?_, stored_modifyBase_result pa n (s.readGr r) m b (s.readGr b + d) hinv (PageOf s sid ea)⟩
    rw [exec_st_eq hw hd he hs, hr.memWrite, physWrite_memory hr.memory]
    rfl
  · have trapped := takeTrap_trapped s (illegalInstruction w)
    exact ⟨_, by rw [hw]; rfl, trapped, trapped.p0 _ rfl⟩
  · rw [← absolute_toNat] at hr
    have result := stored_modifyBase_result (absolute ea) .word (s.readGr r) m b (s.readGr b + d) hinv (ea.toNat / 2 ^ 14)
    rw [absolute_toNat] at result
    refine ⟨_, ?_, result⟩
    rw [exec_sta_eq hx hd he, absWrite_aligned _ _ ha, physWrite_memory hr]
    rfl

/-! ## STC -/

theorem reservation_none_sameData (t : State) (r : GReg) (v : Word) :
    SameData t ({ t.writeGr r v with reservation := none } : State).advance := by constructor <;> simp

/-- Settles O52: the checks come first; then the reservation decides whether the word is stored. -/
theorem storeConditional : Obligations.StoreConditional := by
  rintro s r seg ofs b ea sid pa rfl hs place
  refine ⟨fun reserved hr hinv => ?_, fun reserved => ?_⟩
  · obtain ⟨dest, others, psw, system⟩ := writeGr_reserve_advance_result
      (s.stored_gr (PageOf s sid (s.readGr b + ofs.signExtend 32)) pa .word (s.readGr r)) (s.stored_psw _ _ _ _) r 0#32 none
    refine ⟨_, ?_, dest, others, psw, rfl,
      (physWrite_stores hinv.dataCacheOk _ pa .word _).of_sameData (reservation_none_sameData _ r _),
      (stored_sameButMemory s _ pa .word _).trans_system system⟩
    rw [exec_stc_reserved hs (place.writeCheck _) reserved, physWrite_memory hr]
    rfl
  · obtain ⟨dest, others, psw, system⟩ := writeGr_reserve_advance_result (s := s) rfl rfl r 1#32 none
    exact ⟨_, exec_stc_unreserved hs (place.writeCheck _) reserved, dest, others, psw, rfl, system⟩

/-! ## I/O space and absent memory -/

/-- ST to a place that its checks give (R272). -/
theorem WritesMemory.st_writes {s : State} {n : Width} {sid : SegId} {ea : Word} {pa : PAddr} {r : GReg} {m : Bool}
    {seg dw : BitVec 2} {disp : Disp} {b : GReg} (h : WritesMemory s (.st r m seg dw disp b) n sid ea)
    (place : WritePlace s sid ea n pa) : ∃ d, Displacement s disp d ∧
      exec (.st r m seg dw disp b) s = (s.physWrite (PageOf s sid ea) pa n (s.readGr r)).run s fun _ t =>
        .next (t.modifyBase m b (s.readGr b + d)).advance := by
  cases h with
  | st _ _ _ _ _ _ _ d _ _ hw hd he hs => exact ⟨d, hd, by rw [exec_st_eq hw hd he hs, place.memWrite]⟩

/-- STC with a reservation on the place that its checks give (R285). -/
theorem WritesMemory.stc_writes {s : State} {n : Width} {sid : SegId} {ea : Word} {pa : PAddr} {r : GReg}
    {seg : BitVec 2} {o : BitVec 12} {b : GReg} (h : WritesMemory s (.stc r seg o b) n sid ea)
    (place : WritePlace s sid ea n pa) (hr : s.reservation = some pa) : n = .word ∧
      exec (.stc r seg o b) s = (s.physWrite (PageOf s sid ea) pa .word (s.readGr r)).run s fun _ t =>
        .next ({ t.writeGr r 0#32 with reservation := none } : State).advance := by
  cases h with
  | stc _ _ _ _ _ hs => exact ⟨rfl, exec_stc_reserved hs (place.writeCheck _) hr⟩

/-- A data read of I/O space: a free value of the width, and one record (R109, R150). -/
theorem ReadPlace.memRead_io {s : State} {sid : SegId} {ea : Word} {n : Width} {pa : PAddr}
    (place : ReadPlace s sid ea n pa) (io : regionOf s.params pa.toNat n.bytes = .io) (w : Word) :
    ∃ x, truncate n x = x ∧ s.memRead w sid ea n =
      .ok { value := x, pa := pa, late := none } { s with io := .read pa.toNat n :: s.io } := by
  obtain ⟨x, hx, read⟩ := physRead_io io (PageOf s sid ea)
  exact ⟨x, hx, memRead_of_check (place.readCheck w) read⟩

/-- STC to I/O space with a reservation (R109, R285). -/
theorem exec_stc_io {s : State} {n : Width} {sid : SegId} {ea : Word} {pa : PAddr} {r : GReg} {seg : BitVec 2}
    {o : BitVec 12} {b : GReg} (h : WritesMemory s (.stc r seg o b) n sid ea) (place : WritePlace s sid ea n pa)
    (hr : s.reservation = some pa) (io : regionOf s.params pa.toNat n.bytes = .io) :
    ∃ t, exec (.stc r seg o b) s = .next t ∧ Holds t r 0#32 ∧ SameGrExcept [r] s t ∧ t.psw = s.psw.next ∧
      t.reservation = none ∧ t.io = .write pa.toNat n (s.readGr r) :: s.io ∧ SameSystem s { t with io := s.io } := by
  obtain ⟨rfl, run⟩ := h.stc_writes place hr
  obtain ⟨dest, others, psw, system⟩ := writeGr_reserve_advance_result (s.ioWritten_gr pa .word (s.readGr r))
    (s.ioWritten_psw _ _ _) r 0#32 none
  exact ⟨_, run.trans (by rw [physWrite_io io]; rfl), dest, others, psw, rfl,
    ((ioWritten_system s pa .word _).trans system).of_io⟩

/-- ST to I/O space (R109, R272). -/
theorem exec_st_io {s : State} {n : Width} {sid : SegId} {ea : Word} {pa : PAddr} {r : GReg} {m : Bool}
    {seg dw : BitVec 2} {disp : Disp} {b : GReg} {d : Word} (h : WritesMemory s (.st r m seg dw disp b) n sid ea)
    (place : WritePlace s sid ea n pa) (io : regionOf s.params pa.toNat n.bytes = .io) (hd : Displacement s disp d) :
    ∃ t, exec (.st r m seg dw disp b) s = .next t ∧ BaseResult m b (s.readGr b + d) s t ∧ t.psw = s.psw.next ∧
      ReservationAfterWrite pa.toNat s t ∧ t.io = .write pa.toNat n (truncate n (s.readGr r)) :: s.io ∧
      SameSystem s { t with io := s.io } := by
  obtain ⟨d', hd', run⟩ := h.st_writes place
  obtain rfl : d' = d := hd'.eq.symm.trans hd.eq
  exact ⟨_, run.trans (by rw [physWrite_io io]; rfl), ioWritten_modifyBase_result pa n (s.readGr r) m b _⟩

/-- A fetch from I/O space is recorded once, in the state after the demotion; a fetch from nowhere stops (R109, R116). -/
theorem fetch_io_and_absent {s u : State} {pa : PAddr} (h : FetchPlace s pa u) :
    (regionOf s.params pa.toNat 4 = .io →
      ∃ w, s.fetchAndRun = ({ u with io := .fetch pa.toNat :: u.io } : State).runFetched w) ∧
    (regionOf s.params pa.toNat 4 = .absent → s.fetchAndRun = .fault .absentMemory) := by
  have start : s.fetchAndRun = (u.fetchPhys pa).run s fun w t => t.runFetched w := by
    rw [State.fetchAndRun, fetch_of_fetchPlace h]
  rw [start, ← h.n_and_params.2]
  refine ⟨fun io => ?_, fun absent => ?_⟩
  · unfold State.fetchPhys
    rw [io]
    exact ⟨_, rfl⟩
  · unfold State.fetchPhys
    rw [absent]
    rfl

/-- Settles O53: an access to I/O space differs from one to memory by its record alone, and absent memory stops every
access. -/
theorem ioAndAbsentAccess : Obligations.IoAndAbsentAccess := by
  refine ⟨fun s i n sid ea pa h place => ⟨fun io => ?_, fun absent => h.faults (place.readCheck _) absent⟩,
    fun s i n sid ea pa h place => ⟨fun io => ⟨?_, ?_⟩, fun absent => ⟨?_, ?_⟩⟩,
    fun s r m disp b d ea hx hd he ha => ?_, fun s u pa h => fetch_io_and_absent h⟩
  · obtain ⟨x, hx, value⟩ := place.memRead_io io (encode i)
    refine ⟨x, hx, ?_, ?_, fun r opd hi => h.operand_reads hi value⟩
    · rintro r m seg dw disp b d rfl hd
      obtain ⟨u, run, loaded⟩ := h.ld_reads hd value
      exact ⟨u, run, loaded.registers, loaded.psw, loaded.reservation, loaded.system.of_io⟩
    · rintro r seg o b rfl
      obtain ⟨u, run, loaded⟩ := h.ldr_reads value
      exact ⟨u, run, loaded.dest, loaded.others, loaded.psw, loaded.reservation, loaded.system.of_io⟩
  · rintro r m seg dw disp b d rfl hd
    exact exec_st_io h place io hd
  · rintro r seg o b rfl hr
    exact exec_stc_io h place hr io
  · rintro r m seg dw disp b rfl
    obtain ⟨d, -, run⟩ := h.st_writes place
    rw [run, physWrite_absent absent]
    rfl
  · rintro r seg o b rfl hr
    obtain ⟨rfl, run⟩ := h.stc_writes place hr
    rw [run, physWrite_absent absent]
    rfl
  · rw [← absolute_toNat ea]
    refine ⟨fun io => ⟨?_, ?_⟩, fun absent => ⟨?_, ?_⟩⟩
    · obtain ⟨x, -, read⟩ := physRead_io (n := .word) io (ea.toNat / 2 ^ 14)
      obtain ⟨u, run, loaded⟩ := exec_lda_of_physRead hx hd he ha read r
      exact ⟨u, x, run, loaded.registers, loaded.psw, loaded.reservation, loaded.system.of_io⟩
    · refine ⟨_, ?_, ioWritten_modifyBase_result (absolute ea) .word (s.readGr r) m b (s.readGr b + d)⟩
      rw [exec_sta_eq hx hd he, absWrite_aligned _ _ ha, physWrite_io io]
      rfl
    · rw [exec_lda_eq hx hd he, absRead_aligned _ ha, physRead_absent absent]
      rfl
    · rw [exec_sta_eq hx hd he, absWrite_aligned _ _ ha, physWrite_absent absent]
      rfl

/-! ## The fetch -/

/-- What a step with no refused mode and no pending interrupt runs (R570). -/
theorem step_eq_fetchAndRun {s : State} (hr : s.psw.r = false) (hz : s.psw.z = false)
    (hi : s.betweenSteps.interruptPending = false) : step s = s.betweenSteps.fetchAndRun := by
  rw [step_eq hr hz, State.interruptOrRun, hi, if_neg (by decide)]

/-- The demotion does not change what a fetch sees (R148, R163). -/
theorem FetchPlace.fetchByte {s u : State} {pa : PAddr} (h : FetchPlace s pa u) (a : Nat) :
    u.fetchByte a = s.fetchByte a := by
  rcases h with ⟨-, -, rfl⟩ | ⟨-, -, e, -, -, -, -, -, rfl⟩
  · rfl
  · split <;> rfl

/-- The word fetched from memory: its four bytes, most significant first (R102, R153). -/
theorem fetchPhys_eq_of_memory {s : State} {pa : PAddr} (h : regionOf s.params pa.toNat 4 = .memory) :
    s.fetchPhys pa = .ok (wordOfBytes (s.fetchByte pa.toNat) (s.fetchByte (pa.toNat + 1)) (s.fetchByte (pa.toNat + 2))
      (s.fetchByte (pa.toNat + 3))) s := by
  unfold State.fetchPhys
  rw [h]

/-- Settles O5: the fetch reads at its place in the state after the demotion, which sees the same bytes. -/
theorem stepRunsInstruction : Obligations.StepRunsInstruction := by
  intro s u pa i hr hz hn hi hf hm decoded
  obtain ⟨un, uparams⟩ := hf.n_and_params
  rw [State.betweenSteps_psw, hn] at un
  have word := fetchPhys_eq_of_memory (s := u) (pa := pa) (by rwa [uparams, State.betweenSteps_params])
  simp only [hf.fetchByte] at word
  rw [step_eq_fetchAndRun hr hz hi, State.fetchAndRun, fetch_of_fetchPlace hf, word, Access.run, State.runFetched,
    if_neg (by simp [un]), State.runWord]
  simp only [show decode _ = .ok i from decoded]

theorem betweenSteps_noPidMatches {s : State} {seg : SegId} :
    NoPidMatches s.betweenSteps seg ↔ NoPidMatches s seg := by simp [NoPidMatches]

/-- Settles O6: the case of O5 in which the fetch goes through an entry. -/
theorem stepRunsTranslated : Obligations.StepRunsTranslated := by
  intro s i e hr hz hn hc hb hi he ht hx hp hm decoded
  refine stepRunsInstruction s _ (e.address s.psw.ofs) i hr hz hn hi (.inr ?_) hm decoded
  simp only [State.betweenSteps_psw, betweenSteps_noPidMatches]
  exact ⟨hc, by simpa [State.bypassed] using hb, e, he, ht, hx, hp, rfl, rfl⟩

/-- The cases in which a fetch through an entry fails (R148). -/
theorem fetchCheck_some {s : State} {e : TlbEntry} (h : e.ptype = .readOnly ∨ e.ptype = .readWrite ∨ e.pl1 < s.psw.x ∨
    (s.psw.p = true ∧ e.p = true ∧ NoPidMatches s s.psw.seg)) : s.fetchCheck e = some instructionProtection := by
  unfold State.fetchCheck
  rcases h with ht | ht | hx | ⟨hp, ep, noPid⟩
  · simp [ht, PageType.executable]
  · simp [ht, PageType.executable]
  · simp [hx]
  · simp [pidPasses_eq_false hp ep noPid]

/-- A fetch that traps is all that the step does. -/
theorem fetchAndRun_trap {s : State} {q : TrapReq} (h : s.fetch = .trap q) :
    ∃ t, s.fetchAndRun = .next t ∧ Trapped q s t ∧ t.readCr 18#5 = s.psw.ofs := by
  have trapped := takeTrap_trapped s q
  exact ⟨_, by rw [State.fetchAndRun, h]; rfl, trapped, trapped.savedOffset⟩

/-- Settles O10: without an entry, or with one that fails its check, the fetch traps. -/
theorem fetchTraps : Obligations.FetchTraps := by
  intro s hc hb
  have translated : s.fetchUntranslated = false := by simp [State.fetchUntranslated, hc, hb]
  refine ⟨fun he => fetchAndRun_trap ?_, fun e he h => fetchAndRun_trap ?_⟩
  · simp [State.fetch, translated, he]
  · simp [State.fetch, translated, he, fetchCheck_some h]

/-! ## The bytes of a value -/

/-- The value of two bytes, the first most significant (R101). -/
theorem bytesValue_half_toNat (f : Nat → Byte) (a : Nat) :
    (bytesValue f a .half).toNat = 256 * (f a).toNat + (f (a + 1)).toNat := by
  rw [bytesValue, BitVec.toNat_setWidth_of_le (by decide), append_toNat]
  omega

/-- The value of four bytes, the first most significant (R101). -/
theorem bytesValue_word_toNat (f : Nat → Byte) (a : Nat) : (bytesValue f a .word).toNat =
    16777216 * (f a).toNat + 65536 * (f (a + 1)).toNat + 256 * (f (a + 2)).toNat + (f (a + 3)).toNat := by
  simp only [bytesValue, wordOfBytes, append_toNat]
  omega

/-- Settles O24: the bytes of a value by their weights, and each stored byte where a data read finds it. -/
theorem multiByteValue : Obligations.MultiByteValue := by
  refine ⟨fun s a => ⟨?_, bytesValue_half_toNat s.dataByte a, bytesValue_word_toNat s.dataByte a⟩,
    fun s a n v k h hk => ?_, fun s h => ?_⟩
  · exact BitVec.toNat_setWidth_of_le (by decide)
  · rw [dataByte_setDataValue h.dataCacheOk, if_pos (by omega), Nat.add_sub_cancel_left]
    rfl
  · simp [State.dataValue, bytesValue, dataByte_setDataValue h.dataCacheOk, Width.bytes, storedByte]

/-- Settles O23: a page sees its own store; another sees it or, with visible caches, what it saw before. -/
theorem dataReadAfterWrite : Obligations.DataReadAfterWrite := by
  intro s page other pa n v h hr
  have stores := physWrite_stores h.dataCacheOk page pa n v
  have read (pg : Nat) : (s.stored page pa n v).physRead pg pa n =
      .ok ((s.stored page pa n v).viewValue pg pa.toNat n) (s.stored page pa n v) :=
    physRead_memory (by rwa [(stored_sameButMemory s page pa n v).params]) pg
  refine ⟨_, physWrite_memory hr page v, by rw [read, ← stores.seen]; rfl, stores.outside, _, read other, ?_⟩
  rw [State.stored, breakReservation_viewValue, viewValue_write h.dataCacheOk]
  split
  · exact .inl rfl
  · next hidden =>
    obtain ⟨visible, -⟩ : ¬ s.params.cacheVisible = false ∧ _ := not_or.1 hidden
    exact .inr ⟨by simpa using visible, physRead_memory hr other⟩

/-! ## Cache lines and the memory behind them -/

/-- The addresses of a line (R160). -/
theorem lineBase_eq_iff {p : Params} (hL : 0 < p.cacheLineBytes) (x a : Nat) :
    lineBase p x = lineBase p a ↔ lineBase p a ≤ x ∧ x < lineBase p a + p.cacheLineBytes := by
  constructor
  · intro h
    have position := lineBase_add_index p x
    have inside := lineIndex_lt hL x
    omega
  · rintro ⟨h1, h2⟩
    exact lineBase_of_within (lineBase_mod p a) h1 h2

section lines

variable {s : State}

theorem dataByte_transparent (hv : s.params.cacheVisible = false) (a : Nat) : s.dataByte a = memByte s.mem a := by
  simp [State.dataByte, hv]

theorem dataByte_cached (hv : s.params.cacheVisible = true) {a : Nat} {ln : DataLine}
    (hf : mapFind (lineBase s.params a) s.dc = some ln) :
    s.dataByte a = ln.data.getD (lineIndex s.params a) memDefault := by
  simp [State.dataByte, hv, hf]

theorem dataByte_uncached {a : Nat} (hf : mapFind (lineBase s.params a) s.dc = none) :
    s.dataByte a = memByte s.mem a := by
  simp [State.dataByte, hf]

/-- A line is cached only in visible caches (R161). -/
theorem Inv.visible_of_cached (h : Inv s) {k : Nat} {ln : DataLine} (hf : mapFind k s.dc = some ln) :
    s.params.cacheVisible = true := by
  by_contra hv
  rw [(h.transparent (by simpa using hv)).2] at hf
  cases hf

/-- A data read of a line that is absent or clean gives what memory holds (R164). -/
theorem dataByte_of_clean (h : Inv s) (hi : s.params.ioAgents = false) {a : Nat}
    (clean : ∀ ln, mapFind (lineBase s.params a) s.dc = some ln → ln.dirty = false) :
    s.dataByte a = memByte s.mem a := by
  cases hf : mapFind (lineBase s.params a) s.dc with
  | none => exact dataByte_uncached hf
  | some ln =>
    have hv := h.visible_of_cached hf
    rw [dataByte_cached hv hf, h.coherent hi _ (mapFind_mem hf) (clean ln hf) _ (lineIndex_lt (h.line hv) a),
      lineBase_add_index]

/-- A line set in the data cache is not visible if it holds what data reads see (R164). -/
theorem dataByte_setLine {k : Nat} {ln : DataLine} {x : Nat} (hv : s.params.cacheVisible = true)
    (same : lineBase s.params x = k → ln.data.getD (lineIndex s.params x) memDefault = s.dataByte x) :
    ({ s with dc := mapSet k ln s.dc } : State).dataByte x = s.dataByte x := by
  by_cases hx : lineBase s.params x = k
  · rw [← same hx]
    simp [State.dataByte, hv, hx, mapFind_set_same]
  · simp only [State.dataByte, mapFind_set_other hx]

/-- A line removed from the data cache is not visible at other lines (R165). -/
theorem dataByte_purgeDataLine_other {a x : Nat} (hx : lineBase s.params x ≠ lineBase s.params a) :
    (s.purgeDataLine a).dataByte x = s.dataByte x := by
  simp only [State.dataByte, State.purgeDataLine, mapFind_erase, if_neg hx]

/-- A dirty line is written back; any other is left as it is (R164). -/
theorem writeBackLine_cases (s : State) (a : Nat) :
    (∃ ln, mapFind (lineBase s.params a) s.dc = some ln ∧ ln.dirty = true ∧
      s.writeBackLine a = { s with
        mem := memSetBytes s.mem (lineBase s.params a) ln.data
        dc := mapSet (lineBase s.params a) { ln with dirty := false } s.dc }) ∨
    ((∀ ln, mapFind (lineBase s.params a) s.dc = some ln → ln.dirty = false) ∧ s.writeBackLine a = s) := by
  unfold State.writeBackLine
  cases hf : mapFind (lineBase s.params a) s.dc with
  | none => exact .inr ⟨nofun, rfl⟩
  | some ln =>
    cases hd : ln.dirty with
    | true => exact .inl ⟨ln, rfl, hd, by simp [hd]⟩
    | false => exact .inr ⟨by rintro _ ⟨⟩; exact hd, by simp [hd]⟩

/-- Memory after the bytes of a cached line were written to it (R164). -/
theorem memByte_setLine (h : Inv s) {a : Nat} {ln : DataLine} (hf : mapFind (lineBase s.params a) s.dc = some ln)
    (x : Nat) : memByte (memSetBytes s.mem (lineBase s.params a) ln.data) x =
      if lineBase s.params x = lineBase s.params a then ln.data.getD (x - lineBase s.params a) memDefault
      else memByte s.mem x := by
  have length : ln.data.length = s.params.cacheLineBytes := (h.dc.2 _ (mapFind_mem hf)).1
  simp only [memByte_setBytes, length, lineBase_eq_iff (h.line (h.visible_of_cached hf))]

/-- A write-back is not visible to data reads (R164). -/
theorem dataByte_writeBackLine (h : Inv s) (a x : Nat) : (s.writeBackLine a).dataByte x = s.dataByte x := by
  rcases writeBackLine_cases s a with ⟨ln, hf, -, written⟩ | ⟨-, unchanged⟩
  · have hv := h.visible_of_cached hf
    rw [written]
    by_cases hx : lineBase s.params x = lineBase s.params a
    · rw [← hx] at hf ⊢
      rw [dataByte_cached hv hf]
      simp [State.dataByte, hv, mapFind_set_same]
    · have memory := memByte_setLine h hf x
      rw [if_neg hx] at memory
      simp only [State.dataByte, mapFind_set_other hx, memory]
  · rw [unchanged]

/-- After a write-back memory holds what data reads saw in the line (R164, R165). -/
theorem memByte_writeBackLine (h : Inv s) (hi : s.params.ioAgents = false) {a x : Nat}
    (hx : lineBase s.params x = lineBase s.params a) : memByte (s.writeBackLine a).mem x = s.dataByte x := by
  rcases writeBackLine_cases s a with ⟨ln, hf, -, written⟩ | ⟨clean, unchanged⟩
  · have position : x - lineBase s.params a = lineIndex s.params x := by
      have := lineBase_add_index s.params x
      omega
    rw [written, memByte_setLine h hf, if_pos hx, position, dataByte_cached (h.visible_of_cached hf) (hx ▸ hf)]
  · rw [unchanged, dataByte_of_clean h hi (hx ▸ clean)]

/-- No action of the cache hardware is visible to data reads (R164). -/
theorem dataByte_cacheAction (h : Inv s) (hv : s.params.cacheVisible = true) (hi : s.params.ioAgents = false)
    (act : Config.CacheAction) (x : Nat) : (s.cacheAction act).dataByte x = s.dataByte x := by
  cases act with
  | fillInstr a =>
    unfold State.cacheAction
    dsimp only
    split <;> rfl
  | fillData a =>
    unfold State.cacheAction
    dsimp only
    split
    · next absent =>
      refine dataByte_setLine hv fun hx => ?_
      rw [dataByte_uncached (hx ▸ absent.2), getD_lineFromMem _ _ (lineIndex_lt (h.line hv) x), ← hx, lineBase_add_index]
    · rfl
  | writeBack a => exact dataByte_writeBackLine h a x
  | dropData a =>
    unfold State.cacheAction
    dsimp only
    split
    · next ln hf =>
      split
      · rfl
      · next clean =>
        by_cases hx : lineBase s.params x = lineBase s.params a
        · rw [dataByte_of_clean h hi (by rw [hx, hf]; rintro _ ⟨⟩; simpa using clean)]
          exact dataByte_uncached (by simp [State.purgeDataLine, mapFind_erase, hx])
        · exact dataByte_purgeDataLine_other hx
    · rfl
  | dropInstr a => rfl

theorem dataByte_runCacheActions (h : Inv s) (hv : s.params.cacheVisible = true) (hi : s.params.ioAgents = false)
    (l : List Config.CacheAction) (x : Nat) : (s.runCacheActions l).dataByte x = s.dataByte x := by
  induction l generalizing s with
  | nil => rfl
  | cons act l ih =>
    rw [State.runCacheActions, ih (h.cacheAction hv act) (by simpa using hv) (by simpa using hi),
      dataByte_cacheAction h hv hi]

end lines

/-- Settles O25: no action is visible to data reads, and none touches the record of stores. -/
theorem cacheHardwareInvisible : Obligations.CacheHardwareInvisible := by
  intro s l page a h hv hi
  have data := dataByte_runCacheActions h hv hi l
  exact ⟨data a, by simp [State.viewByte, data]⟩

/-! ## PCA -/

section purgeCache

variable {s : State}

theorem purgeCache_transparent (hv : s.params.cacheVisible = false) (tf f : Bool) (pa : Nat) :
    s.purgeCache tf f pa = s := by simp [State.purgeCache, hv]

theorem purgeCache_instr (hv : s.params.cacheVisible = true) (f : Bool) (pa : Nat) :
    s.purgeCache false f pa = s.purgeInstrLine pa := by simp [State.purgeCache, hv]

theorem purgeCache_data (hv : s.params.cacheVisible = true) (f : Bool) (pa : Nat) :
    s.purgeCache true f pa = (if f then s.writeBackLine pa else s).purgeDataLine pa := by
  cases f <;> simp [State.purgeCache, hv]

theorem writeBackLine_dc_other (s : State) (a : Nat) {k : Nat} (hk : k ≠ lineBase s.params a) :
    mapFind k (s.writeBackLine a).dc = mapFind k s.dc := by
  rcases writeBackLine_cases s a with ⟨ln, -, -, written⟩ | ⟨-, unchanged⟩
  · rw [written]
    exact mapFind_set_other hk _ _
  · rw [unchanged]

/-- The line leaves the data cache, every other line stays (R165). -/
theorem purgeCache_dc (hv : s.params.cacheVisible = true) (f : Bool) (pa k : Nat) :
    mapFind k (s.purgeCache true f pa).dc = if k = lineBase s.params pa then none else mapFind k s.dc := by
  rw [purgeCache_data hv, State.purgeDataLine, mapFind_erase]
  cases f with
  | false => rfl
  | true =>
    simp only [if_true, State.writeBackLine_params]
    split
    · rfl
    · next hk => exact writeBackLine_dc_other s pa hk

theorem purgeCache_data_ic (hv : s.params.cacheVisible = true) (f : Bool) (pa : Nat) :
    (s.purgeCache true f pa).ic = s.ic := by
  rw [purgeCache_data hv]
  cases f <;> simp

/-- Without a write-back memory stays as it was (R165). -/
theorem purgeCache_data_mem (hv : s.params.cacheVisible = true) {f : Bool} {pa : Nat}
    (h : f = false ∨ ∀ ln, mapFind (lineBase s.params pa) s.dc = some ln → ln.dirty = false) :
    (s.purgeCache true f pa).mem = s.mem := by
  rw [purgeCache_data hv, State.purgeDataLine]
  cases f with
  | false => rfl
  | true =>
    have clean := h.resolve_left (by decide)
    rcases writeBackLine_cases s pa with ⟨ln, hf, dirty, -⟩ | ⟨-, unchanged⟩
    · rw [clean ln hf] at dirty
      cases dirty
    · simp [unchanged]

/-- A dirty line that is flushed is in memory (R165). -/
theorem purgeCache_flush_mem (h : Inv s) {pa : Nat} {ln : DataLine}
    (hf : mapFind (lineBase s.params pa) s.dc = some ln) (dirty : ln.dirty = true) (x : Nat) :
    memByte (s.purgeCache true true pa).mem x =
      if lineBase s.params x = lineBase s.params pa then ln.data.getD (x - lineBase s.params pa) memDefault
      else memByte s.mem x := by
  rw [purgeCache_data (h.visible_of_cached hf), ← memByte_setLine h hf]
  simp [State.purgeDataLine, State.writeBackLine, hf, dirty]

/-- Data reads of other lines do not see the purge (R165). -/
theorem purgeCache_dataByte_other (h : Inv s) (hv : s.params.cacheVisible = true) (f : Bool) {pa x : Nat}
    (hx : lineBase s.params x ≠ lineBase s.params pa) : (s.purgeCache true f pa).dataByte x = s.dataByte x := by
  rw [purgeCache_data hv]
  cases f with
  | false => exact dataByte_purgeDataLine_other hx
  | true =>
    rw [← dataByte_writeBackLine h pa x]
    exact dataByte_purgeDataLine_other (by simpa using hx)

end purgeCache

/-- Settles O26: the flush leaves in memory what data reads saw, and without its line the fetch reads memory. -/
theorem flushThenPurgeIsCoherent : Obligations.FlushThenPurgeIsCoherent := by
  intro s pa a h hi hline
  cases hv : s.params.cacheVisible with
  | false =>
    rw [purgeCache_transparent hv, purgeCache_transparent hv, dataByte_transparent hv]
    simp [State.fetchByte, hv]
  | true =>
    rw [purgeCache_instr (by simpa using hv), ← memByte_writeBackLine h hi hline, purgeCache_data hv]
    simp [State.fetchByte, State.purgeInstrLine, State.purgeDataLine, hv, mapFind_erase, hline]

/-- The address PCA acts on (R474). -/
theorem cacheAddress_ok {s : State} {tf : Bool} {sid : SegId} {ea : Word} {pa : PAddr}
    (h : ((if tf then s.psw.d else s.psw.c) = false ∨ s.bypassed sid = true) ∧ pa = ea.setWidth 34 ∨
      ((if tf then s.psw.d else s.psw.c) = true ∧ s.bypassed sid = false ∧
        ∃ e, tlbFind (if tf then s.dtlb else s.itlb) sid ea = some e ∧ pa = e.ppn ++ ea.extractLsb' 0 14)) :
    s.cacheAddress tf sid ea = .ok pa := by
  unfold State.cacheAddress
  rcases h with ⟨off, rfl⟩ | ⟨on, hb, e, he, rfl⟩
  · rw [if_pos (by simpa using off)]
    rfl
  · rw [if_neg (by simp [on, hb]), he]
    rfl

/-- PCA without a translation (R474). -/
theorem cacheAddress_miss {s : State} {tf : Bool} {sid : SegId} {ea : Word}
    (on : (if tf then s.psw.d else s.psw.c) = true) (hb : s.bypassed sid = false)
    (he : tlbFind (if tf then s.dtlb else s.itlb) sid ea = none) : s.cacheAddress tf sid ea =
      .error (if tf then nonAccessDataTlbMiss else nonAccessInstructionTlbMiss) := by
  unfold State.cacheAddress
  rw [if_neg (by simp [on, hb]), he]

section pca

variable {s : State} {tf m f : Bool} {seg : BitVec 2} {a b : GReg} {ea : Word} {sid : SegId}
  (hx : s.psw.x = 0#1) (he : AccessOffset s m b (s.readGr a) ea) (hs : SegmentOf s seg ea sid)
include hx he hs

/-- PCA in privileged mode, with an address (R474). -/
theorem exec_pca_eq {pa : PAddr} (hc : s.cacheAddress tf sid ea = .ok pa) :
    exec (.pca tf m seg f a b) s =
      .next ((s.purgeCache tf f pa.toNat).modifyBase m b (s.readGr b + s.readGr a)).advance := by
  simp only [exec, execPca, ifPrivileged_of_privileged hx, he.eq, hs.eq, hc]
  rfl

theorem exec_pca_trap {q : TrapReq} (hc : s.cacheAddress tf sid ea = .error q) :
    exec (.pca tf m seg f a b) s = .next (s.takeTrap q) := by
  simp only [exec, execPca, ifPrivileged_of_privileged hx, he.eq, hs.eq, hc, raise_eq]

end pca

/-- Settles O58: what purging does to the caches and memory, and the base written after it. -/
theorem purgeCacheLine : Obligations.PurgeCacheLine := by
  intro s tf m seg f a b ea sid hx he hs
  refine ⟨?_, fun on hb miss => ⟨_, exec_pca_trap hx he hs (cacheAddress_miss on hb miss), takeTrap_trapped s _⟩⟩
  rintro pa base hpa rfl
  have data (x : Nat) := (modifyBase_advance_system (s.purgeCache tf f pa.toNat) m b (s.readGr b + s.readGr a)).data x
  refine ⟨_, exec_pca_eq hx he hs (cacheAddress_ok hpa), modifyBase_advance_result (by simp) m b _,
    modifyBase_advance_psw (by simp) m b _, by simp, by constructor <;> simp [State.dataByte], fun hv => ?_,
    fun hv htf => ?_, fun hv htf => ?_⟩
  · simp [purgeCache_transparent hv]
  · subst htf
    simp only [data, State.advance_ic, State.modifyBase_ic, State.advance_dc, State.modifyBase_dc, State.advance_mem,
      State.modifyBase_mem]
    refine ⟨purgeCache_data_ic hv f _, purgeCache_dc hv f _, fun h x => purgeCache_dataByte_other h hv f,
      fun hf => purgeCache_data_mem hv (.inl hf), fun clean => purgeCache_data_mem hv (.inr clean), ?_⟩
    rintro rfl h ln hf dirty
    exact purgeCache_flush_mem h hf dirty
  · subst htf
    simp [purgeCache_instr hv, State.purgeInstrLine, mapFind_erase]

/-! ## Access rights -/

section writeAllowed

variable {e : TlbEntry} (pl : Level)

theorem writeAllowed_readOnly (h : e.ptype = .readOnly) : e.writeAllowed pl = false := by
  simp [TlbEntry.writeAllowed, h]

theorem writeAllowed_readWrite (h : e.ptype = .readWrite) : e.writeAllowed pl = true ↔ pl ≤ e.pl2 := by
  simp [TlbEntry.writeAllowed, h]

/-- Pages of code are written in privileged mode only (R146). -/
theorem writeAllowed_code (h : e.ptype = .execute ∨ e.ptype = .gateway) : e.writeAllowed pl = true ↔ pl = 0#1 := by
  rcases h with h | h <;> simp [TlbEntry.writeAllowed, h]

end writeAllowed

/-- The page type of an ITLB argument word (R145, R465). -/
theorem ofArgument_ptype {w : Word} {t : BitVec 2} (h : w.extractLsb' 22 2 = t) :
    (TlbEntry.ofArgument w).ptype = PageType.ofBits t := congrArg PageType.ofBits h

/-- Settles O27: reads by PL1; writes by the page type, and by PL2 where it is read-write. -/
theorem accessRights : Obligations.AccessRights := fun _ pl =>
  ⟨readAllowed_iff _ pl, fun h => writeAllowed_readOnly pl (ofArgument_ptype h),
    fun h => writeAllowed_readWrite pl (ofArgument_ptype h), fun h => writeAllowed_code pl (.inl (ofArgument_ptype h)),
    fun h => writeAllowed_code pl (.inr (ofArgument_ptype h))⟩

/-! ## LDPA and PRB -/

section query

variable {s : State} {r a b : GReg} {seg : BitVec 2} {sid : SegId}

/-- LDPA where data is not translated (R460). -/
theorem exec_ldpa_untranslated (hx : s.psw.x = 0#1) (hs : SegmentOf s seg (s.readGr b + s.readGr a) sid)
    (off : s.psw.d = false ∨ s.bypassed sid = true) :
    exec (.ldpa r seg a b) s = .next (s.writeGr r (s.readGr b + s.readGr a)).advance := by
  have off : (!s.psw.d || s.bypassed sid) = true := by simpa using off
  simp only [exec, execLdpa, ifPrivileged_of_privileged hx, hs.eq, off, if_true]

/-- LDPA through an entry (R460). -/
theorem exec_ldpa_entry (hx : s.psw.x = 0#1) (hs : SegmentOf s seg (s.readGr b + s.readGr a) sid)
    (hd : s.psw.d = true) (hb : s.bypassed sid = false) {e : TlbEntry}
    (he : tlbFind s.dtlb sid (s.readGr b + s.readGr a) = some e) : exec (.ldpa r seg a b) s =
      .next (s.writeGr r ((e.address (s.readGr b + s.readGr a)).setWidth 32)).advance := by
  simp [exec, execLdpa, ifPrivileged_of_privileged hx, hs.eq, hd, hb, he]

/-- LDPA without an entry (R460). -/
theorem exec_ldpa_miss (hx : s.psw.x = 0#1) (hs : SegmentOf s seg (s.readGr b + s.readGr a) sid)
    (hd : s.psw.d = true) (hb : s.bypassed sid = false) (he : tlbFind s.dtlb sid (s.readGr b + s.readGr a) = none) :
    exec (.ldpa r seg a b) s = .next (s.takeTrap nonAccessDataTlbMiss) := by
  simp [exec, execLdpa, ifPrivileged_of_privileged hx, hs.eq, hd, hb, he, raise_eq]

variable {w i : Bool}

/-- PRB in a bypassed segment (R462). -/
theorem exec_prb_bypassed (hs : SegmentOf s seg (s.readGr b) sid) (hb : s.bypassed sid = true) :
    exec (.prb r w i seg a b) s = .next (s.writeGr r 1#32).advance := by
  simp [exec, execPrb, hs.eq, hb]

/-- PRB through an entry, at the level asked for (R462). -/
theorem exec_prb_entry {pl : Level} (hs : SegmentOf s seg (s.readGr b) sid)
    (hp : pl.toNat = if i then a.toNat % 2 else (s.readGr a).toNat % 2) (hb : s.bypassed sid = false) {e : TlbEntry}
    (he : tlbFind s.dtlb sid (s.readGr b) = some e) :
    exec (.prb r w i seg a b) s = .next (s.writeGr r (ofTest (s.probe e w pl sid))).advance := by
  have level : (if i then a.setWidth 1 else bits (s.readGr a) 0 1) = pl := BitVec.eq_of_toNat_eq (by
    rw [hp]
    cases i <;> simp [bits])
  simp only [exec, execPrb, hs.eq, hb, he, level]
  rfl

/-- PRB without an entry (R462). -/
theorem exec_prb_miss (hs : SegmentOf s seg (s.readGr b) sid) (hb : s.bypassed sid = false)
    (he : tlbFind s.dtlb sid (s.readGr b) = none) :
    exec (.prb r w i seg a b) s = .next (s.takeTrap nonAccessDataTlbMiss) := by
  simp [exec, execPrb, hs.eq, hb, he, raise_eq]

end query

/-- A test written as a word is one where it holds, and otherwise zero. -/
theorem ofTest_spec (c : Bool) : (ofTest c = 1#32 ∨ ofTest c = 0#32) ∧ (ofTest c = 1#32 ↔ c = true) := by
  cases c <;> decide

/-- What PRB tests (R462). -/
theorem probe_iff (s : State) (e : TlbEntry) (w : Bool) (pl : Level) (sid : SegId) : s.probe e w pl sid = true ↔
    (if w then e.writeAllowed pl else e.readAllowed pl) = true ∧
      ¬ (s.psw.p = true ∧ e.p = true ∧ NoPidMatches s sid) := by
  rw [State.probe, Bool.and_eq_true, pidPasses_iff]
  tauto

/-- The low 32 bits of the physical address of a translation (R133, R460). -/
theorem address_low (e : TlbEntry) (x : Word) :
    (e.address x).setWidth 32 = BitVec.ofNat 32 (e.ppn.toNat * 2 ^ 14 + x.toNat % 2 ^ 14) := by
  rw [← address_toNat]
  rfl

/-- Settles O56: LDPA and PRB by whether the address is translated and whether an entry is there. -/
theorem queryTranslation : Obligations.QueryTranslation := by
  refine ⟨?_, fun s r w i seg a b sid pl hs hp => ⟨fun hb => ?_, fun e hb he => ?_, fun hb he => ?_⟩⟩
  · rintro s r seg a b x sid hx rfl hs
    refine ⟨fun off => ?_, fun e hd hb he => ?_, fun hd hb he => ?_⟩
    · exact ⟨_, exec_ldpa_untranslated hx hs off, writeGr_advance_result s r _⟩
    · rw [← address_low]
      exact ⟨_, exec_ldpa_entry hx hs hd hb he, writeGr_advance_result s r _⟩
    · exact ⟨_, exec_ldpa_miss hx hs hd hb he, takeTrap_trapped s _⟩
  · exact ⟨_, exec_prb_bypassed hs hb, writeGr_advance_result s r _⟩
  · obtain ⟨values, one⟩ := ofTest_spec (s.probe e w pl sid)
    exact ⟨_, _, exec_prb_entry hs hp hb he, writeGr_advance_result s r _, values, one.trans (probe_iff s e w pl sid)⟩
  · exact ⟨_, exec_prb_miss hs hb he, takeTrap_trapped s _⟩

/-! ## ITLB and PTLB -/

/-- A look-up after a valid entry was inserted (R141, R466). -/
theorem tlbFind_mapSet {e : TlbEntry} (he : e.v = true) (tlb : List (Nat × TlbEntry)) (seg sg : SegId) (ofs x : Word) :
    tlbFind (mapSet (vpn seg ofs) e tlb) sg x =
      if sg = seg ∧ x.toNat / 2 ^ 14 = ofs.toNat / 2 ^ 14 then some e else tlbFind tlb sg x := by
  unfold tlbFind
  simp only [mapFind_set, vpn_eq_iff]
  by_cases same : sg = seg ∧ x.toNat / 2 ^ 14 = ofs.toNat / 2 ^ 14
  · simp only [if_pos same, he, if_true]
  · simp only [if_neg same]

/-- A look-up after an entry was removed (R141, R470). -/
theorem tlbFind_mapErase (tlb : List (Nat × TlbEntry)) (seg sg : SegId) (ofs x : Word) :
    tlbFind (mapErase (vpn seg ofs) tlb) sg x =
      if sg = seg ∧ x.toNat / 2 ^ 14 = ofs.toNat / 2 ^ 14 then none else tlbFind tlb sg x := by
  unfold tlbFind
  simp only [mapFind_erase, vpn_eq_iff]
  by_cases same : sg = seg ∧ x.toNat / 2 ^ 14 = ofs.toNat / 2 ^ 14
  · simp only [if_pos same]
  · simp only [if_neg same]

/-- A TLB edited: the data TLB or the instruction TLB (R466, R470). -/
def State.editTlb (s : State) (data : Bool) (f : List (Nat × TlbEntry) → List (Nat × TlbEntry)) : State :=
  if data then { s with dtlb := f s.dtlb } else { s with itlb := f s.itlb }

section editTlb

variable (s : State) (tf : Bool) (f : List (Nat × TlbEntry) → List (Nat × TlbEntry))

@[simp] theorem State.editTlb_gr : (s.editTlb tf f).gr = s.gr := by cases tf <;> rfl

@[simp] theorem State.editTlb_psw : (s.editTlb tf f).psw = s.psw := by cases tf <;> rfl

@[simp] theorem State.editTlb_reservation : (s.editTlb tf f).reservation = s.reservation := by cases tf <;> rfl

/-- After an edit of a TLB, the base written and the offset advanced: nothing else changes. -/
theorem editTlb_modifyBase_result (m : Bool) (b : GReg) (upd : Word) :
    let t := ((s.editTlb tf f).modifyBase m b upd).advance
    BaseResult m b upd s t ∧ t.psw = s.psw.next ∧ t.reservation = s.reservation ∧
      SameSystem s { t with itlb := s.itlb, dtlb := s.dtlb } ∧
      (if tf then t.itlb else t.dtlb) = (if tf then s.itlb else s.dtlb) ∧
      (if tf then t.dtlb else t.itlb) = f (if tf then s.dtlb else s.itlb) := by
  refine ⟨modifyBase_advance_result (by simp) m b upd, modifyBase_advance_psw (by simp) m b upd, by simp, ?_, ?_, ?_⟩
  · cases tf <;> constructor <;> simp [State.editTlb, State.dataByte]
  · cases tf <;> simp [State.editTlb]
  · cases tf <;> simp [State.editTlb]

end editTlb

/-- ITLB in privileged mode; it has no base to write (R466). -/
theorem exec_itlb_eq {s : State} (hx : s.psw.x = 0#1) (r : GReg) (tf : Bool) (a : BitVec 3) (b : GReg) :
    exec (.itlb r tf a b) s =
      .next ((s.editTlb tf (mapSet (vpn (s.readSr a) (s.readGr b)) (TlbEntry.ofArgument (s.readGr r)))).modifyBase
        false b 0#32).advance := by
  simp only [exec, execItlb, ifPrivileged_of_privileged hx]
  cases tf <;> rfl

/-- PTLB in privileged mode (R470). -/
theorem exec_ptlb_eq {s : State} {m : Bool} {seg : BitVec 2} {a b : GReg} {ea : Word} {sid : SegId}
    (hx : s.psw.x = 0#1) (he : AccessOffset s m b (s.readGr a) ea) (hs : SegmentOf s seg ea sid) (tf : Bool) :
    exec (.ptlb tf m seg a b) s =
      .next ((s.editTlb tf (mapErase (vpn sid ea))).modifyBase m b (s.readGr b + s.readGr a)).advance := by
  simp only [exec, execPtlb, ifPrivileged_of_privileged hx, he.eq, hs.eq]
  rfl

/-- Settles O57: both edit the TLB addressed at one page. -/
theorem editTranslations : Obligations.EditTranslations := by
  refine ⟨fun s r tf a b hx => ?_, fun s tf m seg a b ea sid hx he hs => ?_⟩
  · obtain ⟨base, psw, reservation, system, other, edited⟩ := editTlb_modifyBase_result s tf
      (mapSet (vpn (s.readSr a) (s.readGr b)) (TlbEntry.ofArgument (s.readGr r))) false b 0#32
    refine ⟨_, exec_itlb_eq hx r tf a b, fun k _ => ?_, psw, reservation, system, other, fun seg x => ?_⟩
    · by_cases hk : k = b
      · rw [hk, base.kept rfl]
      · exact base.others k (by simpa using hk)
    · rw [edited, tlbFind_mapSet rfl]
  · obtain ⟨base, psw, reservation, system, other, edited⟩ := editTlb_modifyBase_result s tf (mapErase (vpn sid ea)) m b
      (s.readGr b + s.readGr a)
    exact ⟨_, exec_ptlb_eq hx he hs tf, base, psw, reservation, system, other,
      fun sg x => by rw [edited, tlbFind_mapErase]⟩

end Sys2Proof.Machine

/-!
PROOFS. Sys2Proof/Proofs/Encoding.lean: the statements that rest on 30_encoding.md: decoder and encoder agree both ways,
since the fields of a word tile it; what becomes of the words that are no instruction; the bits of a deposited field.
-/

namespace Sys2Proof

open Machine

/-! ## Decoding an encoding -/

/-- The operand field is read below the fields placed to its left. -/
theorem decodeOperand_put_or {n lo : Nat} (h : 20 ≤ lo) (x : BitVec n) (w : Word) :
    decodeOperand (put lo x ||| w) = decodeOperand w := by
  simp (disch := omega) only [decodeOperand, dwOf, aOf, bOf, bits_or, bits_put_above, BitVec.zero_or]

theorem decodeOperand_encodeOperand (opd : Operand) : decodeOperand (encodeOperand opd) = .ok opd := by
  cases opd <;>
    simp (disch := omega) [encodeOperand, decodeOperand, dwOf, aOf, bOf, reservedOk, trapElseReservedOk, bits_put_same,
      bits_put_above, bits_put_below]

/-- An operand stays within its 20 bits. -/
theorem bits_encodeOperand (opd : Operand) {lo n : Nat} (h : 20 ≤ lo) : bits (encodeOperand opd) lo n = 0#n := by
  cases opd <;> simp (disch := omega) [encodeOperand, bits_put_below]

theorem bitAt_encodeOperand (opd : Operand) {i : Nat} (h : 20 ≤ i) : bitAt (encodeOperand opd) i = false := by
  simp [bitAt_eq_bits, bits_encodeOperand opd h]

@[simp] theorem getElem_bit (c : Bool) : (bit c)[0] = c := by cases c <;> rfl

/-- By the shape of the word: its fields in fixed places, one part with several forms, the operand format, or a
displacement. -/
theorem decode_encode (i : Instr) : decode (encode i) = .ok i := by
  rw [decode, Laws.encode_opcode]
  cases i with
  | brk | ldil | addil | ldo | lsid | extr | dsr | shla | cmr | ds | b | gate | br | bv | be | bve | cbr | cbru | ldr
  | stc | ldpa | prb | itlb | ptlb | pca | diag | rfi =>
    simp (disch := omega) [Laws.opcodeOf, decodeOp, encode, opc, rOf, aOf, bOf, segOfWord, dwOf, reservedOk,
      trapElseReservedOk, bits_put_same, bits_put_above, bits_put_below, bitAt_put_bit, bitAt_put_outside]
  | dep _ _ _ _ _ part | mr _ _ part | mst _ part =>
    cases part <;>
      simp (disch := omega) [Laws.opcodeOf, decodeOp, encode, opc, rOf, bOf, reservedOk, trapElseReservedOk, encodeDepSrc,
        encodeSysReg, decodeSysReg, sysRegReservedOk, encodeMstArg, decodeMstArg, bitAt_eq_bits, bits_put_same,
        bits_put_above, bits_put_below]
  | add | adc | sub | sbc | and | or | xor | cmp | cmpu =>
    simp (disch := omega) [Laws.opcodeOf, decodeOp, encode, opc, rOf, Decoded.map, BitVec.or_assoc, decodeOperand_put_or,
      decodeOperand_encodeOperand, bits_encodeOperand, bitAt_encodeOperand, bits_put_same, bits_put_above, bits_put_below,
      bitAt_put_bit, bitAt_put_outside]
  | ld _ _ _ _ disp | st _ _ _ _ disp | lda _ _ disp | sta _ _ disp =>
    cases disp <;>
      simp (disch := omega) [Laws.opcodeOf, decodeOp, encode, opc, rOf, aOf, bOf, segOfWord, dwOf, reservedOk,
        trapElseReservedOk, encodeDisp, decodeDisp, dispReservedOk, bitAt_eq_bits, bits_put_same, bits_put_above,
        bits_put_below]

/-- Settles O1, instruction by instruction: every field is read where it was placed. -/
theorem decodeEncode : Obligations.DecodeEncode := decode_encode

/-! ## Words as rows of fields -/

/-- The fields, from the left, each by the weight of its lowest bit and its width, tile the low `hi` bits of a word. -/
def tiles : Nat → List (Nat × Nat) → Bool
  | hi, [] => hi == 0
  | hi, (lo, n) :: fields => lo + n == hi && tiles lo fields

theorem bits_eq_of_tiles {v w : Word} {hi : Nat} (fields : List (Nat × Nat))
    (h : ∀ f ∈ fields, bits v f.1 f.2 = bits w f.1 f.2) (ht : tiles hi fields = true := by decide) :
    bits v 0 hi = bits w 0 hi := by
  induction fields generalizing hi with
  | nil =>
    obtain rfl : hi = 0 := by simpa [tiles] using ht
    exact Subsingleton.elim _ _
  | cons f fields ih =>
    obtain ⟨lo, n⟩ := f
    obtain ⟨rfl, below⟩ : lo + n = hi ∧ tiles lo fields = true := by simpa [tiles] using ht
    obtain ⟨head, tail⟩ := List.forall_mem_cons.1 h
    refine BitVec.eq_of_getLsbD_eq fun i hi => ?_
    by_cases hl : i < lo
    · have hb := congrArg (BitVec.getLsbD · i) (ih tail below)
      simpa [bits, hl, hi] using hb
    · have hb := congrArg (BitVec.getLsbD · (i - lo)) head
      simpa [bits, hi, show i - lo < n by omega, show lo + (i - lo) = i by omega] using hb

/-- Two words that agree in every field of a layout are the same word. -/
theorem eq_of_tiles {v w : Word} (fields : List (Nat × Nat)) (h : ∀ f ∈ fields, bits v f.1 f.2 = bits w f.1 f.2)
    (ht : tiles 32 fields = true := by decide) : v = w := by
  simpa [bits] using bits_eq_of_tiles fields h ht

/-- A field of one bit, in the spelling of `bitAt`. -/
@[simp] theorem bits_one_inj {v w : Word} {i : Nat} : bits v i 1 = bits w i 1 ↔ bitAt v i = bitAt w i := by
  have one : ∀ x y : BitVec 1, x = y ↔ x.getLsbD 0 = y.getLsbD 0 := by decide
  rw [bitAt_eq_bits, bitAt_eq_bits, one]

/-! ## Words that decode to an instruction -/

theorem reservedOk_eq_ok {α : Type} {ok : Bool} {a b : α} : reservedOk ok a = .ok b ↔ ok = true ∧ a = b := by
  cases ok <;> simp [reservedOk]

theorem trapElseReservedOk_eq_ok {α : Type} {traps ok : Bool} {a b : α} :
    trapElseReservedOk traps ok a = .ok b ↔ ok = true ∧ a = b := by
  cases ok <;> cases traps <;> simp [trapElseReservedOk]

theorem Decoded.map_eq_ok {α β : Type} {f : α → β} {d : Decoded α} {b : β} :
    d.map f = .ok b ↔ ∃ a, d = .ok a ∧ f a = b := by
  cases d <;> simp [Decoded.map]

/-- XOR with its reserved bit set is no instruction (R241, R242). -/
theorem ite_reject_eq_ok {α : Type} {p q : Prop} [Decidable p] [Decidable q] {d : Decoded α} {a : α} :
    (if p then (if q then .illegal else .undefined) else d) = .ok a ↔ ¬ p ∧ d = .ok a := by
  split
  · split <;> simp [*]
  · simp [*]

/-- A word decodes to an instruction of its own opcode (R235). -/
theorem opcodeOf_of_decodeOp {op : BitVec 6} {w : Word} {i : Instr} (h : decodeOp op w = .ok i) :
    Laws.opcodeOf i = op := by
  unfold decodeOp at h
  split at h <;>
    simp only [reservedOk_eq_ok, trapElseReservedOk_eq_ok, Decoded.map_eq_ok, ite_reject_eq_ok, Decoded.ok.injEq,
      reduceCtorEq] at h <;>
    aesop

/-- A field of two bits has one of four values. -/
theorem two_bits (m : BitVec 2) : m = 0#2 ∨ m = 1#2 ∨ m = 2#2 ∨ m = 3#2 := by
  revert m
  decide

theorem decodeOperand_eq_ok {w : Word} {opd : Operand} : decodeOperand w = .ok opd ↔
    bits w 18 2 = 0#2 ∧ .imm (bits w 0 18) = opd ∨
    bits w 18 2 = 1#2 ∧ bits w 8 10 = 0#10 ∧ .reg (aOf w) (bOf w) = opd ∨
    bits w 18 2 = 2#2 ∧ bits w 8 8 = 0#8 ∧ .indexed (dwOf w) (aOf w) (bOf w) = opd ∨
    bits w 18 2 = 3#2 ∧ .offset (dwOf w) (bits w 4 12) (bOf w) = opd := by
  unfold decodeOperand
  rcases two_bits (bits w 18 2) with h | h | h | h <;> simp [h, reservedOk_eq_ok, trapElseReservedOk_eq_ok]

/-- The operand field is determined by the operand. -/
theorem decodeOperand_inj {v w : Word} {opd : Operand} (hv : decodeOperand v = .ok opd) (hw : decodeOperand w = .ok opd) :
    bits v 0 20 = bits w 0 20 := by
  cases opd <;> simp [decodeOperand_eq_ok, dwOf, aOf, bOf] at hv hw
  case imm => exact bits_eq_of_tiles [(18, 2), (0, 18)] (by simp [hv, hw])
  case reg => exact bits_eq_of_tiles [(18, 2), (8, 10), (4, 4), (0, 4)] (by simp [hv, hw])
  case indexed => exact bits_eq_of_tiles [(18, 2), (16, 2), (8, 8), (4, 4), (0, 4)] (by simp [hv, hw])
  case offset => exact bits_eq_of_tiles [(18, 2), (16, 2), (4, 12), (0, 4)] (by simp [hv, hw])

/-- The form bit and the low half of a memory reference are determined by its displacement and its base. -/
theorem decodeDisp_inj {v w : Word} {disp : Disp} (hv : dispReservedOk v = true) (hw : dispReservedOk w = true)
    (dv : decodeDisp v = disp) (dw : decodeDisp w = disp) (hb : bits v 0 4 = bits w 0 4) :
    bitAt v 21 = bitAt w 21 ∧ bits v 0 16 = bits w 0 16 := by
  subst dv
  unfold decodeDisp aOf at dw
  unfold dispReservedOk at hv hw
  cases h : bitAt v 21 <;> cases h' : bitAt w 21 <;> simp [h, h'] at hv hw dw
  · exact ⟨rfl, bits_eq_of_tiles [(4, 12), (0, 4)] (by simp [dw, hb])⟩
  · exact ⟨rfl, bits_eq_of_tiles [(8, 8), (4, 4), (0, 4)] (by simp [hv, hw, dw, hb])⟩

/-- The bit M and the field s of MR are determined by the register they name. -/
theorem decodeSysReg_inj {v w : Word} {reg : SysReg} (hv : sysRegReservedOk v = true) (hw : sysRegReservedOk w = true)
    (sv : decodeSysReg v = reg) (sw : decodeSysReg w = reg) : bitAt v 20 = bitAt w 20 ∧ bits v 0 6 = bits w 0 6 := by
  subst sv
  unfold decodeSysReg at sw
  unfold sysRegReservedOk at hv hw
  cases h : bitAt v 20 <;> cases h' : bitAt w 20 <;> simp [h, h'] at hv hw sw
  · exact ⟨rfl, bits_eq_of_tiles [(3, 3), (0, 3)] (by simp [hv, hw, sw])⟩
  · exact ⟨rfl, bits_eq_of_tiles [(5, 1), (0, 5)] (by simp [hv, hw, sw])⟩

theorem decodeMstArg_eq {w : Word} {arg : MstArg} : decodeMstArg w = arg ↔
    bits w 20 2 = 0#2 ∧ .reg (bOf w) = arg ∨ bits w 20 2 = 1#2 ∧ .set (bOf w) = arg ∨
    bits w 20 2 = 2#2 ∧ .clear (bOf w) = arg ∨ bits w 20 2 = 3#2 ∧ .undefined (bOf w) = arg := by
  unfold decodeMstArg
  rcases two_bits (bits w 20 2) with h | h | h | h <;> simp [h]

/-- The mode and the low field of MST are determined by its argument. -/
theorem decodeMstArg_inj {v w : Word} {arg : MstArg} (hv : decodeMstArg v = arg) (hw : decodeMstArg w = arg) :
    bits v 20 2 = bits w 20 2 ∧ bits v 0 4 = bits w 0 4 := by
  cases arg <;> simp [decodeMstArg_eq, bOf] at hv hw <;> simp [hv, hw]

/-- The bit I and the low field of DEP are determined by its source. -/
theorem depSrc_inj {c d : Bool} {x y : BitVec 4} {src : DepSrc} (hx : (if c then .imm x else .reg x) = src)
    (hy : (if d then .imm y else .reg y) = src) : c = d ∧ x = y := by
  subst hx
  cases c <;> cases d <;> simp_all

theorem Cond.ofBits_eq_iff {c : BitVec 2} {k : Cond} : Cond.ofBits c = k ↔ c = k.toBits :=
  ⟨fun h => by rw [← h, Cond.toBits_ofBits], fun h => by rw [h, Cond.ofBits_toBits]⟩

/-- No two words decode to the same instruction: the decoder reads or fixes every field of the layouts of R220 to R228,
and these tile the word. -/
theorem decode_inj {v w : Word} {i : Instr} (hv : decode v = .ok i) (hw : decode w = .ok i) : v = w := by
  have ov := opcodeOf_of_decodeOp hv
  have ow := opcodeOf_of_decodeOp hw
  have op : bits v 26 6 = bits w 26 6 := ov.symm.trans ow
  rw [decode, ← ov] at hv
  rw [decode, ← ow] at hw
  clear ov ow
  cases i <;>
    simp [decodeOp, Laws.opcodeOf, rOf, aOf, bOf, dwOf, segOfWord, reservedOk_eq_ok, trapElseReservedOk_eq_ok,
      Decoded.map_eq_ok, ite_reject_eq_ok, Cond.ofBits_eq_iff] at hv hw
  case ldil | addil | b | gate => exact eq_of_tiles [(26, 6), (22, 4), (0, 22)] (by simp [op, hv, hw])
  case brk => exact eq_of_tiles [(26, 6), (22, 4), (16, 6), (0, 16)] (by simp [op, hv, hw])
  case ldo | lsid | br | bv => exact eq_of_tiles [(26, 6), (22, 4), (4, 18), (0, 4)] (by simp [op, hv, hw])
  case be | bve | ds => exact eq_of_tiles [(26, 6), (22, 4), (8, 14), (4, 4), (0, 4)] (by simp [op, hv, hw])
  case cmr | diag => exact eq_of_tiles [(26, 6), (22, 4), (18, 4), (8, 10), (4, 4), (0, 4)] (by simp [op, hv, hw])
  case cbr | cbru => exact eq_of_tiles [(26, 6), (24, 2), (8, 16), (4, 4), (0, 4)] (by simp [op, hv, hw])
  case extr =>
    exact eq_of_tiles [(26, 6), (22, 4), (21, 1), (20, 1), (15, 5), (10, 5), (9, 1), (4, 5), (0, 4)]
      (by simp [op, hv, hw])
  case dep =>
    obtain ⟨res, r, z, u, len, pos, src⟩ := hv
    obtain ⟨res', r', z', u', len', pos', src'⟩ := hw
    obtain ⟨form, b⟩ := depSrc_inj src src'
    exact eq_of_tiles [(26, 6), (22, 4), (21, 1), (20, 1), (19, 1), (15, 4), (10, 5), (9, 1), (4, 5), (0, 4)]
      (by simp [*])
  case dsr =>
    exact eq_of_tiles [(26, 6), (22, 4), (21, 1), (15, 6), (10, 5), (8, 2), (4, 4), (0, 4)] (by simp [op, hv, hw])
  case shla =>
    exact eq_of_tiles [(26, 6), (22, 4), (21, 1), (20, 1), (12, 8), (10, 2), (8, 2), (4, 4), (0, 4)]
      (by simp [op, hv, hw])
  case mr =>
    obtain ⟨⟨res, ok⟩, r, d, reg⟩ := hv
    obtain ⟨⟨res', ok'⟩, r', d', reg'⟩ := hw
    obtain ⟨m, n⟩ := decodeSysReg_inj ok ok' reg reg'
    exact eq_of_tiles [(26, 6), (22, 4), (21, 1), (20, 1), (6, 14), (0, 6)] (by simp [*])
  case mst =>
    obtain ⟨res, r, arg⟩ := hv
    obtain ⟨res', r', arg'⟩ := hw
    obtain ⟨mode, b⟩ := decodeMstArg_inj arg arg'
    exact eq_of_tiles [(26, 6), (22, 4), (20, 2), (4, 16), (0, 4)] (by simp [*])
  case add | adc | sub | sbc | and | or =>
    exact eq_of_tiles [(26, 6), (22, 4), (21, 1), (20, 1), (0, 20)] (by simp [op, hv, hw, decodeOperand_inj hv.1 hw.1])
  case xor =>
    exact eq_of_tiles [(26, 6), (22, 4), (21, 1), (20, 1), (0, 20)]
      (by simp [op, hv, hw, decodeOperand_inj hv.2.1 hw.2.1])
  case cmp | cmpu =>
    exact eq_of_tiles [(26, 6), (22, 4), (20, 2), (0, 20)] (by simp [op, hv, hw, decodeOperand_inj hv.1 hw.1])
  case ld | st =>
    obtain ⟨ok, r, m, seg, dw, disp, b⟩ := hv
    obtain ⟨ok', r', m', seg', dw', disp', b'⟩ := hw
    obtain ⟨form, low⟩ := decodeDisp_inj ok ok' disp disp' (b.trans b'.symm)
    exact eq_of_tiles [(26, 6), (22, 4), (21, 1), (20, 1), (18, 2), (16, 2), (0, 16)] (by simp [*])
  case lda | sta =>
    obtain ⟨⟨res, ok⟩, r, m, disp, b⟩ := hv
    obtain ⟨⟨res', ok'⟩, r', m', disp', b'⟩ := hw
    obtain ⟨form, low⟩ := decodeDisp_inj ok ok' disp disp' (b.trans b'.symm)
    exact eq_of_tiles [(26, 6), (22, 4), (21, 1), (20, 1), (16, 4), (0, 16)] (by simp [*])
  case ldr | stc =>
    exact eq_of_tiles [(26, 6), (22, 4), (20, 2), (18, 2), (16, 2), (4, 12), (0, 4)] (by simp [op, hv, hw])
  case ldpa =>
    exact eq_of_tiles [(26, 6), (22, 4), (20, 2), (18, 2), (8, 10), (4, 4), (0, 4)] (by simp [op, hv, hw])
  case prb | ptlb =>
    exact eq_of_tiles [(26, 6), (22, 4), (21, 1), (20, 1), (18, 2), (8, 10), (4, 4), (0, 4)] (by simp [op, hv, hw])
  case itlb =>
    exact eq_of_tiles [(26, 6), (22, 4), (21, 1), (8, 13), (7, 1), (4, 3), (0, 4)] (by simp [op, hv, hw])
  case pca =>
    exact eq_of_tiles [(26, 6), (22, 4), (21, 1), (20, 1), (18, 2), (17, 1), (8, 9), (4, 4), (0, 4)]
      (by simp [op, hv, hw])
  case rfi => exact eq_of_tiles [(26, 6), (0, 26)] (by simp [op, hv, hw])

/-- The word decodes to the same instruction as the encoding of that instruction. -/
theorem encode_of_decode {w : Word} {i : Instr} (h : decode w = .ok i) : encode i = w := decode_inj (decode_encode i) h

/-- Settles O2: the encoding decodes to the instruction, and no second word does. -/
theorem encodeDecode : Obligations.EncodeDecode := fun _ _ => encode_of_decode

/-- Settles O3, by running the decoder on the eight words. -/
theorem decodeWrittenWords : Obligations.DecodeWrittenWords := by
  unfold Obligations.DecodeWrittenWords
  decide

/-! ## Words that decode to no instruction -/

theorem reservedOk_ne_illegal {α : Type} (ok : Bool) (a : α) : reservedOk ok a ≠ .illegal := by
  cases ok <;> simp [reservedOk]

theorem trapElseReservedOk_eq_illegal {α : Type} {traps ok : Bool} {a : α} :
    trapElseReservedOk traps ok a = .illegal ↔ ok = false ∧ traps = true := by
  cases ok <;> cases traps <;> simp [trapElseReservedOk]

theorem Decoded.map_eq_illegal {α β : Type} {f : α → β} {d : Decoded α} : d.map f = .illegal ↔ d = .illegal := by
  cases d <;> simp [Decoded.map]

/-- XOR with its reserved bit set is illegal with a memory operand of the reserved width (R246). -/
theorem ite_reject_eq_illegal {α : Type} {p q : Prop} [Decidable p] [Decidable q] {d : Decoded α} :
    (if p then (if q then .illegal else .undefined) else d) = .illegal ↔ p ∧ q ∨ ¬ p ∧ d = .illegal := by
  split
  · split <;> simp [*]
  · simp [*]

/-- An operand is illegal only as an indexed memory operand of the reserved width, with a reserved field not as drawn
(R242, R246). -/
theorem decodeOperand_eq_illegal {w : Word} :
    decodeOperand w = .illegal ↔ bits w 18 2 = 2#2 ∧ bits w 8 8 ≠ 0#8 ∧ dwOf w = 3#2 := by
  unfold decodeOperand
  rcases two_bits (bits w 18 2) with m | m | m | m <;> simp [m, reservedOk_ne_illegal, trapElseReservedOk_eq_illegal]

/-- The left bit of a field of two bits. -/
theorem two_le_bits {w : Word} {lo : Nat} : 2 ≤ (bits w lo 2).toNat ↔ bitAt w (lo + 1) = true := by
  have left : ∀ m : BitVec 2, 2 ≤ m.toNat ↔ m.getLsbD 1 = true := by decide
  rw [left]
  simp [bits, bitAt]

/-- The left bit of a field of four bits. -/
theorem eight_le_bits {w : Word} {lo : Nat} : 8 ≤ (bits w lo 4).toNat ↔ bitAt w (lo + 3) = true := by
  have left : ∀ m : BitVec 4, 8 ≤ m.toNat ↔ m.getLsbD 3 = true := by decide
  rw [left]
  simp [bits, bitAt]

/-- The trapping sub-encodings in the terms of the decoder (R242). -/
theorem trappingSubEncoding_iff {w : Word} : TrappingSubEncoding w ↔
    (bits w 26 6 = 0x09#6 ∧ bitAt w 21 = true) ∨
    (bits w 26 6 = 0x0B#6 ∧ bits w 20 2 = 3#2) ∨
    (bits w 26 6 ∈ [0x30#6, 0x31#6] ∧ dwOf w = 3#2) ∨
    (bits w 26 6 ∈ [0x10#6, 0x11#6, 0x12#6, 0x13#6, 0x14#6, 0x15#6, 0x16#6, 0x17#6, 0x18#6] ∧
      bitAt w 19 = true ∧ dwOf w = 3#2) := by
  rw [← eight_le_bits (lo := 18), ← two_le_bits (lo := 18)]
  exact Iff.rfl

/-- The 43 opcodes of the opcode map (R235). -/
def assignedOpcodes : List (BitVec 6) :=
  [0x00#6, 0x01#6, 0x02#6, 0x03#6, 0x04#6, 0x05#6, 0x06#6, 0x07#6, 0x08#6, 0x09#6, 0x0A#6, 0x0B#6, 0x0C#6, 0x10#6, 0x11#6,
    0x12#6, 0x13#6, 0x14#6, 0x15#6, 0x16#6, 0x17#6, 0x18#6, 0x20#6, 0x21#6, 0x22#6, 0x23#6, 0x24#6, 0x25#6, 0x26#6, 0x27#6,
    0x30#6, 0x31#6, 0x32#6, 0x33#6, 0x34#6, 0x35#6, 0x39#6, 0x3A#6, 0x3B#6, 0x3C#6, 0x3D#6, 0x3E#6, 0x3F#6]

theorem unassignedOpcode_iff {w : Word} : UnassignedOpcode w ↔ bits w 26 6 ∉ assignedOpcodes := by
  change bits w 26 6 ∈ _ ↔ _
  generalize bits w 26 6 = op
  revert op
  decide

theorem decode_of_unassigned {w : Word} (h : UnassignedOpcode w) : decode w = .illegal := by
  rw [unassignedOpcode_iff] at h
  unfold decode decodeOp
  split
  case h_44 => rfl
  all_goals exact absurd (by simp only [*]; decide) h

/-- The decoder finds a word illegal only for its opcode or a trapping sub-encoding. -/
theorem unassigned_or_trapping {w : Word} (h : decode w = .illegal) : UnassignedOpcode w ∨ TrappingSubEncoding w := by
  have memory : bits w 18 2 = 2#2 → bitAt w 19 = true := fun h => two_le_bits.1 (by simp [h])
  rw [unassignedOpcode_iff, trappingSubEncoding_iff]
  unfold decode at h
  generalize bits w 26 6 = op at *
  unfold decodeOp at h
  split at h
  case h_44 =>
    simp only [assignedOpcodes, List.mem_cons, List.not_mem_nil, or_false, not_or]
    left
    and_intros <;> assumption
  all_goals
    simp [reservedOk_ne_illegal, trapElseReservedOk_eq_illegal, Decoded.map_eq_illegal, decodeOperand_eq_illegal,
      ite_reject_eq_illegal] at h ⊢
  all_goals tauto

end Sys2Proof

namespace Sys2Proof.Machine

/-! ## Words that take trap 5 -/

/-- Whatever the state, running the instruction takes trap 5 with its word. -/
def TrapsIllegal (i : Instr) : Prop := ∀ s, exec i s = s.raise (illegalInstruction (encode i))

/-- Decoding gives an illegal word, or something with the property p. -/
def IllegalOr {α : Type} (p : α → Prop) (d : Decoded α) : Prop := d = .illegal ∨ ∃ a, d = .ok a ∧ p a

theorem IllegalOr.trapElse {α : Type} {p : α → Prop} {traps : Bool} {a : α} (ht : traps = true) (ha : p a)
    (ok : Bool) : IllegalOr p (trapElseReservedOk traps ok a) := by
  subst ht
  cases ok
  · exact .inl rfl
  · exact .inr ⟨a, rfl, ha⟩

theorem IllegalOr.map {α β : Type} {p : β → Prop} {f : α → β} {d : Decoded α}
    (h : IllegalOr (fun a => p (f a)) d) : IllegalOr p (d.map f) := by
  rcases h with rfl | ⟨a, rfl, ha⟩
  · exact .inl rfl
  · exact .inr ⟨f a, rfl, ha⟩

/-- The operand format with a memory operand of the reserved width (R242). -/
theorem illegalOr_operandFormat {w : Word} (hm : bitAt w 19 = true) (hd : dwOf w = 3#2) {f : Operand → Instr}
    (hf : ∀ opd, operandReserved opd = true → TrapsIllegal (f opd)) :
    IllegalOr TrapsIllegal ((decodeOperand w).map f) := by
  refine .map ?_
  have memory := two_le_bits.2 hm
  rcases two_bits (bits w 18 2) with m | m | m | m <;> simp [m] at memory
  · have indexed : decodeOperand w = trapElseReservedOk true (bits w 8 8 == 0#8) (.indexed 3#2 (aOf w) (bOf w)) := by
      simp [decodeOperand, m, hd]
    rw [indexed]
    exact IllegalOr.trapElse (p := fun opd => TrapsIllegal (f opd)) rfl (hf _ rfl) _
  · have offset : decodeOperand w = .ok (.offset 3#2 (bits w 4 12) (bOf w)) := by simp [decodeOperand, m, hd]
    exact .inr ⟨_, offset, hf _ rfl⟩

/-- Either way the trap reports the word that was fetched, since the instruction encodes to it. -/
theorem runWord_illegal {w : Word} (h : IllegalOr TrapsIllegal (decode w)) (s : State) :
    s.runWord w = s.raise (illegalInstruction w) := by
  unfold State.runWord
  rcases h with h | ⟨i, h, hi⟩
  · rw [h]
  · rw [h, ← encode_of_decode h]
    exact hi s

/-- CMR with an undefined condition (R435). -/
theorem trapsIllegal_cmr {cond : BitVec 4} (h : 8 ≤ cond.toNat) (r a b : GReg) : TrapsIllegal (.cmr r cond a b) := by
  have undefined : ∀ cond : BitVec 4, 8 ≤ cond.toNat → cond ∈ [8#4, 9#4, 10#4, 11#4, 12#4, 13#4, 14#4, 15#4] := by
    decide
  intro s
  have none : cmrTest cond (s.readGr b) = none := by
    have hc := undefined cond h
    simp only [List.mem_cons, List.not_mem_nil, or_false] at hc
    rcases hc with rfl | rfl | rfl | rfl | rfl | rfl | rfl | rfl <;> rfl
  simp only [exec, execCmr, none]

/-- The operand format with the reserved width (R371). -/
theorem HasOperand.trapsIllegal {i : Instr} {r : GReg} {opd : Operand} (hi : HasOperand i r opd)
    (ho : operandReserved opd = true) : TrapsIllegal i := exec_operand_reserved (.inl hi) ho

/-- A trapping sub-encoding is illegal to the decoder, or an instruction that traps when it runs (R242, R246). -/
theorem illegalOr_decode {w : Word} (h : TrappingSubEncoding w) : IllegalOr TrapsIllegal (decode w) := by
  unfold decode
  rcases trappingSubEncoding_iff.1 h with ⟨op, left⟩ | ⟨op, mode⟩ | ⟨op, width⟩ | ⟨op, memory, width⟩
  · rw [op]
    exact .trapElse left (trapsIllegal_cmr (eight_le_bits.2 left) _ _ _) _
  · rw [op]
    refine .trapElse (by simp [mode]) ?_ _
    rw [decodeMstArg_eq.2 (.inr (.inr (.inr ⟨mode, rfl⟩)))]
    exact fun _ => rfl
  · simp only [List.mem_cons, List.not_mem_nil, or_false] at op
    rcases op with op | op <;> rw [op] <;> refine .trapElse (by simp [width]) ?_ _ <;> rw [width] <;> exact fun _ => rfl
  · simp only [List.mem_cons, List.not_mem_nil, or_false] at op
    have format {f : Operand → Instr} := illegalOr_operandFormat memory width (f := f)
    rcases op with op | op | op | op | op | op | op | op | op <;> rw [op]
    · exact format fun opd => (HasOperand.add _ _ _ opd).trapsIllegal
    · exact format fun opd => (HasOperand.adc _ _ _ opd).trapsIllegal
    · exact format fun opd => (HasOperand.sub _ _ _ opd).trapsIllegal
    · exact format fun opd => (HasOperand.sbc _ _ _ opd).trapsIllegal
    · exact format fun opd ho s => if_pos ho
    · exact format fun opd ho s => if_pos ho
    · by_cases hr : bitAt w 20 = true
      · exact .inl (by simp [decodeOp, hr, memory, width])
      · simp only [decodeOp, hr]
        exact format fun opd => (HasOperand.xor _ _ opd).trapsIllegal
    · exact format fun opd => (HasOperand.cmp _ _ opd).trapsIllegal
    · exact format fun opd => (HasOperand.cmpu _ _ opd).trapsIllegal

/-- Settles O4: the word is illegal to the decoder, or an instruction that takes the same trap. -/
theorem unassignedOpcodeTraps : Obligations.UnassignedOpcodeTraps := by
  intro s w h
  have trap : s.runWord w = s.raise (illegalInstruction w) := by
    refine runWord_illegal ?_ s
    rcases h with h | h | h
    · exact .inl (decode_of_unassigned h)
    · exact illegalOr_decode h
    · exact .inl h
  exact ⟨_, trap, takeTrap_trapped s _, (takeTrap_trapped s _).p0 w rfl, rfl⟩

/-! ## Undefined operations -/

/-- A word that is no instruction and does not trap has a reserved field not as drawn (R241). -/
theorem decode_undefined {w : Word} (henc : ∀ i, encode i ≠ w) (hop : ¬ UnassignedOpcode w)
    (hsub : ¬ TrappingSubEncoding w) : decode w = .undefined := by
  cases h : decode w with
  | ok i => exact absurd (encode_of_decode h) (henc i)
  | illegal => exact absurd (unassigned_or_trapping h) (by simp [hop, hsub])
  | undefined => rfl

theorem runWord_undefined {w : Word} (h : decode w = .undefined) (s : State) :
    s.runWord w = .fault .reservedEncoding := by
  rw [State.runWord, h]

/-- SHAMT has five bits (R63). -/
theorem shamt_mod (s : State) : s.shamt = (s.readCr 2#5).toNat % 32 := by
  simp [State.shamt, State.readCr, crValue, Nat.and_two_pow_sub_one_eq_mod _ 5]

theorem fieldPos_eq (s : State) (useShamt : Bool) (pos : BitVec 5) :
    s.fieldPos useShamt pos = fieldPosition s useShamt pos := by
  simp [State.fieldPos, fieldPosition, shamt_mod]

/-- A field lies in the word where it is not empty and does not extend beyond the leftmost bit (R413). -/
theorem fieldInWord_iff {pos : Nat} {len : BitVec 5} :
    fieldInWord pos len = true ↔ len.toNat ≠ 0 ∧ len.toNat ≤ pos + 1 := by
  simp [fieldInWord, ← BitVec.toNat_inj]

theorem exec_extr_undefined {s : State} {useShamt : Bool} {len pos : BitVec 5}
    (h : fieldInWord (fieldPosition s useShamt pos) len = false) (r : GReg) (sx : Bool) (b : GReg) :
    exec (.extr r sx useShamt len pos b) s = .fault .undefinedOperation := by
  simp [exec, execExtr, fieldPos_eq, h]

theorem exec_dep_undefined {s : State} {useShamt : Bool} {len pos : BitVec 5}
    (h : fieldInWord (fieldPosition s useShamt pos) len = false) (r : GReg) (z : Bool) (src : DepSrc) :
    exec (.dep r z useShamt len pos src) s = .fault .undefinedOperation := by
  simp [exec, execDep, fieldPos_eq, h]

/-- Settles O34, clause by clause: words, bit fields, AND and OR, BE. -/
theorem undefinedOperationsStop : Obligations.UndefinedOperationsStop := by
  refine ⟨?_, ?_, ?_, ?_⟩
  · rintro s w (h | ⟨henc, hop, hsub⟩)
    · exact runWord_undefined h s
    · exact runWord_undefined (decode_undefined henc hop hsub) s
  · intro s r f useShamt len pos b src h
    have outside : fieldInWord (fieldPosition s useShamt pos) len = false := by
      rw [Bool.eq_false_iff, Ne, fieldInWord_iff]
      omega
    exact ⟨exec_extr_undefined outside r f b, exec_dep_undefined outside r f src⟩
  · intro s r opd h
    exact ⟨by simp [exec, execAnd, h], by simp [exec, execOr, h]⟩
  · intro s r ofs a b hc ha
    have beyond : 8#4 ≤ a := ha
    simp [exec, execBe, hc, beyond]

/-! ## Deposited fields -/

theorem getLsbD_fieldMask {len : Nat} (hl : len < 32) (i : Nat) : (fieldMask len).getLsbD i = decide (i < len) := by
  have value : (fieldMask len).toNat = 2 ^ len - 1 := by
    have pos : 0 < 2 ^ len := Nat.two_pow_pos len
    have lt : 2 ^ len < 2 ^ 32 := Nat.pow_lt_pow_right (by omega) hl
    simp only [fieldMask, BitVec.toNat_sub, BitVec.toNat_shiftLeft, BitVec.toNat_ofNat, Nat.shiftLeft_eq]
    omega
  rw [BitVec.getLsbD, value, Nat.testBit_two_pow_sub_one]

/-- Inside the field the source, outside it the old value (R420). -/
theorem getLsbD_depositField (old src : Word) {pos len i : Nat} (hl : len < 32) (hi : i < 32) :
    (depositField old src pos len).getLsbD i =
      if 31 - pos ≤ i ∧ i < 31 - pos + len then src.getLsbD (i - (31 - pos)) else old.getLsbD i := by
  simp only [depositField, BitVec.getLsbD_or, BitVec.getLsbD_and, BitVec.getLsbD_not, BitVec.getLsbD_shiftLeft, hi]
  by_cases below : i < 31 - pos
  · rw [if_neg (by omega)]
    simp [below]
  · rw [getLsbD_fieldMask hl]
    by_cases inside : i - (31 - pos) < len
    · rw [if_pos (by omega)]
      simp [below, inside]
    · rw [if_neg (by omega)]
      simp [below, inside]

/-- DEP of a field in the word (R420). -/
theorem exec_dep_eq {s : State} {useShamt : Bool} {len pos : BitVec 5}
    (h : fieldInWord (fieldPosition s useShamt pos) len = true) (r : GReg) (z : Bool) (src : DepSrc) :
    exec (.dep r z useShamt len pos src) s = .next (s.writeGr r (depositField (if z then 0#32 else s.readGr r)
      (s.depSource src) (fieldPosition s useShamt pos) len.toNat)).advance := by
  simp [exec, execDep, fieldPos_eq, h]

/-- Settles O33: DEP writes the deposited field, whose bits are those of `getLsbD_depositField`. -/
theorem depositBitField : Obligations.DepositBitField := by
  rintro s r z useShamt len pos src p x rfl hne hle hsrc
  obtain rfl : x = s.depSource src := by rcases hsrc with ⟨b, rfl, rfl⟩ | ⟨k, rfl, rfl⟩ <;> rfl
  refine ⟨_, _, exec_dep_eq (fieldInWord_iff.2 ⟨hne, hle⟩) r z src, writeGr_advance_result s r _, fun i hi => ?_⟩
  rw [getLsbD_depositField _ _ len.isLt hi]
  cases z <;> simp

end Sys2Proof.Machine

/-!
PROOFS. Sys2Proof/Proofs/Immediate.lean: the statements that rest on 41_immediate.md: LDIL, ADDIL and LDO, their words
as rows of fields and the numbers they compute.
-/

namespace Sys2Proof

/-! ## Words written as rows of fields -/

/-- Two fields side by side are placed one above the other (R11). -/
theorem put_append {m n : Nat} (lo : Nat) (x : BitVec m) (y : BitVec n) :
    put lo (x ++ y) = put (lo + n) x ||| put lo y := by
  refine BitVec.eq_of_getLsbD_eq fun i hi => ?_
  rw [BitVec.getLsbD_or, getLsbD_put, getLsbD_put, getLsbD_put, BitVec.getLsbD_append]
  by_cases right : i < lo + n
  · have notLeft : ¬ lo + n ≤ i := by omega
    by_cases below : i < lo
    · simp [notLeft, show ¬ lo ≤ i by omega]
    · simp [notLeft, show i - lo < n by omega]
  · have beyond : y.getLsbD (i - lo) = false := BitVec.getLsbD_of_ge _ _ (by omega)
    simp [beyond, show ¬ i - lo < n by omega, show lo ≤ i by omega, show lo + n ≤ i by omega, Nat.sub_sub]

/-- A whole word is a field of its own, which `put_append` then divides. -/
theorem put_zero_word (w : Word) : put 0 w = w := by simp [put]

theorem decode_of_encode {i : Instr} {w : Word} (h : encode i = w) : decode w = .ok i := h ▸ decode_encode i

theorem encode_ldil (r : GReg) (val : BitVec 22) : encode (.ldil r val) = 0x01#6 ++ r ++ val := by
  rw [← put_zero_word (0x01#6 ++ r ++ val), put_append, put_append]
  rfl

theorem encode_addil (r : GReg) (val : BitVec 22) : encode (.addil r val) = 0x02#6 ++ r ++ val := by
  rw [← put_zero_word (0x02#6 ++ r ++ val), put_append, put_append]
  rfl

theorem encode_ldo (r : GReg) (ofs : BitVec 18) (b : GReg) : encode (.ldo r ofs b) = 0x03#6 ++ r ++ ofs ++ b := by
  rw [← put_zero_word (0x03#6 ++ r ++ ofs ++ b), put_append, put_append, put_append]
  rfl

end Sys2Proof

namespace Sys2Proof.Machine

/-! ## Immediate values -/

/-- The left part of a word as a number: ten zeros to the right multiply by 2^10 (R301). -/
theorem append_ten_zeros (val : BitVec 22) : (val ++ 0#10 : Word) = BitVec.ofNat 32 (val.toNat * 1024) := by
  refine BitVec.eq_of_toNat_eq ?_
  rw [BitVec.toNat_append, BitVec.toNat_ofNat, Nat.shiftLeft_eq]
  simp only [BitVec.toNat_ofNat, Nat.zero_mod, Nat.or_zero]
  omega

theorem add_append_ten_zeros (v : Word) (val : BitVec 22) :
    v + (val ++ 0#10 : Word) = BitVec.ofNat 32 (v.toNat + val.toNat * 1024) := by
  rw [append_ten_zeros, BitVec.ofNat_add, BitVec.ofNat_toNat, BitVec.setWidth_eq]

/-- Adding a sign-extended offset adds the number it stands for, modulo 2^32 (R303). -/
theorem add_sext {n : Nat} (v : Word) (ofs : BitVec n) : v + sext ofs = BitVec.ofInt 32 (v.toNat + ofs.toInt) := by
  rw [BitVec.ofInt_add, BitVec.ofInt_natCast, BitVec.ofNat_toNat, BitVec.setWidth_eq]
  rfl

/-! ## LDIL, ADDIL and LDO -/

theorem exec_ldil_eq (s : State) (r : GReg) (val : BitVec 22) :
    exec (.ldil r val) s = .next (s.writeGr r (BitVec.ofNat 32 (val.toNat * 1024))).advance := by
  rw [← append_ten_zeros]
  rfl

theorem exec_addil_eq (s : State) (r : GReg) (val : BitVec 22) :
    exec (.addil r val) s =
      .next (s.writeGr 1#4 (BitVec.ofNat 32 ((s.readGr r).toNat + val.toNat * 1024))).advance := by
  rw [← add_append_ten_zeros]
  rfl

theorem exec_ldo_eq (s : State) (r : GReg) (ofs : BitVec 18) (b : GReg) :
    exec (.ldo r ofs b) s = .next (s.writeGr r (BitVec.ofInt 32 ((s.readGr b).toNat + ofs.toInt))).advance := by
  rw [← add_sext]
  rfl

/-- Settles O28: the row of fields is the encoding of LDIL, which writes one register and advances. -/
theorem loadImmediateLeft : Obligations.LoadImmediateLeft :=
  ⟨fun r val => decode_of_encode (encode_ldil r val),
    fun s r val => ⟨_, exec_ldil_eq s r val, writeGr_advance_result s r _⟩⟩

/-- Settles O29: as LDIL, but the register written is GR1 whatever r names. -/
theorem addImmediateLeft : Obligations.AddImmediateLeft :=
  ⟨fun r val => decode_of_encode (encode_addil r val),
    fun s r val => ⟨_, exec_addil_eq s r val, writeGr_advance_result s 1#4 _⟩⟩

/-- Settles O30: as LDIL, with the sum of base and sign-extended offset. -/
theorem loadOffset : Obligations.LoadOffset :=
  ⟨fun r ofs b => decode_of_encode (encode_ldo r ofs b),
    fun s r ofs b => ⟨_, exec_ldo_eq s r ofs b, writeGr_advance_result s r _⟩⟩

end Sys2Proof.Machine

/-!
PROOFS. Sys2Proof/Proofs/Branch.lean: the statements that rest on 42_branch.md: the branches inside a segment, with and
without a condition, and GATE. The external branches and the displacement of a branch are in Sys2Proof/Proofs/State.lean.
-/

namespace Sys2Proof.Machine

/-! ## Targets -/

/-- Shifting left by two counts instructions: it adds four times the register, modulo 2^32 (R342). -/
theorem add_shiftLeft_two (v w : Word) : v + w <<< 2 = BitVec.ofNat 32 (v.toNat + 4 * w.toNat) := by
  refine BitVec.eq_of_toNat_eq ?_
  simp only [BitVec.toNat_add, BitVec.toNat_shiftLeft, BitVec.toNat_ofNat, Nat.shiftLeft_eq]
  omega

/-! ## What a branch leaves -/

/-- The effect of moving the instruction offset. -/
theorem setOfs_result (s : State) (target : Word) : PswResult { s.psw with ofs := target } s (s.setOfs target) where
  gr := fun k _ => by simp
  psw := rfl
  reservation := rfl
  system := by constructor <;> simp [State.dataByte]

/-- The effect of setting the privilege level, writing one register and moving the instruction offset, as GATE does. -/
theorem setLevel_writeGr_setOfs_result (s : State) (level : Level) (r : GReg) (v target : Word) :
    RegisterResult r v { s.psw with x := level, ofs := target } s (((s.setLevel level).writeGr r v).setOfs target) where
  dest := by simpa [Holds] using State.readGr_writeGr_same (s.setLevel level) r v
  others := fun k hk => by simpa using State.readGr_writeGr_other (by simpa using hk) (s.setLevel level) v
  psw := by simp
  reservation := by simp
  system := by constructor <;> simp [State.dataByte]

/-- The effect of writing one register and moving the instruction offset: the level set is the one there was. -/
theorem writeGr_setOfs_result (s : State) (r : GReg) (v target : Word) :
    RegisterResult r v { s.psw with ofs := target } s ((s.writeGr r v).setOfs target) :=
  setLevel_writeGr_setOfs_result s s.psw.x r v target

/-! ## B, BR and BV -/

theorem exec_b_eq (s : State) (r : GReg) (ofs : BitVec 22) :
    exec (.b r ofs) s =
      .next ((s.writeGr r (s.psw.ofs + 4#32)).setOfs (BitVec.ofInt 32 (s.psw.ofs.toNat + 4 * ofs.toInt))) := by
  rw [← add_branchDisp]
  rfl

theorem exec_br_eq (s : State) (r b : GReg) :
    exec (.br r b) s =
      .next ((s.writeGr r (s.psw.ofs + 4#32)).setOfs
        (BitVec.ofNat 32 (s.psw.ofs.toNat + 4 * (s.readGr b).toNat))) := by
  rw [← add_shiftLeft_two]
  rfl

theorem exec_bv_eq (s : State) (r b : GReg) :
    exec (.bv r b) s =
      .next ((s.writeGr r (s.psw.ofs + 4#32)).setOfs (BitVec.ofNat 32 ((s.readGr b).toNat / 4 * 4))) := by
  rw [← alignWord_eq]
  rfl

/-- Settles O45: each of the three writes the link and moves the offset; its target reads GR[b] of the old state. -/
theorem unconditionalBranches : Obligations.UnconditionalBranches := fun s r b ofs =>
  ⟨⟨_, exec_b_eq s r ofs, writeGr_setOfs_result s r _ _⟩,
    ⟨_, exec_br_eq s r b, writeGr_setOfs_result s r _ _⟩,
    ⟨_, exec_bv_eq s r b, writeGr_setOfs_result s r _ _⟩⟩

/-! ## Conditions -/

/-- The relation that a condition names, on the numbers compared (R345, R385). -/
def CondRelates (cond : Cond) (x y : Int) : Prop :=
  match cond with
  | .eq => x = y
  | .lt => x < y
  | .ne => x ≠ y
  | .le => x ≤ y

theorem condRelates_iff (cond : Cond) (x y : Int) :
    CondRelates cond x y ↔
      (cond = .eq ∧ x = y) ∨ (cond = .lt ∧ x < y) ∨ (cond = .ne ∧ x ≠ y) ∨ (cond = .le ∧ x ≤ y) := by
  cases cond <;> simp [CondRelates]

theorem condSigned_iff (cond : Cond) (x y : Word) :
    condSigned cond x y = true ↔ CondRelates cond x.toInt y.toInt := by
  cases cond <;> simp [condSigned, CondRelates, BitVec.toInt_inj]

theorem condUnsigned_iff (cond : Cond) (x y : Word) :
    condUnsigned cond x y = true ↔ CondRelates cond x.toNat y.toNat := by
  cases cond <;> simp [condUnsigned, CondRelates, BitVec.toNat_inj]

/-! ## CBR and CBRU -/

/-- An instruction that branches on a test moves the offset to the target if the test holds and advances otherwise
(R345, R346). -/
theorem branchIf_result {i : Instr} {s : State} {test : Bool} {n : Nat} {ofs : BitVec n}
    (h : exec i s = if test then .next (s.setOfs (s.psw.ofs + branchDisp ofs)) else .next s.advance) :
    (test = true → ∃ t, exec i s = .next t ∧
      PswResult { s.psw with ofs := BitVec.ofInt 32 (s.psw.ofs.toNat + 4 * ofs.toInt) } s t) ∧
    (¬ test = true → ∃ t, exec i s = .next t ∧ PswResult s.psw.next s t) := by
  rw [h, ← add_branchDisp]
  exact ⟨fun taken => ⟨_, if_pos taken, setOfs_result s _⟩, fun fails => ⟨_, if_neg fails, setOfs_result s _⟩⟩

/-- Settles O47: the two differ in the test, which is the condition of the signed or of the unsigned numbers. -/
theorem conditionalBranches : Obligations.ConditionalBranches := by
  rintro s i cond ofs a b x y holds (⟨rfl, rfl, rfl⟩ | ⟨rfl, rfl, rfl⟩) meaning
  · rw [meaning, ← condRelates_iff, ← condSigned_iff]
    exact branchIf_result rfl
  · rw [meaning, ← condRelates_iff, ← condUnsigned_iff]
    exact branchIf_result rfl

/-! ## GATE -/

/-- GATE that was fetched without translation (D22). -/
theorem exec_gate_untranslated {s : State} (h : s.fetchUntranslated = true) (r : GReg) (ofs : BitVec 22) :
    exec (.gate r ofs) s =
      .next (((s.setLevel 0#1).writeGr r (Config.freeWord 0 s.tick)).setOfs (s.psw.ofs + branchDisp ofs)) := if_pos h

/-- GATE that was fetched through an instruction TLB entry (R341). -/
theorem exec_gate_entry {s : State} {e : TlbEntry} (h : s.fetchUntranslated = false)
    (he : tlbFind s.itlb s.psw.seg s.psw.ofs = some e) (r : GReg) (ofs : BitVec 22) :
    exec (.gate r ofs) s =
      .next (((s.setLevel (if e.ptype = .gateway ∧ e.pl2 < s.psw.x then e.pl2 else s.psw.x)).writeGr r
        (BitVec.ofNat 32 e.pl1.toNat)).setOfs (s.psw.ofs + branchDisp ofs)) := by
  simp [exec, execGate, h, he, gateThrough_eq, zext]

/-- Settles O48: in both cases GATE sets the level, writes GR[r] and moves the offset to the same target. -/
theorem gate : Obligations.Gate := by
  rintro s r ofs target rfl
  rw [← add_branchDisp]
  refine ⟨fun off => ?_, fun e hc hb he => ?_⟩
  · have untranslated : s.fetchUntranslated = true := by simpa [State.fetchUntranslated] using off
    exact ⟨_, _, exec_gate_untranslated untranslated r ofs, setLevel_writeGr_setOfs_result s _ r _ _⟩
  · have translated : s.fetchUntranslated = false := by simp [State.fetchUntranslated, hc, hb]
    exact ⟨_, exec_gate_entry translated he r ofs, setLevel_writeGr_setOfs_result s _ r _ _⟩

end Sys2Proof.Machine

/-!
PROOFS. Sys2Proof/Proofs/Operand.lean: the statements that rest on 43_computational_operand.md: the arithmetic, logical and
compare instructions of the operand format, from a fetched operand to the end of the instruction, and SHLA, which ends as
the arithmetic ones do (44_computational_register.md R430).
-/

namespace Sys2Proof.Machine

/-! ## Exact values -/

theorem valueOf_eq (l : Bool) (v : Word) : valueOf l v = exactValue l v := rfl

theorem unrepresentable_iff {l : Bool} {x : Int} : unrepresentable l x = true ↔ ¬ Representable l x := by
  cases l <;> simp [unrepresentable, Representable] <;> omega

/-- Signed or unsigned, the exact value stands for the word modulo 2^32 (R373). -/
theorem ofInt_exactValue (l : Bool) (v : Word) : BitVec.ofInt 32 (exactValue l v) = v := by
  cases l
  · exact BitVec.ofInt_toInt
  · simp [exactValue]

/-- The sum of SHLA is that of the exact values, modulo 2^32 (R430). -/
theorem shiftLeft_add_eq_ofInt (l : Bool) (v w : Word) (k : Nat) :
    v <<< k + w = BitVec.ofInt 32 (exactValue l v * 2 ^ k + exactValue l w) := by
  have power : BitVec.ofInt 32 (2 ^ k) = BitVec.twoPow 32 k := by
    refine BitVec.eq_of_toNat_eq ?_
    rw [BitVec.toNat_twoPow, ← BitVec.toNat_ofNat, ← BitVec.ofInt_natCast, Nat.cast_pow, Nat.cast_ofNat]
  rw [BitVec.ofInt_add, BitVec.ofInt_mul, ofInt_exactValue, ofInt_exactValue, power, BitVec.shiftLeft_eq_mul_twoPow]

/-! ## What ADD, SUB and SHLA compute -/

/-- CB after an addition: the carry with L = 0, the old CB with L = 1 (R374). -/
theorem addAlu_carry_getD (l cin cb : Bool) (a b : Word) :
    (addAlu l cin a b).carry.getD cb = if l then cb else decide (2 ^ 32 ≤ a.toNat + b.toNat + bitNat cin) := by
  cases l <;> rfl

theorem addAlu_overflow_iff {l cin : Bool} {a b : Word} : (addAlu l cin a b).overflow = true ↔
    ¬ Representable l (exactValue l a + exactValue l b + bitNat cin) := unrepresentable_iff

theorem subAlu_overflow_iff {l bin : Bool} {a b : Word} : (subAlu l bin a b).overflow = true ↔
    ¬ Representable l (exactValue l a - exactValue l b - bitNat bin) := unrepresentable_iff

/-- SHLA overflows in the shift or in the sum (R430, D29). -/
theorem shlaAlu_overflow_iff {l : Bool} {sa : BitVec 2} {a b : Word} : (shlaAlu l sa a b).overflow = true ↔
    ¬ (Representable l (exactValue l a * 2 ^ sa.toNat) ∧
      Representable l (exactValue l a * 2 ^ sa.toNat + exactValue l b)) := by
  rw [not_and_or, ← unrepresentable_iff, ← unrepresentable_iff, ← Bool.or_eq_true]
  rfl

/-! ## The end of an instruction -/

/-- The effect of writing one register and the carry, if there is one to write, and advancing. -/
theorem writeGr_setCarry_advance_result (s : State) (r : GReg) (v : Word) (c : Option Bool) :
    RegisterResult r v { s.psw.next with cb := c.getD s.psw.cb } s (((s.writeGr r v).setCarry c).advance) where
  dest := by simpa [Holds] using State.readGr_writeGr_same s r v
  others := fun k hk => by simpa using State.readGr_writeGr_other (by simpa using hk) s v
  psw := by cases c <;> simp [Psw.next]
  reservation := by simp
  system := by constructor <;> simp [State.dataByte]

/-- An instruction whose writes are made ends as its data read left it to (R567). -/
theorem finish_endsWith (u : State) (late : Option TrapReq) : ∃ t, u.finish late = .next t ∧ EndsWith late u t := by
  cases late with
  | none => exact ⟨u, rfl, rfl⟩
  | some q => exact finish_trapped u q

/-- An arithmetic result is written where it does not take trap 8 (R372). -/
theorem writeAlu_result {o : Bool} {q : AluResult} (h : o = false ∨ ¬ q.overflow = true) (s : State) (w : Word)
    (r : GReg) (late : Option TrapReq) : ∃ v t, s.writeAlu w r o q late = .next t ∧ EndsWith late v t ∧
      RegisterResult r q.res { s.psw.next with cb := q.carry.getD s.psw.cb } s v := by
  have writes : ¬ (o && q.overflow) = true := by rcases h with rfl | h <;> simp [*]
  obtain ⟨t, ends, ending⟩ := finish_endsWith (((s.writeGr r q.res).setCarry q.carry).advance) late
  exact ⟨_, t, (if_neg writes).trans ends, ending, writeGr_setCarry_advance_result s r q.res q.carry⟩

/-- Trap 8 suppresses the writes, and comes before a trap left by the operand (R372, R564). -/
theorem writeAlu_overflow {q : AluResult} (h : q.overflow = true) (s : State) (w : Word) (r : GReg)
    (late : Option TrapReq) : ∃ t, s.writeAlu w r true q late = .next t ∧ Trapped (overflowTrap w) s t :=
  ⟨_, if_pos h, takeTrap_trapped s _⟩

/-! ## From the operand to the end -/

section fetched
variable {s u : State} {w : Word} {r : GReg} {opd : Operand} {q : Inputs}

/-- Fetching an operand leaves the status word as it was. -/
theorem operand_psw (h : s.operand w r opd = .ok q u) : u.psw = s.psw := by
  rcases operand_ok h with rfl | ⟨e, rfl⟩ <;> rfl

theorem runAlu_of_operand (h : s.operand w r opd = .ok q u) (o : Bool) (f : Word → Word → AluResult) :
    s.runAlu w r o opd f = u.writeAlu w r o (f q.a q.b) q.late := by
  rw [State.runAlu, h]
  rfl

theorem runAlu_result (h : s.operand w r opd = .ok q u) {o : Bool} {f : Word → Word → AluResult}
    (fits : o = false ∨ ¬ (f q.a q.b).overflow = true) :
    ∃ v t, s.runAlu w r o opd f = .next t ∧ EndsWith q.late v t ∧
      RegisterResult r (f q.a q.b).res { s.psw.next with cb := (f q.a q.b).carry.getD s.psw.cb } u v := by
  rw [runAlu_of_operand h, ← operand_psw h]
  exact writeAlu_result fits u w r q.late

theorem runAlu_overflow (h : s.operand w r opd = .ok q u) {f : Word → Word → AluResult}
    (overflows : (f q.a q.b).overflow = true) :
    ∃ t, s.runAlu w r true opd f = .next t ∧ Trapped (overflowTrap w) u t := by
  rw [runAlu_of_operand h]
  exact writeAlu_overflow overflows u w r q.late

theorem runLogic_result (h : s.operand w r opd = .ok q u) (f : Word → Word → Word) :
    ∃ v t, s.runLogic w r opd f = .next t ∧ EndsWith q.late v t ∧ RegisterResult r (f q.a q.b) s.psw.next u v := by
  obtain ⟨t, ends, ending⟩ := finish_endsWith (u.writeGr r (f q.a q.b)).advance q.late
  refine ⟨_, t, ?_, ending, ?_⟩
  · rw [State.runLogic, h]
    exact ends
  · rw [← operand_psw h]
    exact writeGr_advance_result u r _

end fetched

/-! ## SHLA -/

/-- Settles O36: SHLA ends as an arithmetic instruction without an operand fetch, and writes no carry. -/
theorem shiftLeftAndAdd : Obligations.ShiftLeftAndAdd := by
  rintro s r l o sa a b x y rfl rfl
  refine ⟨?_, fun fits => ?_⟩
  · rintro rfl overflows
    exact writeAlu_overflow (shlaAlu_overflow_iff.2 overflows) s _ r none
  · rw [← not_not (a := _ ∧ _), ← shlaAlu_overflow_iff] at fits
    obtain ⟨v, t, run, rfl, result⟩ := writeAlu_result fits s (encode (.shla r l o sa a b)) r none
    rw [← shiftLeft_add_eq_ofInt]
    exact ⟨_, run, result⟩

/-! ## ADD, ADC, SUB and SBC -/

section arithmetic
variable {s u : State} {r : GReg} {l : Bool} {opd : Operand} {i : Instr} {q : Inputs}

/-- An instruction that adds its inputs and a carry (R375, R376). -/
theorem result_of_addAlu {o cin : Bool} (run : exec i s = s.runAlu (encode i) r o opd (addAlu l cin))
    (fetch : s.operand (encode i) r opd = .ok q u)
    (fits : o = false ∨ Representable l (exactValue l q.a + exactValue l q.b + bitNat cin)) :
    ∃ v t, exec i s = .next t ∧ EndsWith q.late v t ∧
      RegisterResult r (BitVec.ofNat 32 (q.a.toNat + q.b.toNat + bitNat cin))
        { s.psw.next with
          cb := if l then s.psw.cb else decide (2 ^ 32 ≤ q.a.toNat + q.b.toNat + bitNat cin) } u v := by
  rw [run, ← addAlu_carry_getD]
  exact runAlu_result fetch (by rwa [addAlu_overflow_iff, not_not])

/-- An instruction that subtracts its second input and a borrow from its first (R377, R378). -/
theorem result_of_subAlu {o bin : Bool} (run : exec i s = s.runAlu (encode i) r o opd (subAlu l bin))
    (fetch : s.operand (encode i) r opd = .ok q u)
    (fits : o = false ∨ Representable l (exactValue l q.a - exactValue l q.b - bitNat bin)) :
    ∃ v t, exec i s = .next t ∧ EndsWith q.late v t ∧
      RegisterResult r (BitVec.ofInt 32 ((q.a.toNat : Int) - q.b.toNat - bitNat bin))
        { s.psw.next with cb := decide (q.a.toNat < q.b.toNat + bitNat bin) } u v := by
  rw [run]
  exact runAlu_result fetch (by rwa [subAlu_overflow_iff, not_not])

end arithmetic

/-- Settles O40: ADD adds no carry, ADC that of the state before. -/
theorem addResult : Obligations.AddResult := by
  rintro s u r l o opd i c q (⟨rfl, rfl⟩ | ⟨rfl, rfl⟩) fetch fits
  · exact result_of_addAlu (cin := false) rfl fetch fits
  · exact result_of_addAlu (cin := s.psw.cb) rfl fetch fits

/-- Settles O41: SUB subtracts no borrow, SBC that of the state before. -/
theorem subtractResult : Obligations.SubtractResult := by
  rintro s u r l o opd i c q (⟨rfl, rfl⟩ | ⟨rfl, rfl⟩) fetch fits
  · exact result_of_subAlu (bin := false) rfl fetch fits
  · exact result_of_subAlu (bin := s.psw.cb) rfl fetch fits

/-- A bit as an integer. -/
theorem cast_bitNat (c : Bool) : (bitNat c : Int) = if c then 1 else 0 := by cases c <;> rfl

/-- Settles O42: in each of the four the exact result is that of the adder or the subtractor, with its carry or borrow. -/
theorem overflowTraps : Obligations.OverflowTraps := by
  rintro s u r l opd i q x (⟨rfl, rfl⟩ | ⟨rfl, rfl⟩ | ⟨rfl, rfl⟩ | ⟨rfl, rfl⟩) fetch outside
  · exact runAlu_overflow (f := addAlu l false) fetch (addAlu_overflow_iff.2 (by simpa [cast_bitNat] using outside))
  · exact runAlu_overflow (f := addAlu l s.psw.cb) fetch (addAlu_overflow_iff.2 (by rwa [cast_bitNat]))
  · exact runAlu_overflow (f := subAlu l false) fetch (subAlu_overflow_iff.2 (by simpa [cast_bitNat] using outside))
  · exact runAlu_overflow (f := subAlu l s.psw.cb) fetch (subAlu_overflow_iff.2 (by rwa [cast_bitNat]))

/-! ## AND, OR and XOR -/

/-- An operand that can be fetched has not the reserved width. -/
theorem not_reserved_of_operand {s u : State} {w : Word} {r : GReg} {opd : Operand} {q : Inputs}
    (h : s.operand w r opd = .ok q u) : operandReserved opd = false := by
  rw [Bool.eq_false_iff]
  intro hr
  rw [operand_reserved hr] at h
  cases h

theorem getLsbD_complementIf (c : Bool) (v : Word) {k : Nat} (hk : k < 32) :
    (complementIf c v).getLsbD k = (v.getLsbD k ^^ c) := by
  cases c <;> simp [complementIf, hk]

theorem exec_and_eq {n c : Bool} {opd : Operand} (hr : operandReserved opd = false) (hnc : (n && c) = false) (s : State)
    (r : GReg) : exec (.and r n c opd) s =
      s.runLogic (encode (.and r n c opd)) r opd fun a b => complementIf n (a &&& complementIf c b) := by
  simp [exec, execAnd, hr, hnc]

theorem exec_or_eq {n c : Bool} {opd : Operand} (hr : operandReserved opd = false) (hnc : (n && c) = false) (s : State)
    (r : GReg) : exec (.or r n c opd) s =
      s.runLogic (encode (.or r n c opd)) r opd fun a b => complementIf n (a ||| complementIf c b) := by
  simp [exec, execOr, hr, hnc]

/-- An instruction that writes a function of the words whose bits are a function of their bits. -/
theorem result_of_bitwise {s u : State} {r : GReg} {opd : Operand} {i : Instr} {q : Inputs} {g : Word → Word → Word}
    {f : Bool → Bool → Bool} {n : Bool} (run : exec i s = s.runLogic (encode i) r opd fun a b => complementIf n (g a b))
    (fetch : s.operand (encode i) r opd = .ok q u)
    (bitwise : ∀ a b : Word, ∀ k < 32, (g a b).getLsbD k = f (a.getLsbD k) (b.getLsbD k)) :
    ∃ x v t, exec i s = .next t ∧ EndsWith q.late v t ∧ RegisterResult r x s.psw.next u v ∧
      ∀ k < 32, x.getLsbD k = (f (q.a.getLsbD k) (q.b.getLsbD k) ^^ n) := by
  obtain ⟨v, t, ends, ending, result⟩ := runLogic_result fetch fun a b => complementIf n (g a b)
  exact ⟨_, v, t, run.trans ends, ending, result, fun k hk => by rw [getLsbD_complementIf n _ hk, bitwise _ _ k hk]⟩

/-- Settles O43: the three differ in the function of the words; the N option complements each. -/
theorem logicResult : Obligations.LogicResult := by
  rintro s u r n c opd i f q (⟨rfl, hnc, hf⟩ | ⟨rfl, hnc, hf⟩ | ⟨rfl, rfl⟩) fetch
  · refine result_of_bitwise (exec_and_eq (not_reserved_of_operand fetch) hnc s r) fetch fun a b k hk => ?_
    rw [hf, BitVec.getLsbD_and, getLsbD_complementIf c b hk]
  · refine result_of_bitwise (exec_or_eq (not_reserved_of_operand fetch) hnc s r) fetch fun a b k hk => ?_
    rw [hf, BitVec.getLsbD_or, getLsbD_complementIf c b hk]
  · exact result_of_bitwise (g := fun a b => a ^^^ b) rfl fetch fun a b k _ => BitVec.getLsbD_xor

/-! ## CMP and CMPU -/

theorem ofTest_one_or_zero (c : Bool) : ofTest c = 1#32 ∨ ofTest c = 0#32 := by cases c <;> simp [ofTest]

theorem ofTest_eq_one {c : Bool} : ofTest c = 1#32 ↔ c = true := by cases c <;> simp [ofTest]

/-- An instruction that writes whether a test of its inputs holds (R385, R386). -/
theorem result_of_test {s u : State} {r : GReg} {opd : Operand} {i : Instr} {q : Inputs} {test : Word → Word → Bool}
    {cond : Cond} {x y : Int} (run : exec i s = s.runLogic (encode i) r opd fun a b => ofTest (test a b))
    (fetch : s.operand (encode i) r opd = .ok q u) (meaning : test q.a q.b = true ↔ CondRelates cond x y) :
    ∃ z v t, exec i s = .next t ∧ EndsWith q.late v t ∧ RegisterResult r z s.psw.next u v ∧ (z = 1#32 ∨ z = 0#32) ∧
      (z = 1#32 ↔ (cond = .eq ∧ x = y) ∨ (cond = .lt ∧ x < y) ∨ (cond = .ne ∧ x ≠ y) ∨ (cond = .le ∧ x ≤ y)) := by
  obtain ⟨v, t, ends, ending, result⟩ := runLogic_result fetch fun a b => ofTest (test a b)
  exact ⟨_, v, t, run.trans ends, ending, result, ofTest_one_or_zero _,
    ofTest_eq_one.trans (meaning.trans (condRelates_iff cond x y))⟩

/-- Settles O44: the two differ in the test, which is the condition of the signed or of the unsigned numbers. -/
theorem compareResult : Obligations.CompareResult := by
  rintro s u r cond opd i x y q (⟨rfl, rfl, rfl⟩ | ⟨rfl, rfl, rfl⟩) fetch
  · exact result_of_test rfl fetch (condSigned_iff cond q.a q.b)
  · exact result_of_test rfl fetch (condUnsigned_iff cond q.a q.b)

end Sys2Proof.Machine

/-!
PROOFS. Sys2Proof/Proofs/Register.lean: the statements that rest on 44_computational_register.md, but DEP
(Sys2Proof/Proofs/Encoding.lean) and SHLA (Sys2Proof/Proofs/Operand.lean): LSID, EXTR, DSR, CMR and DS, the words of LSID
and CMR as rows of fields, and the bits of an extracted field and of a double shift.
-/

namespace Sys2Proof

/-! ## Words with reserved zeros -/

/-- A field drawn as zero is the absence of a `put`. -/
@[simp] theorem put_zero (lo n : Nat) : put lo (0#n) = 0#32 := by simp [put]

theorem encode_lsid (r b : GReg) : encode (.lsid r b) = 0x04#6 ++ r ++ 0#18 ++ b := by
  rw [← put_zero_word (0x04#6 ++ r ++ 0#18 ++ b), put_append, put_append, put_append, put_zero, BitVec.or_zero]
  rfl

theorem encode_cmr (r : GReg) (c : BitVec 4) (a b : GReg) :
    encode (.cmr r c a b) = 0x09#6 ++ r ++ c ++ 0#10 ++ a ++ b := by
  rw [← put_zero_word (0x09#6 ++ r ++ c ++ 0#10 ++ a ++ b), put_append, put_append, put_append, put_append, put_append,
    put_zero, BitVec.or_zero]
  rfl

end Sys2Proof

namespace Sys2Proof.Machine

/-! ## LSID -/

theorem exec_lsid_eq {s : State} {b : GReg} {n : BitVec 3} (hn : n.toNat = 4 + (s.readGr b).toNat / 2 ^ 30) (r : GReg) :
    exec (.lsid r b) s = .next (s.writeGr r (BitVec.ofNat 32 (s.readSr n).toNat)).advance := by
  have selected : n = segSelect (s.readGr b) := BitVec.eq_of_toNat_eq (hn.trans (segSelect_toNat _).symm)
  rw [selected, BitVec.ofNat_toNat]
  rfl

/-- Settles O31: the row of fields is the encoding of LSID, and the register named is the one the model selects. -/
theorem loadSegmentIdentifier : Obligations.LoadSegmentIdentifier :=
  ⟨fun r b => decode_of_encode (encode_lsid r b),
    fun s r _ _ hn => ⟨_, exec_lsid_eq hn r, writeGr_advance_result s r _⟩⟩

/-! ## EXTR -/

/-- The field stands at the right end, with zeros above it (R412). -/
theorem getLsbD_extractField (v : Word) (pos : Nat) {len : Nat} (hl : len < 32) (i : Nat) :
    (extractField v pos len).getLsbD i = (decide (i < len) && v.getLsbD (31 - pos + i)) := by
  rw [extractField, BitVec.getLsbD_and, BitVec.getLsbD_ushiftRight, getLsbD_fieldMask hl, Bool.and_comm]

/-- The bits of the field are kept, and its leftmost bit is repeated above it (R415). -/
theorem getLsbD_signExtendField (v : Word) {len i : Nat} (hne : len ≠ 0) (hl : len < 32) (hi : i < 32) :
    (signExtendField v len).getLsbD i = v.getLsbD (if i < len then i else len - 1) := by
  have sign : (v <<< (32 - len)).msb = v.getLsbD (len - 1) := by
    rw [BitVec.msb_shiftLeft, BitVec.getMsbD, show 32 - 1 - (32 - len) = len - 1 by omega]
    simp [show 32 - len < 32 by omega]
  rw [signExtendField, BitVec.getLsbD_sshiftRight, sign]
  by_cases inside : i < len
  · simp [inside, hi, show 32 - len + i < 32 by omega]
  · simp [inside, hi, show ¬ 32 - len + i < 32 by omega]

/-- EXTR of a field in the word (R415). -/
theorem exec_extr_eq {s : State} {useShamt : Bool} {len pos : BitVec 5}
    (h : fieldInWord (fieldPosition s useShamt pos) len = true) (r : GReg) (sx : Bool) (b : GReg) :
    exec (.extr r sx useShamt len pos b) s = .next (s.writeGr r
      (if sx then signExtendField (extractField (s.readGr b) (fieldPosition s useShamt pos) len.toNat) len.toNat
        else extractField (s.readGr b) (fieldPosition s useShamt pos) len.toNat)).advance := by
  simp [exec, execExtr, fieldPos_eq, h]

/-- Settles O32: EXTR writes the extracted field, sign-extended with S; above the field, the leftmost bit of the field is
the one that is repeated. -/
theorem extractBitField : Obligations.ExtractBitField := by
  rintro s r sx useShamt len pos b p rfl hne hle
  refine ⟨_, _, exec_extr_eq (fieldInWord_iff.2 ⟨hne, hle⟩) r sx b, writeGr_advance_result s r _, fun i hi => ?_⟩
  have hl : len.toNat < 32 := len.isLt
  cases sx with
  | false => simp [getLsbD_extractField _ _ hl]
  | true =>
    rw [if_pos rfl, getLsbD_signExtendField _ hne hl hi, getLsbD_extractField _ _ hl]
    by_cases inside : i < len.toNat
    · simp [inside]
    · simp [inside, show len.toNat - 1 < len.toNat by omega, Nat.add_sub_assoc (Nat.pos_of_ne_zero hne)]

/-! ## DSR -/

/-- The right word supplies the bits until it is used up, then the left word (R425). -/
theorem getLsbD_doubleShiftRight (hi lo : Word) (sh : Nat) {i : Nat} (h : i < 32) :
    (doubleShiftRight hi lo sh).getLsbD i =
      if i + sh < 32 then lo.getLsbD (i + sh) else hi.getLsbD (i + sh - 32) := by
  rw [doubleShiftRight, BitVec.getLsbD_setWidth, BitVec.getLsbD_ushiftRight, BitVec.getLsbD_append, Nat.add_comm sh i]
  simp [h]

theorem exec_dsr_eq (s : State) (r : GReg) (useShamt : Bool) (shamt : BitVec 5) (a b : GReg) :
    exec (.dsr r useShamt shamt a b) s = .next (s.writeGr r
      (doubleShiftRight (s.readGr b) (s.readGr a) (fieldPosition s useShamt shamt))).advance := by
  rw [← fieldPos_eq]
  rfl

/-- Settles O35: DSR writes the double shift, whose bits are those of `getLsbD_doubleShiftRight`. (The name
`doubleShiftRight` is that of the model's function.) -/
theorem doubleShiftRight_bits : Obligations.DoubleShiftRight := fun s r useShamt shamt a b =>
  ⟨_, _, exec_dsr_eq s r useShamt shamt a b, writeGr_advance_result s r _, fun _ => getLsbD_doubleShiftRight _ _ _⟩

/-! ## CMR -/

/-- CMR with a defined condition moves where its test holds, and only advances otherwise (R435). -/
theorem exec_cmr_eq {s : State} {c : BitVec 4} {b : GReg} {test : Bool} (h : cmrTest c (s.readGr b) = some test)
    (r a : GReg) :
    exec (.cmr r c a b) s = if test then .next (s.writeGr r (s.readGr a)).advance else .next s.advance := by
  cases test <;> simp [exec, execCmr, h]

/-- The effect of CMR with a defined condition, where its test says what the condition means. -/
theorem cmr_result {s : State} {c : BitVec 4} {b : GReg} {test : Bool} {holds : Prop}
    (h : cmrTest c (s.readGr b) = some test) (meaning : test = true ↔ holds) (r a : GReg) :
    (holds → ∃ t, exec (.cmr r c a b) s = .next t ∧ RegisterResult r (s.readGr a) s.psw.next s t) ∧
    (¬ holds → ∃ t, exec (.cmr r c a b) s = .next t ∧ PswResult s.psw.next s t) := by
  rw [exec_cmr_eq h, ← meaning]
  exact ⟨fun moves => ⟨_, if_pos moves, writeGr_advance_result s r _⟩, fun stays => ⟨_, if_neg stays, advance_result s⟩⟩

/-- The rightmost bit tells an odd word (R435). -/
theorem getLsbD_zero_iff {v : Word} : v.getLsbD 0 = true ↔ v.toNat % 2 = 1 := by
  rw [BitVec.getLsbD, Nat.testBit_zero, decide_eq_true_iff]

theorem not_getLsbD_zero_iff {v : Word} : (!v.getLsbD 0) = true ↔ v.toNat % 2 = 0 := by
  rw [Bool.not_eq_true', ← Bool.not_eq_true, getLsbD_zero_iff, Nat.mod_two_not_eq_one]

/-- Settles O37: the row of fields is the encoding of CMR; each defined condition is a test of GR[b], and the others
trap. -/
theorem conditionalMove : Obligations.ConditionalMove := by
  refine ⟨fun r c a b => decode_of_encode (encode_cmr r c a b), fun s r a b => ?_⟩
  exact ⟨cmr_result rfl beq_iff_eq r a, cmr_result rfl decide_eq_true_iff r a, cmr_result rfl decide_eq_true_iff r a,
    cmr_result rfl not_getLsbD_zero_iff r a, cmr_result rfl bne_iff_ne r a, cmr_result rfl decide_eq_true_iff r a,
    cmr_result rfl decide_eq_true_iff r a, cmr_result rfl getLsbD_zero_iff r a,
    fun c undefined => ⟨_, trapsIllegal_cmr undefined r a b s, takeTrap_trapped s _⟩⟩

/-! ## DS -/

/-- Writing PSW.V as well changes that bit of the status word only. -/
theorem RegisterResult.setV {r : GReg} {x : Word} {p : Psw} {s t : State} (h : RegisterResult r x p s t) (v : Bool) :
    RegisterResult r x { p with v := v } s (t.setV v) where
  dest := h.dest
  others := h.others
  psw := by rw [← h.psw]; rfl
  reservation := h.reservation
  system := { h.system with }

/-- Settles O38: DS ends as an arithmetic instruction that writes its carry, and writes PSW.V besides. -/
theorem divideStepFootprint : Obligations.DivideStepFootprint := fun s r _ _ =>
  ⟨_, rfl, _, _, _,
    (writeGr_setCarry_advance_result s r (Config.freeWord 0 s.tick) (some (Config.freeBit 0 s.tick))).setV
      (Config.freeBit 1 s.tick)⟩

end Sys2Proof.Machine

/-!
PROOFS. Sys2Proof/Proofs/System.lean: the statement that rests on 45_system_control.md: the privileged instructions in user
mode. What the system control instructions do in privileged mode is in Sys2Proof/Proofs/Scope.lean (DIAG),
Sys2Proof/Proofs/State.lean (MR, MST, RFI) and Sys2Proof/Proofs/Memory.lean (LDPA, ITLB, PTLB, PCA).
-/

namespace Sys2Proof.Machine

/-! ## Privileged instructions in user mode -/

theorem ifPrivileged_of_user {s : State} (h : s.psw.x = 1#1) (w : Word) (k : Result) :
    s.ifPrivileged w k = .next (s.takeTrap (privilegedOperation w)) := if_neg (by simp [State.privileged, h])

/-- The reserved control registers are the ones listed; `reservedCr_of_mem` is the other direction (R64). -/
theorem mem_of_reservedCr : ∀ {n : BitVec 5},
    reservedCr n = true → n ∈ [3#5, 8#5, 9#5, 10#5, 11#5, 12#5, 13#5, 14#5, 15#5, 23#5] := by decide

/-- MR in user mode to a register of the privileged sets traps and writes nothing (R452). -/
theorem exec_mr_write_user {s : State} (hx : s.psw.x = 1#1) {reg : SysReg} (hr : namesReserved reg = false)
    (hp : s.params.privilegedRegister reg = true) (r : GReg) :
    exec (.mr r true reg) s = .next (s.takeTrap (privilegedOperation (encode (.mr r true reg)))) := by
  simp [exec, execMr, hr, hp, State.privileged, hx, raise_eq]

/-- MST in user mode traps in each of its defined modes (R455). -/
theorem exec_mst_user {s : State} (hx : s.psw.x = 1#1) {arg : MstArg} (defined : ∀ k, arg ≠ .undefined k) (r : GReg) :
    exec (.mst r arg) s = .next (s.takeTrap (privilegedOperation (encode (.mst r arg)))) := by
  cases arg with
  | reg | set | clear => exact ifPrivileged_of_user hx _ _
  | undefined k => exact absurd rfl (defined k)

/-- The privilege test comes before everything else that a privileged instruction does; for MR and MST it comes after
the refusal of a reserved register and the trap of the undefined mode, which `NeedsPrivilege` leaves out (R562, R570). -/
theorem exec_privileged_user {i : Instr} {s : State} (hx : s.psw.x = 1#1) (h : NeedsPrivilege s.params i) :
    exec i s = .next (s.takeTrap (privilegedOperation (encode i))) := by
  cases i with
  | lda | sta | ldpa | itlb | ptlb | pca | diag | rfi => exact ifPrivileged_of_user hx _ _
  | mst r arg => exact exec_mst_user hx h r
  | mr r d reg =>
    cases reg with
    | sr n =>
      obtain ⟨rfl, privileged⟩ := h
      exact exec_mr_write_user (reg := .sr n) hx rfl privileged r
    | cr n =>
      obtain ⟨rfl, privileged, unreserved⟩ := h
      exact exec_mr_write_user (reg := .cr n) hx (Bool.eq_false_iff.2 (mt mem_of_reservedCr unreserved)) privileged r
  | brk | ldil | addil | ldo | lsid | extr | dep | dsr | shla | cmr | ds | add | adc | sub | sbc | and | or | xor | cmp
  | cmpu | b | gate | br | bv | be | bve | cbr | cbru | ld | st | ldr | stc | prb => exact h.elim

/-- Settles O17: the instruction is trap entry for trap 6, which passes the instruction word. -/
theorem privilegedInstructionsTrap : Obligations.PrivilegedInstructionsTrap := by
  intro i s hx h
  have trapped := takeTrap_trapped s (privilegedOperation (encode i))
  exact ⟨_, exec_privileged_user hx h, trapped, trapped.p0 _ rfl, rfl⟩

end Sys2Proof.Machine

/-!
PROOFS. Sys2Proof/Proofs/Exceptions.lean: a statement that rests on 60_exceptions.md: the modes the model refuses to run
in. What a step does outside them is `step_eq`, and the interrupt and trap entry are there too
(Sys2Proof/Proofs/State.lean); the fetch traps are in Sys2Proof/Proofs/Memory.lean.
-/

namespace Sys2Proof.Machine

/-! ## The modes the model refuses to run in -/

/-- The test of PSW.R comes first, whatever the other status bits are (R570 step 0, R585). -/
theorem step_recoveryCounter {s : State} (hr : s.psw.r = true) : step s = .refused .recoveryCounter := if_pos hr

/-- With the recovery counter off, PSW.Z is tested before an interrupt is taken or a word fetched (R570 step 0, R586). -/
theorem step_singleStep {s : State} (hr : s.psw.r = false) (hz : s.psw.z = true) : step s = .refused .singleStep :=
  calc step s
      _ = if s.psw.z then .refused .singleStep else s.betweenSteps.interruptOrRun := if_neg (Bool.eq_false_iff.1 hr)
      _ = .refused .singleStep := if_pos hz

/-- Settles O8: the two tests a step begins with, the recovery counter's before that of single stepping. -/
theorem refusedModes : Obligations.RefusedModes := fun _ => ⟨step_recoveryCounter, step_singleStep⟩

end Sys2Proof.Machine

/-!
PROOFS. Sys2Proof/Proofs/Reset.lean: a statement that rests on 70_reset_and_hazards.md: the hidden state and the mode right
after reset. The entry point after reset is in Sys2Proof/Proofs/Scope.lean, and that the reset state meets the invariant in
Sys2Proof/Proofs/State.lean.
-/

namespace Sys2Proof.Machine

/-! ## The mode and the hidden state right after reset -/

/-- The mode is privileged when PSW.X is zero (R45). -/
theorem privileged_iff (s : State) : s.privileged = true ↔ s.psw.x = 0#1 := beq_iff_eq

/-- Reset clears PSW.X with the rest of PSW-0, whatever the parameters are (R620, R621). -/
theorem resetWith_privileged (p : Params) : (State.resetWith p).privileged = true :=
  (privileged_iff (State.resetWith p)).2 rfl

/-- Settles O12: reservation, TLBs and caches are the empty values that reset gives them (R623); GR0 reads zero in every
state (R622). -/
theorem resetHiddenState : Obligations.ResetHiddenState :=
  ⟨rfl, rfl, rfl, rfl, rfl, resetWith_privileged Params.default, State.reset.readGr_zero⟩

end Sys2Proof.Machine
